-- ==== Sys2Proof/Word.lean ====
section
/-! DEFINITION. The word types of the QOI Codec Core and its pixel (00_scope.md R6, R7, R9). -/

namespace Sys2Proof

/-- `u8` of 00_scope.md R7: a stream byte or a pixel channel. -/
abbrev Byte := BitVec 8

/-- `u32` of 00_scope.md R7: a CSR word (20_memory.md R62). -/
abbrev Word := BitVec 32

/-- `u64` of 00_scope.md R7: TARGET and the three counters (00_scope.md R4). -/
abbrev Count := BitVec 64

/-- A pixel, four unsigned 8-bit channels; equality is equality of all four (00_scope.md R9). -/
structure Pixel where
  r : Byte
  g : Byte
  b : Byte
  a : Byte
deriving DecidableEq, Repr

/-- `ZERO` of 00_scope.md R9. -/
abbrev Pixel.zero : Pixel := ⟨0, 0, 0, 0⟩

/-- `OPAQUE_BLACK` of 00_scope.md R9. -/
abbrev Pixel.opaqueBlack : Pixel := ⟨0, 0, 0, 255⟩

end Sys2Proof
end

