-- ==== Sys2Proof/Config.lean ====
section
/-! DEFINITION. What is fixed for the machine (00_scope.md R2, R3). -/

namespace Sys2Proof.Config

/-- CACHE_SLOTS of 00_scope.md R2. -/
abbrev cacheSlots : Nat := 64

/-- The longest run one RUN chunk covers (00_scope.md R2: RUN length 1 .. 62). -/
abbrev maxRun : Nat := 62

/-- The default of the parameter QOI_MAGIC, `71 6F 69 66`, as the word be32(QOI_MAGIC) (00_scope.md R3,
10_state.md R50). The spec marks the default as general knowledge, so it is PRESUMED (log entry 8). It is only
the value the MAGIC register has in `State.reset`; the step function reads the register. -/
def defaultMagic : Word := 0x716F6966

/-- END_MARKER, byte `i` (00_scope.md R2, R11): seven bytes 0x00, then 0x01. -/
def markerByte (i : Fin 8) : Byte := if i.val < 7 then 0x00 else 0x01

end Sys2Proof.Config
end

