-- ==== Sys2Proof/Syntax.lean ====
section
/-! DEFINITION. The instructions of the QOI Codec Core: one constructor for each row of spec/opcode_table.json.
The operands of a chunk are the assembler's (30_encoding.md R97): the values the fields stand for, biases removed
(30_encoding.md R93). -/

namespace Sys2Proof

inductive Instr where
  /-- HEADER, 14 bytes (30_encoding.md R81). -/
  | header (magic width height : Word) (channels colorspace : Byte)
  /-- RGB, 4 bytes (30_encoding.md R84). -/
  | rgb (r g b : Byte)
  /-- RGBA, 5 bytes (30_encoding.md R85). -/
  | rgba (r g b a : Byte)
  /-- INDEX, 1 byte: cache slot `k` (30_encoding.md R86). -/
  | index (k : Nat)
  /-- DIFF, 1 byte: the channel deltas (30_encoding.md R87). -/
  | diff (dr dg db : Int)
  /-- LUMA, 2 bytes: the green delta, then red minus green and blue minus green (30_encoding.md R88). -/
  | luma (dg drg dbg : Int)
  /-- RUN, 1 byte: the run length `n`, the field plus 1 (30_encoding.md R89). -/
  | run (n : Nat)
  /-- END, the 8-byte end marker (30_encoding.md R91). -/
  | endMarker
  /-- START_DECODE, a CTRL write with START = 1, ABORT = 0, MODE = 0 and the other stored fields of the same write
  (45_host_commands.md R241, R243). -/
  | startDecode (encMarker : Bool) (decMarker : BitVec 2) (irqEn : Bool)
  /-- START_ENCODE, a CTRL write with START = 1, ABORT = 0, MODE = 1 (45_host_commands.md R241, R244). -/
  | startEncode (encMarker : Bool) (decMarker : BitVec 2) (irqEn : Bool)
  /-- ABORT, a CTRL write with ABORT = 1; its other bits are ignored (45_host_commands.md R241, R245). -/
  | abort
deriving DecidableEq, Repr

end Sys2Proof
end

