-- ==== Sys2Proof/WellFormed.lean ====
section
/-! DEFINITION. Which instructions have an encoding: the operand ranges of 30_encoding.md R97. An operand outside
its range is refused, not wrapped. -/

namespace Sys2Proof

/-- `lo ≤ d ≤ hi`. -/
def inRange (lo hi d : Int) : Bool := decide (lo ≤ d) && decide (d ≤ hi)

/-- The operand ranges of 30_encoding.md R97. The channels, header fields and CTRL bits of the other instructions
take every value of their types (30_encoding.md R94, R98). -/
def Instr.wellFormed : Instr → Bool
  | .header _ _ _ _ _ => true
  | .rgb _ _ _ => true
  | .rgba _ _ _ _ => true
  | .index k => decide (k < Config.cacheSlots)
  | .diff dr dg db => inRange (-2) 1 dr && inRange (-2) 1 dg && inRange (-2) 1 db
  | .luma dg drg dbg => inRange (-32) 31 dg && inRange (-8) 7 drg && inRange (-8) 7 dbg
  | .run n => decide (1 ≤ n) && decide (n ≤ Config.maxRun)
  | .endMarker => true
  | .startDecode _ _ _ => true
  | .startEncode _ _ _ => true
  | .abort => true

end Sys2Proof
end

