-- ==== Sys2Proof/Decode.lean ====
section
/-! DEFINITION. From stream bytes and CTRL words to instructions and back.

A stream element is recognised by its position (30_encoding.md R99): the header at the start, a chunk while pixels
are missing, the end marker after the last pixel; a command is a word written to CTRL. The decoder is total and
rejects by name; no first byte of a chunk is illegal (30_encoding.md R94). -/

namespace Sys2Proof

/-- `b[hi:lo]`, the unsigned integer of bits `hi` down to `lo` (00_scope.md R6). -/
def bitField (b : Byte) (hi lo : Nat) : Nat := b.toNat / 2 ^ lo % 2 ^ (hi + 1 - lo)

/-- `be32` of 00_scope.md R7: the first byte is the most significant (20_memory.md R69). -/
def be32 (b0 b1 b2 b3 : Byte) : Word :=
  BitVec.ofNat 32 (b0.toNat * 2 ^ 24 + b1.toNat * 2 ^ 16 + b2.toNat * 2 ^ 8 + b3.toNat)

/-- Byte `i` of the big-endian form of a word: byte 0 is bits 31:24 (40_header.md R105). -/
def beByte (w : Word) (i : Nat) : Byte := BitVec.ofNat 8 (w.toNat / 2 ^ (24 - 8 * i))

/-- The four big-endian bytes of a word, most significant first (20_memory.md R69). -/
def beBytes (w : Word) : List Byte := [beByte w 0, beByte w 1, beByte w 2, beByte w 3]

/-- The six chunk kinds (42_chunk_decode.md R140). -/
inductive ChunkKind where
  | rgb
  | rgba
  | index
  | diff
  | luma
  | run
deriving DecidableEq, Repr

/-- `kind(b)`, the mandatory test order: the two 8-bit tags first, then the top two bits (42_chunk_decode.md R140,
30_encoding.md R82). -/
def kind (b : Byte) : ChunkKind :=
  if b = 0xFE then .rgb
  else if b = 0xFF then .rgba
  else match bitField b 7 6 with
    | 0 => .index
    | 1 => .diff
    | 2 => .luma
    | _ => .run

/-- The number of bytes after the tag byte (30_encoding.md R92). -/
def ChunkKind.payloadLen : ChunkKind → Nat
  | .rgb => 3
  | .rgba => 4
  | .index => 0
  | .diff => 0
  | .luma => 1
  | .run => 0

/-- Operand assembly: the chunk of kind `k` with tag byte `b` and payload bytes `p0 ..` (30_encoding.md R84 to R89,
R93). A chunk with a shorter payload does not read the later bytes. -/
def chunkOf (k : ChunkKind) (b p0 p1 p2 p3 : Byte) : Instr :=
  match k with
  | .rgb => .rgb p0 p1 p2
  | .rgba => .rgba p0 p1 p2 p3
  | .index => .index (bitField b 5 0)
  | .diff => .diff (bitField b 5 4 - 2) (bitField b 3 2 - 2) (bitField b 1 0 - 2)
  | .luma => .luma (bitField b 5 0 - 32) (bitField p0 7 4 - 8) (bitField p0 3 0 - 8)
  | .run => .run (bitField b 5 0 + 1)

/-- Why bytes or a word are no instruction. -/
inductive DecodeError where
  /-- The bytes end before the element does (43_decode_engine.md R183). -/
  | truncated
  /-- A byte at the end marker's place differs from END_MARKER (42_chunk_decode.md R148). -/
  | notMarker
  /-- A CTRL word with neither START nor ABORT set: a plain field update (45_host_commands.md R241). -/
  | notCommand
  /-- Bytes are left over after one element. -/
  | leftover
deriving DecidableEq, Repr

/-- Where an element stands, which is what recognises it (30_encoding.md R99). -/
inductive Position where
  /-- Stream offset 0 (sub-state D_HDR). -/
  | header
  /-- The chunk sequence (sub-states D_TAG, D_PAY). -/
  | body
  /-- After the last pixel (sub-state D_MARK). -/
  | trailer
  /-- A CSR write to CTRL. -/
  | ctrl
deriving DecidableEq, Repr

/-- The header's 14 bytes (30_encoding.md R81, 40_header.md R105) and the bytes after it. -/
def decodeHeader : List Byte → Except DecodeError (Instr × List Byte)
  | m0 :: m1 :: m2 :: m3 :: w0 :: w1 :: w2 :: w3 :: h0 :: h1 :: h2 :: h3 :: c :: cs :: rest =>
    .ok (.header (be32 m0 m1 m2 m3) (be32 w0 w1 w2 w3) (be32 h0 h1 h2 h3) c cs, rest)
  | _ => .error .truncated

/-- The first chunk of the bytes and the bytes after it: the tag byte alone decides kind and length
(30_encoding.md R82, R83, R92). -/
def decodeChunk : List Byte → Except DecodeError (Instr × List Byte)
  | [] => .error .truncated
  | b :: rest =>
    match kind b, rest with
    | .rgb, p0 :: p1 :: p2 :: rest' => .ok (chunkOf .rgb b p0 p1 p2 0, rest')
    | .rgb, _ => .error .truncated
    | .rgba, p0 :: p1 :: p2 :: p3 :: rest' => .ok (chunkOf .rgba b p0 p1 p2 p3, rest')
    | .rgba, _ => .error .truncated
    | .luma, p0 :: rest' => .ok (chunkOf .luma b p0 0 0 0, rest')
    | .luma, [] => .error .truncated
    | .index, rest' => .ok (chunkOf .index b 0 0 0 0, rest')
    | .diff, rest' => .ok (chunkOf .diff b 0 0 0 0, rest')
    | .run, rest' => .ok (chunkOf .run b 0 0 0 0, rest')

/-- END_MARKER as a byte list (30_encoding.md R91). -/
def markerBytes : List Byte := [0x00, 0x00, 0x00, 0x00, 0x00, 0x00, 0x00, 0x01]

/-- The 8 marker bytes, compared one by one (42_chunk_decode.md R148), and the bytes after them. -/
def decodeMarker (bytes : List Byte) : Except DecodeError (Instr × List Byte) :=
  go markerBytes bytes
where
  /-- What is still expected, and what is still to be read. -/
  go : List Byte → List Byte → Except DecodeError (Instr × List Byte)
    | [], rest => .ok (.endMarker, rest)
    | _ :: _, [] => .error .truncated
    | m :: ms, b :: rest => if b = m then go ms rest else .error .notMarker

/-- The command a CTRL word carries: ABORT wins over START, MODE tells the two STARTs apart, bits 31:7 are ignored
(45_host_commands.md R241, 10_state.md R36). -/
def decodeCtrl (v : Word) : Except DecodeError Instr :=
  if v.getLsbD 1 then .ok .abort
  else if v.getLsbD 0 then
    if v.getLsbD 2 then .ok (.startEncode (v.getLsbD 3) (v.extractLsb' 4 2) (v.getLsbD 6))
    else .ok (.startDecode (v.getLsbD 3) (v.extractLsb' 4 2) (v.getLsbD 6))
  else .error .notCommand

/-- The stream element at position `p`; a CTRL word is no stream element. -/
def decodeStream (p : Position) (bytes : List Byte) : Except DecodeError (Instr × List Byte) :=
  match p with
  | .header => decodeHeader bytes
  | .body => decodeChunk bytes
  | .trailer => decodeMarker bytes
  | .ctrl => .error .notCommand

/-- What an instruction is written as: stream bytes, or the word written to CTRL. -/
inductive Code where
  | bytes (l : List Byte)
  | ctrlWord (w : Word)
deriving DecidableEq, Repr

/-- The instruction that a whole code is, at its position. -/
def decode (p : Position) : Code → Except DecodeError Instr
  | .bytes l =>
    match decodeStream p l with
    | .ok (i, []) => .ok i
    | .ok (_, _ :: _) => .error .leftover
    | .error e => .error e
  | .ctrlWord w => if p = .ctrl then decodeCtrl w else .error .notCommand

/-! ### The encoder, written from the same tables -/

/-- A byte from its fields, given as one unsigned number. -/
def byteOf (n : Nat) : Byte := BitVec.ofNat 8 n

/-- `run_byte(n)` = `0xC0 | (n - 1)` (44_encode_engine.md R211). -/
def runByte (n : Nat) : Byte := byteOf (0xC0 + (n - 1))

/-- `index_bytes(h)` (44_encode_engine.md R212). -/
def indexBytes (k : Nat) : List Byte := [byteOf k]

/-- `diff_bytes(dr, dg, db)`, the concatenation of 01, dr + 2, dg + 2, db + 2 (44_encode_engine.md R213). -/
def diffBytes (dr dg db : Int) : List Byte :=
  [byteOf (0x40 + 16 * (dr + 2).toNat + 4 * (dg + 2).toNat + (db + 2).toNat)]

/-- `luma_bytes(dg, drg, dbg)` (44_encode_engine.md R214). -/
def lumaBytes (dg drg dbg : Int) : List Byte :=
  [byteOf (0x80 + (dg + 32).toNat), byteOf (16 * (drg + 8).toNat + (dbg + 8).toNat)]

/-- `rgb_bytes(P)` (44_encode_engine.md R215). -/
def rgbBytes (r g b : Byte) : List Byte := [0xFE, r, g, b]

/-- `rgba_bytes(P)` (44_encode_engine.md R216). -/
def rgbaBytes (r g b a : Byte) : List Byte := [0xFF, r, g, b, a]

/-- The header's 14 bytes (40_header.md R108). -/
def headerBytes (magic width height : Word) (channels colorspace : Byte) : List Byte :=
  beBytes magic ++ beBytes width ++ beBytes height ++ [channels, colorspace]

/-- A CTRL word from its fields; reserved bits 0 (10_state.md R36). -/
def ctrlFields (start abort mode encMarker : Bool) (decMarker : BitVec 2) (irqEn : Bool) : Word :=
  BitVec.ofNat 32 (start.toNat + 2 * abort.toNat + 4 * mode.toNat + 8 * encMarker.toNat
    + 16 * decMarker.toNat + 64 * irqEn.toNat)

/-- The position an instruction belongs to (30_encoding.md R99). -/
def Instr.position : Instr → Position
  | .header _ _ _ _ _ => .header
  | .rgb _ _ _ => .body
  | .rgba _ _ _ _ => .body
  | .index _ => .body
  | .diff _ _ _ => .body
  | .luma _ _ _ => .body
  | .run _ => .body
  | .endMarker => .trailer
  | .startDecode _ _ _ => .ctrl
  | .startEncode _ _ _ => .ctrl
  | .abort => .ctrl

/-- The stream bytes of an instruction; a host command has none. -/
def streamBytes : Instr → List Byte
  | .header m w h c cs => headerBytes m w h c cs
  | .rgb r g b => rgbBytes r g b
  | .rgba r g b a => rgbaBytes r g b a
  | .index k => indexBytes k
  | .diff dr dg db => diffBytes dr dg db
  | .luma dg drg dbg => lumaBytes dg drg dbg
  | .run n => [runByte n]
  | .endMarker => markerBytes
  | .startDecode _ _ _ => []
  | .startEncode _ _ _ => []
  | .abort => []

/-- The code of a well-formed instruction. ABORT's other bits are ignored, and written 0 (45_host_commands.md R241). -/
def encode : Instr → Code
  | .startDecode em dm irq => .ctrlWord (ctrlFields true false false em dm irq)
  | .startEncode em dm irq => .ctrlWord (ctrlFields true false true em dm irq)
  | .abort => .ctrlWord (ctrlFields false true false false 0 false)
  | i => .bytes (streamBytes i)

/-- The assembler's code of an instruction: an operand outside its range is refused (30_encoding.md R97). -/
def assemble (i : Instr) : Option Code := if i.wellFormed then some (encode i) else none

/-- The pseudo-instruction `REPEAT n`: floor(n / 62) copies of RUN 62, then the remainder (30_encoding.md R98);
`n = 0` is refused. -/
def assembleRepeat (n : Nat) : Option (List Instr) :=
  if n = 0 then none
  else some (List.replicate (n / Config.maxRun) (.run Config.maxRun)
    ++ (if n % Config.maxRun = 0 then [] else [.run (n % Config.maxRun)]))

/-! ### The opcode table's numbering of an instruction's bits -/

/-- The bytes of a number, least significant first: `count` of them. -/
def lowBytes : Nat → Nat → List Byte
  | 0, _ => []
  | k + 1, w => byteOf w :: lowBytes k (w / 256)

/-- Which position the bits `w` of a table row of `nbits` bits are meant for. The table numbers two separate spaces
with the same bits, stream bytes and CTRL words; a word of 32 bits is a CTRL word unless its first byte is the RGB
tag, and the three bare command words (START 0x01, START with MODE 0x05, ABORT 0x02) are CTRL words at every width
up to 32 (DESIGN CHOICE, log entry 12). -/
def tablePosition (nbits w : Nat) : Position :=
  if nbits ≤ 32 ∧ (w = 1 ∨ w = 2 ∨ w = 5) then .ctrl
  else if nbits = 32 ∧ w % 256 ≠ 0xFE then .ctrl
  else if nbits ≤ 40 then .body
  else if nbits ≤ 64 then .trailer
  else .header

/-- How many bytes the longest element at a position has. -/
def Position.maxBytes : Position → Nat
  | .header => 14
  | .body => 5
  | .trailer => 8
  | .ctrl => 4

/-- The instruction the decoder reads from a table word: bit 0 is the least significant bit of the first byte. -/
def decodeTableWord (nbits w : Nat) : Option Instr :=
  match tablePosition nbits w with
  | .ctrl => (decodeCtrl (BitVec.ofNat 32 w)).toOption
  | p => (decodeStream p (lowBytes p.maxBytes w)).toOption.map (·.1)

end Sys2Proof
end

