-- ==== Sys2Proof/Machine/State.lean ====
section
/-! DEFINITION. The state of the QOI Codec Core (10_state.md R26 to R52), the two byte channels as the host holds
them, and the ways a step can stop. -/

namespace Sys2Proof.Machine

/-- CTRL.MODE and STATUS.PASS_MODE (10_state.md R37, R45). -/
inductive PassMode where
  | decode
  | encode
deriving DecidableEq, Repr

/-- CTRL.DEC_MARKER; the reserved value 3 is never stored (10_state.md R39). -/
inductive DecMarker where
  | none
  | required
  | optional
deriving DecidableEq, Repr

/-- STATUS.STATE (10_state.md R42). -/
inductive PassState where
  | idle
  | busy
  | done
  | error
deriving DecidableEq, Repr

/-- STATUS.PHASE (10_state.md R43). -/
inductive Phase where
  | none
  | header
  | body
  | trailer
deriving DecidableEq, Repr

/-- STATUS.ERR_KIND (60_exceptions.md R260). -/
inductive ErrKind where
  | none
  | ioError
  | formatError
  | boundsError
deriving DecidableEq, Repr

/-- STATUS.ERR_CAUSE; the reserved codes 11 to 15 are never written (60_exceptions.md R260). -/
inductive ErrCause where
  | none
  | shortRead
  | writeFail
  | badMagic
  | badChannels
  | badColorspace
  | reservedRun
  | runOverrun
  | badEndMarker
  | encBadChannels
  | indexBounds
deriving DecidableEq, Repr

/-- The chunk kinds that have payload bytes: the first index of D_PAY (10_state.md R34). -/
inductive PayKind where
  | rgb
  | rgba
  | luma
deriving DecidableEq, Repr

/-- SUB, the engine's sub-state (10_state.md R34). E_OUT's byte list is never empty, so it is held as its head and
its tail. -/
inductive Sub where
  /-- No pass is running. -/
  | none
  /-- D_HDR(i): waiting for header byte `i`. -/
  | dHdr (i : Fin 14)
  /-- D_TAG: waiting for the first byte of a chunk. -/
  | dTag
  /-- D_PAY(k, i): waiting for payload byte `i` of a chunk of kind `k`. -/
  | dPay (k : PayKind) (i : Fin 4)
  /-- D_OUT(px, n, j): delivering byte `j` of `px`; `n` pixels of the chunk remain, this one included. -/
  | dOut (px : Pixel) (n : Nat) (j : Fin 4)
  /-- D_MARK(i): waiting for end-marker byte `i`. -/
  | dMark (i : Fin 8)
  /-- E_HDR(j): emitting header byte `j`. -/
  | eHdr (j : Fin 14)
  /-- E_IN(i): waiting for byte `i` of the next input pixel. -/
  | eIn (i : Fin 4)
  /-- E_OUT(head :: tail): emitting the chunk bytes of the current pixel. -/
  | eOut (head : Byte) (tail : List Byte)
  /-- E_MARK(j): emitting end-marker byte `j`. -/
  | eMark (j : Fin 8)
deriving DecidableEq, Repr

/-- A token of the IN channel (10_state.md R22). -/
inductive Token where
  | byte (b : Byte)
  | eoi
deriving DecidableEq, Repr

/-- The host's answer to an offered byte (10_state.md R23). -/
inductive Answer where
  | ack
  | fail
deriving DecidableEq, Repr

/-- One element of the total order of steps and host actions (20_memory.md R66; the moves of
70_reset_and_hazards.md R307). START and ABORT are CSR writes. -/
inductive Event where
  /-- The core takes its enabled step, or holds. -/
  | core
  /-- The host presents a token on IN. -/
  | present (t : Token)
  /-- The host answers the byte offered on OUT. -/
  | answer (a : Answer)
  /-- The host reads the CSR at word offset `w`. -/
  | csrRead (w : Fin 64)
  /-- The host writes `v` to the CSR at word offset `w`. -/
  | csrWrite (w : Fin 64) (v : Word)
  /-- The host asserts `rst`. -/
  | reset
deriving DecidableEq, Repr

/-- Everything the spec gives the machine (10_state.md R26), and the host's side of its ports. The `irq` level,
STATUS.IRQ and the pending OUT offer are functions of these fields (10_state.md R24, R26). -/
structure State where
  /-- CTRL.MODE (R37). -/
  mode : PassMode
  /-- CTRL.ENC_MARKER (R38). -/
  encMarker : Bool
  /-- CTRL.DEC_MARKER (R39). -/
  decMarker : DecMarker
  /-- CTRL.IRQ_EN (R40). -/
  irqEn : Bool
  /-- STATUS.STATE (R42). -/
  state : PassState
  /-- STATUS.PHASE (R43). -/
  phase : Phase
  /-- STATUS.ERR_KIND (R44). -/
  errKind : ErrKind
  /-- STATUS.ERR_CAUSE (R44). -/
  errCause : ErrCause
  /-- STATUS.MARKER_SEEN (R45). -/
  markerSeen : Bool
  /-- STATUS.PASS_MODE (R45). -/
  passMode : PassMode
  /-- WIDTH (R46). -/
  width : Word
  /-- HEIGHT (R47). -/
  height : Word
  /-- FORMAT.CHANNELS (R48). -/
  channels : Byte
  /-- FORMAT.COLORSPACE (R48). -/
  colorspace : Byte
  /-- PIXCOUNT (R30). -/
  pixCount : Count
  /-- INCOUNT (R31). -/
  inCount : Count
  /-- OUTCOUNT (R32). -/
  outCount : Count
  /-- MAGIC, the read-only constant be32(QOI_MAGIC) (R50); no step writes it (log entry 8). -/
  magic : Word
  /-- PREV (R27). -/
  prev : Pixel
  /-- The pixel history cache (R28). -/
  cache : Vector Pixel Config.cacheSlots
  /-- TARGET (R29). -/
  target : Count
  /-- RUN, a 6-bit register (R33). -/
  run : BitVec 6
  /-- SUB (R34). -/
  sub : Sub
  /-- HDRBUF[0..13] (R35). -/
  hdrBuf : Vector Byte 14
  /-- TAG (R35). -/
  tag : Byte
  /-- PAY[0..3] (R35). -/
  pay : Vector Byte 4
  /-- PIN[0..3] (R35). -/
  pin : Vector Byte 4
  /-- The token presented on IN and not yet consumed (R22). -/
  inTok : Option Token
  /-- Whether that token is input of a pass that has begun, so that a later pass does not take it (43_decode_engine.md
  R187); the model's own note, without meaning while nothing is presented (log entry 3). -/
  inPass : Bool
  /-- The answer to the offered byte, not yet consumed by a core step (R23). -/
  outAns : Option Answer
  /-- The OUT stream of the pass that was started last: the bytes the host has ACKed, in order (20_memory.md R64,
  70_reset_and_hazards.md R306; log entry 14). -/
  outStream : List Byte
  /-- The word the last CSR read returned to the host (R21; log entry 14). -/
  csrData : Option Word
  /-- The host's actions and the core's turns still to come, in their total order (20_memory.md R66; log entry 1). -/
  events : List Event
deriving DecidableEq, Repr

/-- A model fault is reserved for an unreachable check (60_exceptions.md R278). -/
inductive Fault where
  /-- RUN with a length outside 1 .. 62, which no byte encodes (42_chunk_decode.md R149, 60_exceptions.md R264).
  Raised by `execRun`; safe: no decoded chunk reaches it. -/
  | reservedRun
  /-- INDEX with a slot of 64 or more, which no byte encodes (60_exceptions.md R265). Raised by `execIndex`; safe: no
  decoded chunk reaches it. -/
  | indexBounds
deriving DecidableEq, Repr

/-- Why the model takes no step. -/
inductive Refusal where
  /-- An instruction without a meaning yet; raised in `exec`'s arms only. Safe. -/
  | notModelled (mnemonic : String)
  /-- The host presents a token while one is presented: no move of the host (70_reset_and_hazards.md R307). Raised by
  `present`. Safe. -/
  | tokenAlreadyPresented
  /-- The host answers a byte that is not offered, or that it has answered: no move of the host
  (70_reset_and_hazards.md R307). Raised by `answer`. Safe. -/
  | answerNotOffered
deriving DecidableEq, Repr

/-- The machine after hardware reset (10_state.md R52, 70_reset_and_hazards.md R290). PREV, the cache, TARGET, RUN and
the buffers are unspecified there; the zeros are a DESIGN CHOICE (log entry 6). The value of MAGIC is PRESUMED, the
spec's own default (log entry 8). -/
def State.reset : State where
  mode := .decode
  encMarker := true
  decMarker := .optional
  irqEn := false
  state := .idle
  phase := .none
  errKind := .none
  errCause := .none
  markerSeen := false
  passMode := .decode
  width := 0
  height := 0
  channels := 0
  colorspace := 0
  pixCount := 0
  inCount := 0
  outCount := 0
  magic := Config.defaultMagic
  prev := .zero
  cache := Vector.replicate Config.cacheSlots .zero
  target := 0
  run := 0
  sub := .none
  hdrBuf := Vector.replicate 14 0
  tag := 0
  pay := Vector.replicate 4 0
  pin := Vector.replicate 4 0
  inTok := none
  inPass := false
  outAns := none
  outStream := []
  csrData := none
  events := []

end Sys2Proof.Machine
end

