-- ==== Sys2Proof/Machine/Operands.lean ====
section
/-! DEFINITION. Operand forms: channel arithmetic, the hash, the pixel each chunk stands for, and the named codes of
register fields. All pure functions. -/

namespace Sys2Proof.Machine

/-- `add8(x, d) = (x + d) mod 256` (00_scope.md R8). -/
def add8 (x : Byte) (d : Int) : Byte := BitVec.ofInt 8 (x.toNat + d)

/-- `sub8s(x, y) = sext_8((x - y) mod 256)`, in -128 .. 127 (00_scope.md R8). -/
def sub8s (x y : Byte) : Int :=
  let v := (x.toNat + 256 - y.toNat) % 256
  if v < 128 then v else v - 256

/-- `hash(p) = (r*3 + g*5 + b*7 + a*11) mod 64`, computed exactly before the reduction (41_hash_cache.md R120). -/
def hash (p : Pixel) : Fin 64 :=
  ⟨(p.r.toNat * 3 + p.g.toNat * 5 + p.b.toNat * 7 + p.a.toNat * 11) % 64, Nat.mod_lt _ (by decide)⟩

/-- `chan(px, j)`: byte `j` of a pixel on a stream, r, g, b, a (43_decode_engine.md R175, 30_encoding.md R90). -/
def chan (p : Pixel) (j : Fin 4) : Byte :=
  match j with
  | 0 => p.r
  | 1 => p.g
  | 2 => p.b
  | 3 => p.a

/-- CacheRead (41_hash_cache.md R122). -/
def cacheRead (c : Vector Pixel 64) (k : Fin 64) : Pixel := c.get k

/-- CacheWrite: the slot of the pixel's hash, whatever it held (41_hash_cache.md R123). -/
def cacheWrite (c : Vector Pixel 64) (p : Pixel) : Vector Pixel 64 := c.set (hash p).val p (hash p).isLt

/-- The pixel of an RGB chunk: alpha from PREV (42_chunk_decode.md R142). -/
def rgbPixel (prev : Pixel) (r g b : Byte) : Pixel := ⟨r, g, b, prev.a⟩

/-- The pixel of a DIFF chunk (42_chunk_decode.md R145). -/
def diffPixel (prev : Pixel) (dr dg db : Int) : Pixel :=
  ⟨add8 prev.r dr, add8 prev.g dg, add8 prev.b db, prev.a⟩

/-- The pixel of a LUMA chunk: red and blue deltas are relative to the green one (42_chunk_decode.md R146). -/
def lumaPixel (prev : Pixel) (dg drg dbg : Int) : Pixel :=
  ⟨add8 prev.r (drg + dg), add8 prev.g dg, add8 prev.b (dbg + dg), prev.a⟩

/-- The input pixel of an encode pass: alpha 255 when CH is 3 (44_encode_engine.md R202). -/
def inputPixel (channels : Byte) (pin : Vector Byte 4) : Pixel :=
  ⟨pin.get 0, pin.get 1, pin.get 2, if channels = 4 then pin.get 3 else 255⟩

/-- `WIDTH * HEIGHT`, exact in 64 bits (00_scope.md R4, 10_state.md R29). -/
def pixelTarget (width height : Word) : Count := BitVec.ofNat 64 (width.toNat * height.toNat)

/-- FORMAT.CHANNELS is legal: 3 or 4 (40_header.md R102, 44_encode_engine.md R200). -/
def legalChannels (c : Byte) : Bool := c = 3 || c = 4

/-- FORMAT.COLORSPACE is legal in a parsed header: 0 or 1 (40_header.md R102). -/
def legalColorspace (c : Byte) : Bool := c = 0 || c = 1

/-- A 2-bit value written to CTRL.DEC_MARKER: 3 leaves the field unchanged (10_state.md R39). -/
def writeDecMarker (old : DecMarker) (v : BitVec 2) : DecMarker :=
  match v.toNat with
  | 0 => .none
  | 1 => .required
  | 2 => .optional
  | _ => old

/-- `len(k)` of 10_state.md R34. -/
def PayKind.len : PayKind → Nat
  | .rgb => 3
  | .rgba => 4
  | .luma => 1

/-- The chunk kind of a payload kind. -/
def PayKind.kind : PayKind → ChunkKind
  | .rgb => .rgb
  | .rgba => .rgba
  | .luma => .luma

end Sys2Proof.Machine
end

