-- ==== Sys2Proof/Machine/Flags.lean ====
section
/-! DEFINITION. The status flags. There are no condition codes (10_state.md R54); the flags are STATUS and CTRL fields
and the `irq` level, and this file says how each is read as bits. -/

namespace Sys2Proof.Machine

/-- The `irq` level, also STATUS.IRQ (10_state.md R24, 60_exceptions.md R272). -/
def irq (s : State) : Bool := s.irqEn && (s.state = .done || s.state = .error)

/-- STATUS.PHASE as SUB gives it while BUSY (10_state.md R43). -/
def phaseOf : Sub → Phase
  | .none => .none
  | .dHdr _ => .header
  | .dTag => .body
  | .dPay _ _ => .body
  | .dOut _ _ _ => .body
  | .dMark _ => .trailer
  | .eHdr _ => .header
  | .eIn _ => .body
  | .eOut _ _ => .body
  | .eMark _ => .trailer

/-- The kind of a cause (60_exceptions.md R260). -/
def ErrCause.kind : ErrCause → ErrKind
  | .none => .none
  | .shortRead => .ioError
  | .writeFail => .ioError
  | .badMagic => .formatError
  | .badChannels => .formatError
  | .badColorspace => .formatError
  | .reservedRun => .formatError
  | .runOverrun => .formatError
  | .badEndMarker => .formatError
  | .encBadChannels => .formatError
  | .indexBounds => .boundsError

/-- ERR_CAUSE's code (60_exceptions.md R260). -/
def ErrCause.code : ErrCause → Nat
  | .none => 0
  | .shortRead => 1
  | .writeFail => 2
  | .badMagic => 3
  | .badChannels => 4
  | .badColorspace => 5
  | .reservedRun => 6
  | .runOverrun => 7
  | .badEndMarker => 8
  | .encBadChannels => 9
  | .indexBounds => 10

/-- ERR_KIND's code (10_state.md R41). -/
def ErrKind.code : ErrKind → Nat
  | .none => 0
  | .ioError => 1
  | .formatError => 2
  | .boundsError => 3

/-- STATUS.STATE's code (10_state.md R41). -/
def PassState.code : PassState → Nat
  | .idle => 0
  | .busy => 1
  | .done => 2
  | .error => 3

/-- STATUS.PHASE's code (10_state.md R41). -/
def Phase.code : Phase → Nat
  | .none => 0
  | .header => 1
  | .body => 2
  | .trailer => 3

/-- MODE's code (10_state.md R37). -/
def PassMode.code : PassMode → Nat
  | .decode => 0
  | .encode => 1

/-- DEC_MARKER's code (10_state.md R39). -/
def DecMarker.code : DecMarker → Nat
  | .none => 0
  | .required => 1
  | .optional => 2

/-- CTRL as a read returns it: START, ABORT and the reserved bits read 0 (10_state.md R36). -/
def ctrlWord (s : State) : Word :=
  BitVec.ofNat 32 (4 * s.mode.code + 8 * s.encMarker.toNat + 16 * s.decMarker.code + 64 * s.irqEn.toNat)

/-- STATUS as a read returns it (10_state.md R41). -/
def statusWord (s : State) : Word :=
  BitVec.ofNat 32 (s.state.code + 4 * s.phase.code + 16 * s.errKind.code + 256 * s.errCause.code
    + 4096 * s.markerSeen.toNat + 8192 * (irq s).toNat + 16384 * s.passMode.code)

/-- FORMAT as a read returns it (10_state.md R48). -/
def formatWord (s : State) : Word := BitVec.ofNat 32 (s.channels.toNat + 256 * s.colorspace.toNat)

/-- The low half of a 64-bit counter (10_state.md R49). -/
def loWord (c : Count) : Word := c.extractLsb' 0 32

/-- The high half of a 64-bit counter (10_state.md R49). -/
def hiWord (c : Count) : Word := c.extractLsb' 32 32

end Sys2Proof.Machine
end

