-- ==== Sys2Proof/Machine/Ops.lean ====
section
/-! DEFINITION. The named operations over the state that the meanings and the engine steps share: error entry and
leaving it, the end of a pass, the helpers of the two engines, START, and the tokens and answers. -/

namespace Sys2Proof.Machine

/-- What a step answers. -/
abbrev Result := Host.Outcome State Fault Refusal

/-- `raise K(C)`, the error entry, the kind K being the cause's (60_exceptions.md R262): counters, PHASE, WIDTH,
HEIGHT and FORMAT keep their values; the OUT offer goes with SUB. -/
def raise (c : ErrCause) (s : State) : State :=
  { s with state := .error, errKind := c.kind, errCause := c, sub := .none }

/-- What START and ABORT clear in STATUS: the error report and MARKER_SEEN. With it the host leaves ERROR; nothing of
the failed pass resumes (60_exceptions.md R269, 10_state.md R44, R45). -/
def leaveError (s : State) : State := { s with errKind := .none, errCause := .none, markerSeen := false }

/-- `finish()`: PHASE is kept (43_decode_engine.md, 44_encode_engine.md, notation). -/
def finish (s : State) : State := { s with state := .done, sub := .none }

/-- `finish_body()` (43_decode_engine.md R180). -/
def finishBody (s : State) : State :=
  match s.decMarker with
  | .none => finish { s with phase := .trailer }
  | .required => { s with phase := .trailer, sub := .dMark 0 }
  | .optional => { s with phase := .trailer, sub := .dMark 0 }

/-- `next_chunk()` (43_decode_engine.md R179). -/
def nextChunk (s : State) : State := if s.pixCount = s.target then finishBody s else { s with sub := .dTag }

/-- `update(px)`: PREV and the cache take the pixel of a non-run chunk (42_chunk_decode.md R141, 44_encode_engine.md
R210). -/
def update (px : Pixel) (s : State) : State := { s with prev := px, cache := cacheWrite s.cache px }

/-- `complete(px)`: the update comes before the output of px's bytes (43_decode_engine.md R177). -/
def complete (px : Pixel) (s : State) : State := { update px s with sub := .dOut px 1 0 }

/-- `finish_enc()` (44_encode_engine.md R227). -/
def finishEnc (s : State) : State :=
  if s.encMarker then { s with phase := .trailer, sub := .eMark 0 } else finish { s with phase := .trailer }

/-- `next_pixel()` (44_encode_engine.md R218). -/
def nextPixel (s : State) : State := if s.pixCount = s.target then finishEnc s else { s with sub := .eIn 0 }

/-! ### Starting a pass -/

/-- The cleared cache (41_hash_cache.md R124). -/
def clearCache : Vector Pixel Config.cacheSlots := Vector.replicate Config.cacheSlots .zero

/-- Whether a token presented in `s` is input of a pass that has begun: one that is BUSY, or one that ended in DONE or
ERROR, whose host may still present the rest or EOI (43_decode_engine.md R187, 70_reset_and_hazards.md R293). In IDLE, and
after an encode START refused before BUSY (45_host_commands.md R244), there is no such pass (log entry 3). -/
def presentedToPass (s : State) : Bool := s.state ≠ .idle ∧ s.errCause ≠ .encBadChannels

/-- IN as a pass that becomes BUSY finds it: a token left over from an earlier pass is gone, since no token is kept
across passes (43_decode_engine.md R187); any other stays presented and is this pass's first (10_state.md R22; log
entry 3). -/
def openInput (s : State) : State := { s with inTok := if s.inPass then none else s.inTok, inPass := true }

/-- What both STARTs do first: clear the report and the counters, note the mode, PHASE HEADER (43_decode_engine.md R171,
44_encode_engine.md R200). The OUT stream of the new pass is empty (log entry 14). -/
def beginPass (m : PassMode) (s : State) : State :=
  { leaveError s with
    passMode := m, pixCount := 0, inCount := 0, outCount := 0, phase := .header, outStream := [] }

/-- START of a decode pass (43_decode_engine.md R171). WIDTH, HEIGHT, FORMAT and TARGET keep their values. -/
def startDecode (s : State) : State :=
  { beginPass .decode (openInput s) with
    state := .busy, prev := .opaqueBlack, cache := clearCache, sub := .dHdr 0 }

/-- START of an encode pass (44_encode_engine.md R200): refused at once, in ERROR, when CHANNELS is not 3 or 4;
then it leaves IN as it is. -/
def startEncode (s : State) : State :=
  if legalChannels s.channels then
    { beginPass .encode (openInput s) with
      state := .busy, prev := .opaqueBlack, cache := clearCache, run := 0,
      target := pixelTarget s.width s.height, sub := .eHdr 0 }
  else raise .encBadChannels (beginPass .encode s)

/-- The stored fields of a CTRL write without ABORT: MODE, ENC_MARKER and DEC_MARKER only while not BUSY, IRQ_EN always
(45_host_commands.md R241, R242). -/
def storeCtrl (m : PassMode) (encMarker : Bool) (decMarker : BitVec 2) (irqEn : Bool) (s : State) : State :=
  if s.state = .busy then { s with irqEn := irqEn }
  else { s with mode := m, encMarker := encMarker, decMarker := writeDecMarker s.decMarker decMarker, irqEn := irqEn }

/-- `abort()` (45_host_commands.md R245). The OUT offer is withdrawn with SUB, and with it an answer not yet consumed
(log entry 4), but the bytes the host has ACKed stay in the OUT stream; a presented token stays. -/
def abortPass (s : State) : State :=
  { leaveError s with state := .idle, phase := .none, sub := .none, outAns := none }

/-- Hardware reset (70_reset_and_hazards.md R290): every register to its value after reset. A presented token is not
consumed and MAGIC is a constant. What the host has in hand is not the core's to reset: the bytes it ACKed, which are
part of the result of the pass that ends here (70_reset_and_hazards.md R306), the word it read, and what it does next. -/
def hardReset (s : State) : State :=
  { State.reset with
    magic := s.magic, inTok := s.inTok, inPass := s.inPass, outStream := s.outStream, csrData := s.csrData,
    events := s.events }

/-! ### The channels -/

/-- A step of an input sub-state: enabled when a token is presented, which it consumes; otherwise the core holds
(43_decode_engine.md R170, R191; log entry 2). -/
def withToken (f : Token → State → Result) (s : State) : Result :=
  match s.inTok with
  | none => .next s
  | some t => f t { s with inTok := none }

/-- InTake of a byte counts it (10_state.md R31). -/
def countIn (s : State) : State := { s with inCount := s.inCount + 1 }

/-- A step of an output sub-state: enabled when the host has answered. FAIL raises IoError(WRITE_FAIL);
ACK counts the byte (10_state.md R23, R32) and goes on with `k`. The byte joined the OUT stream when the host ACKed it
(log entry 4). -/
def withAnswer (k : State → State) (s : State) : Result :=
  match s.outAns with
  | none => .next s
  | some .fail => .next (raise .writeFail { s with outAns := none })
  | some .ack =>
    .next (k { s with outAns := none, outCount := s.outCount + 1 })

/-- Byte `j` of the header an encode pass emits (40_header.md R108). -/
def headerByte (s : State) (j : Fin 14) : Byte :=
  (headerBytes s.magic s.width s.height s.channels s.colorspace)[j.val]?.getD 0

/-- The byte the core offers on OUT, if it offers one: a function of SUB (10_state.md R23, R26, R34). -/
def offer (s : State) : Option Byte :=
  if s.state = .busy then
    match s.sub with
    | .none => none
    | .dHdr _ => none
    | .dTag => none
    | .dPay _ _ => none
    | .dOut px _ j => some (chan px j)
    | .dMark _ => none
    | .eHdr j => some (headerByte s j)
    | .eIn _ => none
    | .eOut b _ => some b
    | .eMark j => some (Config.markerByte j)
  else none

end Sys2Proof.Machine
end

