-- ==== Sys2Proof/Machine/Chunks.lean ====
section
/-! DEFINITION. The meanings of the six chunk kinds (42_chunk_decode.md R142 to R147): what the step that consumes a
chunk's last byte does after it has taken the byte (43_decode_engine.md R173, R174). -/

namespace Sys2Proof.Machine

/-- RGB (42_chunk_decode.md R142). -/
def execRgb (r g b : Byte) (s : State) : Result := .next (complete (rgbPixel s.prev r g b) s)

/-- RGBA (42_chunk_decode.md R143). -/
def execRgba (r g b a : Byte) (s : State) : Result := .next (complete ⟨r, g, b, a⟩ s)

/-- INDEX: the pixel of slot `k`, then written to the slot of its hash (42_chunk_decode.md R144). The bounds check is
the unreachable one of 60_exceptions.md R265. -/
def execIndex (k : Nat) (s : State) : Result :=
  if h : k < 64 then .next (complete (cacheRead s.cache ⟨k, h⟩) s) else .fault .indexBounds

/-- DIFF (42_chunk_decode.md R145). -/
def execDiff (dr dg db : Int) (s : State) : Result := .next (complete (diffPixel s.prev dr dg db) s)

/-- LUMA (42_chunk_decode.md R146). -/
def execLuma (dg drg dbg : Int) (s : State) : Result := .next (complete (lumaPixel s.prev dg drg dbg) s)

/-- RUN: PREV `n` times, no write of PREV or the cache; more pixels than remain raise RUN_OVERRUN
(42_chunk_decode.md R147, 43_decode_engine.md R173). The length check is the unreachable one of 42_chunk_decode.md
R149. -/
def execRun (n : Nat) (s : State) : Result :=
  if n < 1 ∨ Config.maxRun < n then .fault .reservedRun
  else if s.target.toNat - s.pixCount.toNat < n then .next (raise .runOverrun s)
  else .next { s with sub := .dOut s.prev n 0 }

end Sys2Proof.Machine
end

