-- ==== Sys2Proof/Machine/Commands.lean ====
section
/-! DEFINITION. The meanings of the three host commands (45_host_commands.md R243 to R246): CTRL writes. The fields of
the write are stored first, then START acts (R241); START while BUSY changes IRQ_EN only (R246). -/

namespace Sys2Proof.Machine

/-- START_DECODE (45_host_commands.md R241, R243). -/
def execStartDecode (encMarker : Bool) (decMarker : BitVec 2) (irqEn : Bool) (s : State) : Result :=
  if s.state = .busy then .next (storeCtrl .decode encMarker decMarker irqEn s)
  else .next (startDecode (storeCtrl .decode encMarker decMarker irqEn s))

/-- START_ENCODE (45_host_commands.md R241, R244). -/
def execStartEncode (encMarker : Bool) (decMarker : BitVec 2) (irqEn : Bool) (s : State) : Result :=
  if s.state = .busy then .next (storeCtrl .encode encMarker decMarker irqEn s)
  else .next (startEncode (storeCtrl .encode encMarker decMarker irqEn s))

/-- ABORT (45_host_commands.md R245), in any state; its write's other fields are ignored (R241). -/
def execAbort (s : State) : Result := .next (abortPass s)

end Sys2Proof.Machine
end

