-- ==== Sys2Proof/Machine/Header.lean ====
section
/-! DEFINITION. The meaning of HEADER (40_header.md). -/

namespace Sys2Proof.Machine

/-- An accepted header is latched whole, and TARGET with it (40_header.md R100, R104). -/
def acceptHeader (width height : Word) (channels colorspace : Byte) (s : State) : State :=
  { s with width := width, height := height, channels := channels, colorspace := colorspace,
           target := pixelTarget width height }

/-- HEADER: the checks in order magic, channels, colorspace, the first failing one reported and nothing written; then
the latch, PHASE BODY and `next_chunk()` (40_header.md R100 to R104, 43_decode_engine.md R172). -/
def execHeader (magic width height : Word) (channels colorspace : Byte) (s : State) : Result :=
  if magic ≠ s.magic then .next (raise .badMagic s)
  else if !legalChannels channels then .next (raise .badChannels s)
  else if !legalColorspace colorspace then .next (raise .badColorspace s)
  else .next (nextChunk { acceptHeader width height channels colorspace s with phase := .body })

end Sys2Proof.Machine
end

