-- ==== Sys2Proof/Machine/Trailer.lean ====
section
/-! DEFINITION. The meaning of END (42_chunk_decode.md R148). -/

namespace Sys2Proof.Machine

/-- END, all 8 bytes consumed and verified: MARKER_SEEN, and the pass is DONE (42_chunk_decode.md R148,
43_decode_engine.md R176). -/
def execEndMarker (s : State) : Result := .next (finish { s with markerSeen := true })

end Sys2Proof.Machine
end

