-- ==== Sys2Proof/Machine/Dispatch.lean ====
section
/-! DEFINITION. The meaning of every instruction of spec/opcode_table.json. -/

namespace Sys2Proof.Machine

def exec (i : Instr) (s : State) : Host.Outcome State Fault Refusal :=
  match i with
  | .header magic width height channels colorspace => Sys2Proof.Machine.execHeader magic width height channels colorspace s
  | .rgb r g b => Sys2Proof.Machine.execRgb r g b s
  | .rgba r g b a => Sys2Proof.Machine.execRgba r g b a s
  | .index k => Sys2Proof.Machine.execIndex k s
  | .diff dr dg db => Sys2Proof.Machine.execDiff dr dg db s
  | .luma dg drg dbg => Sys2Proof.Machine.execLuma dg drg dbg s
  | .run n => Sys2Proof.Machine.execRun n s
  | .endMarker => Sys2Proof.Machine.execEndMarker s
  | .startDecode encMarker decMarker irqEn => Sys2Proof.Machine.execStartDecode encMarker decMarker irqEn s
  | .startEncode encMarker decMarker irqEn => Sys2Proof.Machine.execStartEncode encMarker decMarker irqEn s
  | .abort => Sys2Proof.Machine.execAbort s

end Sys2Proof.Machine
end

