-- ==== Sys2Proof/Machine/Csr.lean ====
section
/-! DEFINITION. CSR reads and writes (45_host_commands.md R240 to R242). A write to CTRL that carries a command runs
that command. -/

namespace Sys2Proof.Machine

/-- The value a read of word offset `w` returns (45_host_commands.md R240; the map of 10_state.md section 3): byte
offset 4 * w. -/
def csrValue (w : Fin 64) (s : State) : Word :=
  match w.val with
  | 0 => ctrlWord s
  | 1 => statusWord s
  | 2 => s.width
  | 3 => s.height
  | 4 => formatWord s
  | 5 => loWord s.pixCount
  | 6 => hiWord s.pixCount
  | 7 => loWord s.inCount
  | 8 => hiWord s.inCount
  | 9 => loWord s.outCount
  | 10 => hiWord s.outCount
  | 11 => s.magic
  | _ => 0

/-- A write to CTRL (45_host_commands.md R241): a command, or a plain update of the fields. -/
def writeCtrl (v : Word) (s : State) : Result :=
  match decodeCtrl v with
  | .ok i => exec i s
  | .error _ =>
    .next (storeCtrl (if v.getLsbD 2 then .encode else .decode) (v.getLsbD 3) (v.extractLsb' 4 2) (v.getLsbD 6) s)

/-- A write to a configuration register is ignored while BUSY (45_host_commands.md R242). -/
def whenNotBusy (f : State → State) (s : State) : State := if s.state = .busy then s else f s

/-- `MemWrite(w, 4, v)` (45_host_commands.md R241): STATUS, the counters, MAGIC and the reserved offsets ignore it. -/
def csrWrite (w : Fin 64) (v : Word) (s : State) : Result :=
  match w.val with
  | 0 => writeCtrl v s
  | 2 => .next (whenNotBusy (fun s => { s with width := v }) s)
  | 3 => .next (whenNotBusy (fun s => { s with height := v }) s)
  | 4 => .next (whenNotBusy
      (fun s => { s with channels := v.extractLsb' 0 8, colorspace := v.extractLsb' 8 8 }) s)
  | _ => .next s

end Sys2Proof.Machine
end

