-- ==== Sys2Proof/Machine/DecodeEngine.lean ====
section
/-! DEFINITION. The steps of the streaming decode engine (43_decode_engine.md R172 to R176). A step that consumes the
last byte of an element takes the byte and then runs the whole element with `exec`; the bytes before it are fetch
steps (log entry 9). Each function gets the state with the token already taken. -/

namespace Sys2Proof.Machine

theorem PayKind.len_le (k : PayKind) : k.len ≤ 4 := by cases k <;> decide

/-- The HEADER the 14 bytes of HDRBUF are (30_encoding.md R81). -/
def bufferedHeader (h : Vector Byte 14) : Instr :=
  .header (be32 (h.get 0) (h.get 1) (h.get 2) (h.get 3)) (be32 (h.get 4) (h.get 5) (h.get 6) (h.get 7))
    (be32 (h.get 8) (h.get 9) (h.get 10) (h.get 11)) (h.get 12) (h.get 13)

/-- The chunk that a tag byte and the bytes of PAY are. -/
def bufferedChunk (k : PayKind) (tag : Byte) (p : Vector Byte 4) : Instr :=
  chunkOf k.kind tag (p.get 0) (p.get 1) (p.get 2) (p.get 3)

/-- D_HDR(i) (43_decode_engine.md R172). -/
def stepDHdr (i : Fin 14) (t : Token) (s : State) : Result :=
  match t with
  | .eoi => .next (raise .shortRead s)
  | .byte b =>
    let s := { countIn s with hdrBuf := s.hdrBuf.set i.val b i.isLt }
    if h : i.val + 1 < 14 then .next { s with sub := .dHdr ⟨i.val + 1, h⟩ }
    else exec (bufferedHeader s.hdrBuf) s

/-- D_TAG (43_decode_engine.md R173): a one-byte chunk runs at once, the others wait for their payload. -/
def stepDTag (t : Token) (s : State) : Result :=
  match t with
  | .eoi => .next (raise .shortRead s)
  | .byte b =>
    let s := { countIn s with tag := b }
    match kind b with
    | .rgb => .next { s with sub := .dPay .rgb 0 }
    | .rgba => .next { s with sub := .dPay .rgba 0 }
    | .luma => .next { s with sub := .dPay .luma 0 }
    | .index => exec (chunkOf .index b 0 0 0 0) s
    | .diff => exec (chunkOf .diff b 0 0 0 0) s
    | .run => exec (chunkOf .run b 0 0 0 0) s

/-- D_PAY(k, i) (43_decode_engine.md R174). -/
def stepDPay (k : PayKind) (i : Fin 4) (t : Token) (s : State) : Result :=
  match t with
  | .eoi => .next (raise .shortRead s)
  | .byte b =>
    let s := { countIn s with pay := s.pay.set i.val b i.isLt }
    if h : i.val + 1 < k.len then .next { s with sub := .dPay k ⟨i.val + 1, by have := k.len_le; omega⟩ }
    else exec (bufferedChunk k s.tag s.pay) s

/-- What D_OUT(px, n, j) does after its byte is delivered (43_decode_engine.md R175): the next byte of the pixel, or
the pixel is counted and the next pixel of the chunk or `next_chunk()` follows. -/
def afterPixelByte (px : Pixel) (n : Nat) (j : Fin 4) (s : State) : State :=
  if h : j.val + 1 < s.channels.toNat ∧ j.val + 1 < 4 then { s with sub := .dOut px n ⟨j.val + 1, h.2⟩ }
  else if 1 < n then { s with pixCount := s.pixCount + 1, sub := .dOut px (n - 1) 0 }
  else nextChunk { s with pixCount := s.pixCount + 1 }

/-- D_MARK(i) (43_decode_engine.md R176): in OPTIONAL mode EOI as the first token ends the pass without a marker; a
byte that differs raises BAD_END_MARKER; the eighth matching byte completes END. -/
def stepDMark (i : Fin 8) (t : Token) (s : State) : Result :=
  match t with
  | .eoi => if i.val = 0 ∧ s.decMarker = .optional then .next (finish s) else .next (raise .shortRead s)
  | .byte b =>
    let s := countIn s
    if b ≠ Config.markerByte i then .next (raise .badEndMarker s)
    else if h : i.val + 1 < 8 then .next { s with sub := .dMark ⟨i.val + 1, h⟩ }
    else exec .endMarker s

end Sys2Proof.Machine
end

