-- ==== Sys2Proof/Machine/EncodeEngine.lean ====
section
/-! DEFINITION. The streaming encode engine (44_encode_engine.md): the choice of chunks and the steps E_HDR, E_IN,
E_OUT, E_MARK. -/

namespace Sys2Proof.Machine

/-- The one non-run chunk of a pixel, in the order INDEX, DIFF, LUMA, RGB, RGBA (44_encode_engine.md R203, R205 to
R209, R219); `slot` is cache[hash(P)]. -/
def selectChunk (prev slot p : Pixel) : Instr :=
  let dr := sub8s p.r prev.r
  let dg := sub8s p.g prev.g
  let db := sub8s p.b prev.b
  if slot = p then .index (hash p).val
  else if p.a = prev.a ∧ inRange (-2) 1 dr ∧ inRange (-2) 1 dg ∧ inRange (-2) 1 db then .diff dr dg db
  else if p.a = prev.a ∧ inRange (-32) 31 dg ∧ inRange (-8) 7 (dr - dg) ∧ inRange (-8) 7 (db - dg) then
    .luma dg (dr - dg) (db - dg)
  else if p.a = prev.a then .rgb p.r p.g p.b
  else .rgba p.r p.g p.b p.a

/-- `encode_pixel(P)` (44_encode_engine.md R203, R204): the chunks the pixel emits, and RUN, PREV and the cache after
it. PIXCOUNT already counts P. -/
def encodePixel (p : Pixel) (s : State) : List Instr × State :=
  if p = s.prev then
    if s.run + 1 = 62 ∨ s.pixCount = s.target then ([.run (s.run + 1).toNat], { s with run := 0 })
    else ([], { s with run := s.run + 1 })
  else
    ((if s.run = 0 then [] else [.run s.run.toNat]) ++ [selectChunk s.prev (cacheRead s.cache (hash p)) p],
      update p { s with run := 0 })

/-- The byte list `q` of some chunks (44_encode_engine.md R211 to R216). -/
def chunkBytes (l : List Instr) : List Byte := l.flatMap streamBytes

/-- `if q = []: next_pixel() else: SUB <- E_OUT(q)` (44_encode_engine.md R202, R217). -/
def emit (q : List Byte) (s : State) : State :=
  match q with
  | [] => nextPixel s
  | b :: tail => { s with sub := .eOut b tail }

/-- What E_HDR(j) does after its byte is delivered (44_encode_engine.md R201). -/
def afterHeaderByte (j : Fin 14) (s : State) : State :=
  if h : j.val + 1 < 14 then { s with sub := .eHdr ⟨j.val + 1, h⟩ } else nextPixel { s with phase := .body }

/-- The last part of E_IN, for a whole input pixel (44_encode_engine.md R202). -/
def takePixel (p : Pixel) (s : State) : State :=
  let (chunks, s') := encodePixel p { s with pixCount := s.pixCount + 1 }
  emit (chunkBytes chunks) s'

/-- E_IN(i) (44_encode_engine.md R202); the token is already taken. -/
def stepEIn (i : Fin 4) (t : Token) (s : State) : Result :=
  match t with
  | .eoi => .next (raise .shortRead s)
  | .byte b =>
    let s := { countIn s with pin := s.pin.set i.val b i.isLt }
    if h : i.val + 1 < s.channels.toNat ∧ i.val + 1 < 4 then .next { s with sub := .eIn ⟨i.val + 1, h.2⟩ }
    else .next (takePixel (inputPixel s.channels s.pin) s)

/-- What E_MARK(j) does after its byte is delivered (44_encode_engine.md R228). -/
def afterMarkerByte (j : Fin 8) (s : State) : State :=
  if h : j.val + 1 < 8 then { s with sub := .eMark ⟨j.val + 1, h⟩ } else finish s

end Sys2Proof.Machine
end

