-- ==== Sys2Proof/Machine/Engine.lean ====
section
/-! DEFINITION. One step of the core, selected by SUB, and one element of the total order of steps and host actions. -/

namespace Sys2Proof.Machine

/-- One core step while BUSY (43_decode_engine.md R170). When the sub-state's token or answer is missing, and outside
BUSY, no step is enabled and nothing changes (43_decode_engine.md R191; log entry 2). -/
def coreStep (s : State) : Result :=
  if s.state = .busy then
    match s.sub with
    | .none => .next s
    | .dHdr i => withToken (stepDHdr i) s
    | .dTag => withToken stepDTag s
    | .dPay k i => withToken (stepDPay k i) s
    | .dOut px n j => withAnswer (afterPixelByte px n j) s
    | .dMark i => withToken (stepDMark i) s
    | .eHdr j => withAnswer (afterHeaderByte j) s
    | .eIn i => withToken (stepEIn i) s
    | .eOut _ q => withAnswer (emit q) s
    | .eMark j => withAnswer (afterMarkerByte j) s
  else .next s

/-- The host presents a token; it stays presented until the core consumes it (10_state.md R22), but for one left over
from a pass when the next pass begins (43_decode_engine.md R187; log entry 3). Presenting a second one is no move
(70_reset_and_hazards.md R307; log entry 5). -/
def present (t : Token) (s : State) : Result :=
  match s.inTok with
  | none => .next { s with inTok := some t, inPass := presentedToPass s }
  | some _ => .refused .tokenAlreadyPresented

/-- The host answers the offered byte (10_state.md R23). A byte it ACKs is delivered: it joins the OUT stream
(70_reset_and_hazards.md R306). Answering a byte that is not offered, or twice, is no move
(70_reset_and_hazards.md R307; log entry 5). -/
def answer (a : Answer) (s : State) : Result :=
  match offer s, s.outAns with
  | some b, none =>
    match a with
    | .ack => .next { s with outAns := some .ack, outStream := s.outStream ++ [b] }
    | .fail => .next { s with outAns := some .fail }
  | some _, some _ => .refused .answerNotOffered
  | none, _ => .refused .answerNotOffered

/-- One element of the total order (20_memory.md R66). A CSR read has no side effect (20_memory.md R68): it only
returns its value to the host. -/
def perform (e : Event) (s : State) : Result :=
  match e with
  | .core => coreStep s
  | .present t => present t s
  | .answer a => answer a s
  | .csrRead w => .next { s with csrData := some (csrValue w s) }
  | .csrWrite w v => csrWrite w v s
  | .reset => .next (hardReset s)

end Sys2Proof.Machine
end

