-- ==== Sys2Proof/Machine/Step.lean ====
section
/-! DEFINITION. One step of the machine, and where the instruction it runs next stands. -/

namespace Sys2Proof.Machine

/-- One step: the first of the events to come; when the host does nothing more, the core's own step
(20_memory.md R66; log entry 1). -/
def step (s : State) : Host.Outcome State Fault Refusal :=
  match s.events with
  | [] => coreStep s
  | e :: rest => perform e { s with events := rest }

/-- The state after the bytes but the last have been fetched by core steps, with the last one presented and the core's
turn next. -/
def State.loadBytes (s : State) : List Byte → State
  | [] => s
  | [b] => { s with inTok := some (.byte b), events := .core :: s.events }
  | b :: b' :: rest =>
    State.loadBytes
      (match coreStep { s with inTok := some (.byte b) } with
        | .next t => t
        | .fault _ => s
        | .refused _ => s)
      (b' :: rest)

/-- A decode pass in which the next token is the element's first byte: kept if the machine stands there, else a pass
just started and, for a chunk, its header accepted for 62 pixels of 4 channels, or, for the end marker, for an empty
image (log entry 13). -/
def State.atPosition (s : State) (p : Position) : State :=
  match p with
  | .header => if s.state = .busy ∧ s.sub = .dHdr 0 then s else startDecode s
  | .body =>
    if s.state = .busy ∧ s.sub = .dTag then s
    else { acceptHeader 62 1 4 0 (startDecode s) with phase := .body, sub := .dTag }
  | .trailer =>
    if s.state = .busy ∧ s.sub = .dMark 0 then s
    else { acceptHeader 0 0 4 0 (startDecode s) with phase := .trailer, sub := .dMark 0 }
  | .ctrl => s

/-- `s` with the instruction of a table word where the next step fetches: a CTRL word as the host's next write, stream
bytes fetched but for the last, which is presented (log entries 12 and 13). -/
def State.withFetchWord (s : State) (nbits w : Nat) : State :=
  match tablePosition nbits w with
  | .ctrl => { s with events := .csrWrite 0 (BitVec.ofNat 32 w) :: s.events }
  | p =>
    let bytes := lowBytes p.maxBytes w
    let len := match decodeStream p bytes with
      | .ok (_, rest) => bytes.length - rest.length
      | .error _ => bytes.length
    State.loadBytes (s.atPosition p) (bytes.take len)

end Sys2Proof.Machine
end

