-- ==== Sys2Proof/Machine/Assembler.lean ====
section
/-! DEFINITION. The spec's assembler (30_encoding.md R97, R98): one element a line, mnemonic, comma-separated
operands, `;` starts a comment, numbers decimal or `0x` hexadecimal, an operand outside its range refused. A line is a
list of characters. -/

namespace Sys2Proof.Machine

/-- A space or a tab. -/
def isBlank (c : Char) : Bool := c = ' ' || c = '\t'

/-- The line without blanks at its two ends. -/
def trimBlanks (l : List Char) : List Char := ((l.dropWhile isBlank).reverse.dropWhile isBlank).reverse

/-- The fields between commas. -/
def commaFields : List Char → List (List Char)
  | [] => [[]]
  | c :: cs =>
    if c = ',' then [] :: commaFields cs
    else match commaFields cs with
      | [] => [[c]]
      | f :: fs => (c :: f) :: fs

/-- The value of a digit, in hexadecimal; a decimal number has digits below 10. -/
def digitValue (c : Char) : Option Nat :=
  if '0' ≤ c ∧ c ≤ '9' then some (c.toNat - '0'.toNat)
  else if 'a' ≤ c ∧ c ≤ 'f' then some (c.toNat - 'a'.toNat + 10)
  else if 'A' ≤ c ∧ c ≤ 'F' then some (c.toNat - 'A'.toNat + 10)
  else none

/-- The digits of a number in a base, most significant first, onto what was read so far. -/
def digitsValue (base acc : Nat) : List Char → Option Nat
  | [] => some acc
  | c :: cs =>
    match digitValue c with
    | some d => if d < base then digitsValue base (acc * base + d) cs else none
    | none => none

/-- An unsigned number. -/
def numberValue : List Char → Option Nat
  | [] => none
  | '0' :: 'x' :: [] => none
  | '0' :: 'x' :: ds => digitsValue 16 0 ds
  | ds => digitsValue 10 0 ds

/-- A number that may carry a minus sign. The rule lets signed operands carry one; here any operand may, so that `-0`
is also taken for an unsigned operand (DESIGN CHOICE, log entry 21). -/
def operandValue (l : List Char) : Option Int :=
  match l with
  | '-' :: ds => (numberValue ds).map fun n => -(n : Int)
  | ds => (numberValue ds).map fun n => (n : Int)

/-- All operands of a line, or a refusal. -/
def operandValues : List (List Char) → Option (List Int)
  | [] => some []
  | f :: fs =>
    match operandValue (trimBlanks f), operandValues fs with
    | some v, some vs => some (v :: vs)
    | _, _ => none

/-- An operand as an unsigned number below `bound`. -/
def unsignedBelow (bound : Nat) (v : Int) : Option Nat := if 0 ≤ v ∧ v < bound then some v.toNat else none

/-- A channel, or another byte operand. -/
def byteOperand (v : Int) : Option Byte := (unsignedBelow 256 v).map byteOf

/-- A 32-bit operand. -/
def wordOperand (v : Int) : Option Word := (unsignedBelow (2 ^ 32) v).map (BitVec.ofNat 32)

/-- The instruction, if its operands are in range (30_encoding.md R97). -/
def checked (i : Instr) : Option (List Instr) := if i.wellFormed then some [i] else none

/-- The elements of a mnemonic with its operands (30_encoding.md R97, R98); the magic of HEADER is the parameter
QOI_MAGIC. -/
def lineElements (magic : Word) (mnemonic : List Char) (ops : List Int) : Option (List Instr) :=
  if mnemonic = "RGB".toList then
    match ops with
    | [r, g, b] => do checked (.rgb (← byteOperand r) (← byteOperand g) (← byteOperand b))
    | _ => none
  else if mnemonic = "RGBA".toList then
    match ops with
    | [r, g, b, a] => do checked (.rgba (← byteOperand r) (← byteOperand g) (← byteOperand b) (← byteOperand a))
    | _ => none
  else if mnemonic = "INDEX".toList then
    match ops with
    | [k] => do checked (.index (← unsignedBelow 64 k))
    | _ => none
  else if mnemonic = "DIFF".toList then
    match ops with
    | [dr, dg, db] => checked (.diff dr dg db)
    | _ => none
  else if mnemonic = "LUMA".toList then
    match ops with
    | [dg, drg, dbg] => checked (.luma dg drg dbg)
    | _ => none
  else if mnemonic = "RUN".toList then
    match ops with
    | [n] => do checked (.run (← unsignedBelow 63 n))
    | _ => none
  else if mnemonic = "HEADER".toList then
    match ops with
    | [w, h, ch, cs] => do
      checked (.header magic (← wordOperand w) (← wordOperand h) (← byteOperand ch) (← byteOperand cs))
    | _ => none
  else if mnemonic = "END".toList then
    match ops with
    | [] => checked .endMarker
    | _ => none
  else if mnemonic = "REPEAT".toList then
    match ops with
    | [n] => if 0 ≤ n then assembleRepeat n.toNat else none
    | _ => none
  else none

/-- The elements of one line; a line that is blank or only a comment has none. -/
def assembleLine (magic : Word) (line : List Char) : Option (List Instr) :=
  let l := trimBlanks (line.takeWhile (fun c => c ≠ ';'))
  let mnemonic := l.takeWhile (fun c => !isBlank c)
  let rest := trimBlanks (l.drop mnemonic.length)
  if l = [] then some []
  else if rest = [] then lineElements magic mnemonic []
  else (operandValues (commaFields rest)).bind (lineElements magic mnemonic)

/-- The bytes of a program, line by line; one refused line refuses the program. -/
def assembleProgram (magic : Word) : List (List Char) → Option (List Byte)
  | [] => some []
  | l :: ls =>
    match assembleLine magic l, assembleProgram magic ls with
    | some is, some bytes => some (is.flatMap streamBytes ++ bytes)
    | _, _ => none

end Sys2Proof.Machine
end

