-- ==== Sys2Proof/Safety.lean ====
section
/-! DEFINITION. What the claims are stated in: the machine's invariant, what a chunk does in one piece (the reference of
42_chunk_decode.md R150), how much of a pass is left, and which registers a sub-state still reads. -/

namespace Sys2Proof.Safety

open Sys2Proof.Machine

/-! ### Reachable shape -/

/-- CH as a number (00_scope.md R11). -/
def channelCount (s : State) : Nat := s.channels.toNat

/-- `n * CH` in the 64-bit byte counters (43_decode_engine.md R188). -/
def bytesOf (s : State) (n : Count) : Count := n * BitVec.ofNat 64 (channelCount s)

/-- A decode pass with its header accepted (40_header.md R104). -/
structure DecodeBody (s : State) : Prop where
  mode : s.passMode = .decode
  channels : s.channels = 3 ∨ s.channels = 4
  colorspace : s.colorspace = 0 ∨ s.colorspace = 1
  target : s.target.toNat = s.width.toNat * s.height.toNat
  count : s.pixCount.toNat ≤ s.target.toNat

/-- A running encode pass (44_encode_engine.md R200, R226); a 3-channel one has alpha 255 in PREV (R209). -/
structure EncodePass (s : State) : Prop where
  mode : s.passMode = .encode
  channels : s.channels = 3 ∨ s.channels = 4
  target : s.target.toNat = s.width.toNat * s.height.toNat
  count : s.pixCount.toNat ≤ s.target.toNat
  alpha : s.channels = 3 → s.prev.a = 255

/-- What each sub-state implies (43_decode_engine.md R188, 44_encode_engine.md R226, 10_state.md R34). -/
def SubInv (s : State) : Prop :=
  match s.sub with
  | .none => True
  | .dHdr i => s.passMode = .decode ∧ s.pixCount = 0 ∧ s.outCount = 0 ∧ s.inCount = BitVec.ofNat 64 i.val
  | .dTag => DecodeBody s ∧ s.pixCount.toNat < s.target.toNat ∧ s.outCount = bytesOf s s.pixCount
  | .dPay k i => DecodeBody s ∧ s.pixCount.toNat < s.target.toNat ∧ s.outCount = bytesOf s s.pixCount
      ∧ i.val < k.len ∧ kind s.tag = k.kind
  | .dOut _ n j => DecodeBody s ∧ 1 ≤ n ∧ n ≤ 62 ∧ s.pixCount.toNat + n ≤ s.target.toNat
      ∧ j.val < channelCount s ∧ s.outCount = bytesOf s s.pixCount + BitVec.ofNat 64 j.val
  | .dMark _ => DecodeBody s ∧ s.pixCount = s.target ∧ s.outCount = bytesOf s s.pixCount ∧ s.decMarker ≠ .none
  | .eHdr j => EncodePass s ∧ s.pixCount = 0 ∧ s.run = 0 ∧ s.inCount = 0 ∧ s.outCount = BitVec.ofNat 64 j.val
  | .eIn i => EncodePass s ∧ s.pixCount.toNat < s.target.toNat ∧ s.run.toNat ≤ 61
      ∧ s.run.toNat ≤ s.pixCount.toNat ∧ i.val < channelCount s
      ∧ s.inCount = bytesOf s s.pixCount + BitVec.ofNat 64 i.val
  | .eOut _ q => EncodePass s ∧ s.run = 0 ∧ q.length ≤ 5 ∧ s.inCount = bytesOf s s.pixCount
  | .eMark _ => EncodePass s ∧ s.pixCount = s.target ∧ s.run = 0 ∧ s.encMarker = true
      ∧ s.inCount = bytesOf s s.pixCount

/-- The invariant of the machine. -/
structure Invariant (s : State) : Prop where
  /-- SUB = NONE exactly when STATE is not BUSY (10_state.md R42). -/
  busy : s.state = .busy ↔ s.sub ≠ .none
  /-- PHASE is derived from SUB while BUSY (10_state.md R43). -/
  phase : s.state = .busy → s.phase = phaseOf s.sub
  /-- ABORT and reset leave PHASE at NONE (10_state.md R43). -/
  idle : s.state = .idle → s.phase = .none
  /-- The configuration is fixed while BUSY (43_decode_engine.md R190). -/
  mode : s.state = .busy → s.passMode = s.mode
  /-- ERR_KIND is the kind of ERR_CAUSE (60_exceptions.md R260). -/
  errKind : s.errKind = s.errCause.kind
  /-- ERR_CAUSE is 0 exactly outside ERROR (10_state.md R44). -/
  errCause : s.state = .error ↔ s.errCause ≠ .none
  /-- RESERVED_RUN and INDEX_BOUNDS are never raised (60_exceptions.md R264, R265). -/
  errReal : s.errCause ≠ .reservedRun ∧ s.errCause ≠ .indexBounds
  /-- MARKER_SEEN is set by a finished decode pass only (10_state.md R45). -/
  marker : s.markerSeen = true → s.state = .done ∧ s.passMode = .decode
  /-- A pass is DONE at its target, in the trailer (43_decode_engine.md R181, 44_encode_engine.md R229). -/
  done : s.state = .done → s.phase = .trailer ∧ s.pixCount = s.target
  /-- A token presented to a BUSY pass is that pass's input (43_decode_engine.md R187; log entry 3). -/
  inPass : s.state = .busy → s.inPass = true
  /-- Only an offered byte has an answer (70_reset_and_hazards.md R307). -/
  answer : s.outAns ≠ none → (offer s).isSome
  /-- OUTCOUNT counts the bytes the host has ACKed, but for one whose answer the core has not consumed (10_state.md R32,
  43_decode_engine.md R175); an aborted pass leaves that one uncounted (log entry 4). -/
  outCount : s.state ≠ .idle →
    BitVec.ofNat 64 s.outStream.length = s.outCount + (if s.outAns = some .ack then 1 else 0)
  /-- A slot holds ZERO or a pixel of its own hash (41_hash_cache.md R127). -/
  cache : s.state = .busy → ∀ k : Fin 64, s.cache.get k = .zero ∨ hash (s.cache.get k) = k
  /-- What the sub-state implies. -/
  sub : SubInv s

/-! ### Effects said in the spec's own terms -/

/-- `t` is `s` after a non-run chunk with pixel `px`: PREV is px, exactly the slot of px's hash takes px, the output of
px is next, and nothing else changed (42_chunk_decode.md R141, 43_decode_engine.md R177). -/
def PixelCompleted (s t : State) (px : Pixel) : Prop :=
  t = { s with prev := px, cache := t.cache, sub := .dOut px 1 0 }
  ∧ ∀ k : Fin 64, t.cache.get k =
      if k.val = (px.r.toNat * 3 + px.g.toNat * 5 + px.b.toNat * 7 + px.a.toNat * 11) % 64 then px else s.cache.get k

/-- `s` in ERROR with a kind and a cause, nothing else changed (60_exceptions.md R262). -/
def inError (kind : ErrKind) (cause : ErrCause) (s : State) : State :=
  { s with state := .error, errKind := kind, errCause := cause, sub := .none }

/-- `s` with its token consumed. -/
def tokenTaken (s : State) : State := { s with inTok := none }

/-- `s` with its token, a byte, consumed and counted (10_state.md R31). -/
def byteTaken (s : State) : State := { s with inTok := none, inCount := s.inCount + 1 }

/-- `s` with its answer ACK consumed and the byte counted (10_state.md R23, R32). -/
def byteCounted (s : State) : State := { s with outAns := none, outCount := s.outCount + 1 }

/-- The channel that byte `j` of a pixel carries: r, g, b, a in this order (30_encoding.md R90). -/
def channelByte (px : Pixel) (j : Nat) : Byte :=
  if j = 0 then px.r else if j = 1 then px.g else if j = 2 then px.b else px.a

/-- `t` is `s` at the end of a chunk or of the header (43_decode_engine.md R179, R180): D_TAG while pixels are missing,
else the trailer, where mode NONE is DONE and the other modes wait for the marker. -/
def NextChunk (s t : State) : Prop :=
  (s.pixCount ≠ s.target → t = { s with sub := .dTag })
  ∧ (s.pixCount = s.target → s.decMarker = .none → t = { s with phase := .trailer, state := .done, sub := .none })
  ∧ (s.pixCount = s.target → s.decMarker ≠ .none → t = { s with phase := .trailer, sub := .dMark 0 })

/-- `t` is `s` at the end of a pixel's bytes in an encode pass (44_encode_engine.md R218, R227). -/
def NextPixel (s t : State) : Prop :=
  (s.pixCount ≠ s.target → t = { s with sub := .eIn 0 })
  ∧ (s.pixCount = s.target → s.encMarker = true → t = { s with phase := .trailer, sub := .eMark 0 })
  ∧ (s.pixCount = s.target → s.encMarker = false → t = { s with phase := .trailer, state := .done, sub := .none })

/-- The table of the errors each core step can raise (60_exceptions.md R274). -/
def possibleErrors : Sub → List ErrCause
  | .none => []
  | .dHdr i => if i.val = 13 then [.shortRead, .badMagic, .badChannels, .badColorspace] else [.shortRead]
  | .dTag => [.shortRead, .runOverrun]
  | .dPay _ _ => [.shortRead]
  | .dOut _ _ _ => [.writeFail]
  | .dMark _ => [.shortRead, .badEndMarker]
  | .eHdr _ => [.writeFail]
  | .eIn _ => [.shortRead]
  | .eOut _ _ => [.writeFail]
  | .eMark _ => [.writeFail]

/-- The event is a CTRL write whose START begins a pass in `s` (45_host_commands.md R241). -/
def StartsPass (s : State) (e : Event) : Prop :=
  ∃ v : Word, e = .csrWrite 0 v ∧ v.getLsbD 1 = false ∧ v.getLsbD 0 = true ∧ s.state ≠ .busy

/-- The event is a CTRL write with ABORT (45_host_commands.md R245). -/
def IsAbort (e : Event) : Prop := ∃ v : Word, e = .csrWrite 0 v ∧ v.getLsbD 1 = true

/-! ### A chunk in one piece -/

/-- PREV and the cache, which a chunk reads and writes. -/
abbrev History := Pixel × Vector Pixel 64

/-- The history at the start of a pass (10_state.md R52). -/
def History.initial : History := (.opaqueBlack, Vector.replicate 64 .zero)

/-- A non-run chunk's pixel becomes PREV and goes to the slot of its hash (42_chunk_decode.md R141). -/
def onePixel (px : Pixel) (h : History) : List Pixel × History :=
  ([px], (px, h.2.set (hash px).val px (hash px).isLt))

/-- DecodeChunk (42_chunk_decode.md R150) but for the length check of RUN: the pixels a chunk puts out and the history
after it; an instruction that is no chunk, or has no encoding, has none. -/
def decodeChunkRef (i : Instr) (h : History) : Option (List Pixel × History) :=
  match i with
  | .rgb r g b => some (onePixel ⟨r, g, b, h.1.a⟩ h)
  | .rgba r g b a => some (onePixel ⟨r, g, b, a⟩ h)
  | .index k => if hk : k < 64 then some (onePixel (h.2.get ⟨k, hk⟩) h) else none
  | .diff dr dg db => some (onePixel ⟨add8 h.1.r dr, add8 h.1.g dg, add8 h.1.b db, h.1.a⟩ h)
  | .luma dg drg dbg =>
    some (onePixel ⟨add8 h.1.r (drg + dg), add8 h.1.g dg, add8 h.1.b (dbg + dg), h.1.a⟩ h)
  | .run n => some (List.replicate n h.1, h)
  | .header _ _ _ _ _ => none
  | .endMarker => none
  | .startDecode _ _ _ => none
  | .startEncode _ _ _ => none
  | .abort => none

/-- The pixels of a chunk sequence and the history after it (43_decode_engine.md R189). -/
def decodeChunksRef : List Instr → History → Option (List Pixel × History)
  | [], h => some ([], h)
  | i :: is, h =>
    match decodeChunkRef i h with
    | none => none
    | some (out, h') =>
      match decodeChunksRef is h' with
      | none => none
      | some (out', h'') => some (out ++ out', h'')

/-- A pixel's bytes on a stream of `ch` channels (30_encoding.md R90). -/
def pixelBytes (ch : Byte) (p : Pixel) : List Byte := if ch = 4 then [p.r, p.g, p.b, p.a] else [p.r, p.g, p.b]

/-- The chunks an encode pass emits for a list of pixels, and the state after them (44_encode_engine.md R202, R203). -/
def encodePixels : List Pixel → State → List Instr × State
  | [], s => ([], s)
  | p :: ps, s =>
    let (is, s') := encodePixel p { s with pixCount := s.pixCount + 1 }
    let (js, s'') := encodePixels ps s'
    (is ++ js, s'')

/-! ### Schedules -/

/-- The host presents these bytes one by one and the core takes a step after each. -/
def feedBytes (l : List Byte) : List Event := l.flatMap fun b => [.present (.byte b), .core]

/-- The host acknowledges `n` offered bytes and the core takes a step after each. -/
def ackBytes (n : Nat) : List Event := (List.replicate n [.answer .ack, .core]).flatten

/-- The tokens a schedule presents, in order. -/
def presented : List Event → List Token
  | [] => []
  | .present t :: es => t :: presented es
  | .core :: es => presented es
  | .answer _ :: es => presented es
  | .csrRead _ :: es => presented es
  | .csrWrite _ _ :: es => presented es
  | .reset :: es => presented es

/-- The moves of an undisturbed pass: the two channels and the core's turns. -/
def streamMove : Event → Bool
  | .present _ => true
  | .answer _ => true
  | .core => true
  | .csrRead _ => false
  | .csrWrite _ _ => false
  | .reset => false

/-- The machine run over a whole schedule. -/
def runSchedule (s : State) (es : List Event) : Result := core.run es.length { s with events := es }

/-! ### How much of a pass is left -/

/-- The pixels still to come. -/
def pixelsLeft (s : State) : Nat := s.target.toNat - s.pixCount.toNat

/-- An upper bound of the tokens a decode pass still consumes, once its header is accepted (43_decode_engine.md R192). -/
def decodeInputsLeft (s : State) : Nat :=
  match s.sub with
  | .dTag => 5 * pixelsLeft s + 8
  | .dPay k i => (k.len - i.val) + 5 * (pixelsLeft s - 1) + 8
  | .dOut _ n _ => 5 * (pixelsLeft s - n) + 8
  | .dMark i => 8 - i.val
  | .none => 0
  | .dHdr _ => 0
  | .eHdr _ => 0
  | .eIn _ => 0
  | .eOut _ _ => 0
  | .eMark _ => 0

/-- The header bytes a decode pass still consumes (43_decode_engine.md R192). -/
def headerTokensLeft (s : State) : Nat :=
  match s.sub with
  | .dHdr i => 14 - i.val
  | .none => 0
  | .dTag => 0
  | .dPay _ _ => 0
  | .dOut _ _ _ => 0
  | .dMark _ => 0
  | .eHdr _ => 0
  | .eIn _ => 0
  | .eOut _ _ => 0
  | .eMark _ => 0

/-- The bytes a decode pass still delivers, once its header is accepted (43_decode_engine.md R192). -/
def decodeOutputsLeft (s : State) : Nat :=
  match s.sub with
  | .dTag => pixelsLeft s * channelCount s
  | .dPay _ _ => pixelsLeft s * channelCount s
  | .dOut _ _ j => pixelsLeft s * channelCount s - j.val
  | .dMark _ => 0
  | .none => 0
  | .dHdr _ => 0
  | .eHdr _ => 0
  | .eIn _ => 0
  | .eOut _ _ => 0
  | .eMark _ => 0

/-- An upper bound of the steps an encode pass still takes (70_reset_and_hazards.md R305); a pending run owes its byte. -/
def encodeStepsLeft (s : State) : Nat :=
  match s.sub with
  | .eHdr j => (14 - j.val) + pixelsLeft s * channelCount s + 5 * pixelsLeft s + 8
  | .eIn i => (pixelsLeft s * channelCount s - i.val) + 5 * pixelsLeft s + (if s.run = 0 then 0 else 1) + 8
  | .eOut _ q => (q.length + 1) + pixelsLeft s * channelCount s + 5 * pixelsLeft s + 8
  | .eMark j => 8 - j.val
  | .none => 0
  | .dHdr _ => 0
  | .dTag => 0
  | .dPay _ _ => 0
  | .dOut _ _ _ => 0
  | .dMark _ => 0

/-! ### Registers that are still read -/

/-- The values that the rest of the pass still reads, by sub-state, among the registers the spec leaves unspecified
after reset (10_state.md R35, R52; 70_reset_and_hazards.md R291). -/
def LiveAgree (s t : State) : Prop :=
  match s.sub with
  | .none => True
  | .dHdr i => s.prev = t.prev ∧ s.cache = t.cache ∧ ∀ m : Fin 14, m < i → s.hdrBuf.get m = t.hdrBuf.get m
  | .dTag => s.prev = t.prev ∧ s.cache = t.cache ∧ s.target = t.target
  | .dPay _ i => s.prev = t.prev ∧ s.cache = t.cache ∧ s.target = t.target ∧ s.tag = t.tag
      ∧ ∀ m : Fin 4, m < i → s.pay.get m = t.pay.get m
  | .dOut _ _ _ => s.prev = t.prev ∧ s.cache = t.cache ∧ s.target = t.target
  | .dMark _ => True
  | .eHdr _ => s.prev = t.prev ∧ s.cache = t.cache ∧ s.target = t.target ∧ s.run = t.run
  | .eIn i => s.prev = t.prev ∧ s.cache = t.cache ∧ s.target = t.target ∧ s.run = t.run
      ∧ ∀ m : Fin 4, m < i → s.pin.get m = t.pin.get m
  | .eOut _ _ => s.prev = t.prev ∧ s.cache = t.cache ∧ s.target = t.target ∧ s.run = t.run
  | .eMark _ => True

/-- Two states a host cannot tell apart, now or later: they differ at most in PREV, the cache, TARGET, RUN and the
buffers, and only where the rest of the pass no longer reads them. -/
def Indistinct (s t : State) : Prop :=
  { s with prev := t.prev, cache := t.cache, target := t.target, run := t.run,
           hdrBuf := t.hdrBuf, tag := t.tag, pay := t.pay, pin := t.pin } = t
  ∧ LiveAgree s t

/-- Two results that agree: two indistinct next states, or the same stop. -/
def SameOutcome : Result → Result → Prop
  | .next s, .next t => Indistinct s t
  | .fault a, .fault b => a = b
  | .refused a, .refused b => a = b
  | .next _, .fault _ => False
  | .next _, .refused _ => False
  | .fault _, .next _ => False
  | .fault _, .refused _ => False
  | .refused _, .next _ => False
  | .refused _, .fault _ => False

end Sys2Proof.Safety
end

