-- ==== Sys2Proof/Certificates/Slice0/Obligations.lean ====
section
/-! DEFINITION. The statements for the provers. Each docstring names the rule of spec/ it formalises. -/

open Sys2Proof Sys2Proof.Machine Sys2Proof.Safety

/-! ### Encoding -/

/-- 30_encoding.md R80 to R93, 40_header.md R109: a well-formed stream element, encoded and followed by any bytes,
decodes at its position to itself and leaves those bytes. -/
def Obligations.StreamElementsRoundTrip : Prop :=
  ∀ (i : Instr) (rest : List Byte), i.wellFormed = true → i.position ≠ .ctrl →
    decodeStream i.position (streamBytes i ++ rest) = .ok (i, rest)

/-- 30_encoding.md R83, R92, R94: what the decoder reads at a stream position is a well-formed element of that position
whose bytes are exactly those consumed; so no two elements share their bytes. -/
def Obligations.DecodedElementsReencode : Prop :=
  ∀ (p : Position) (l rest : List Byte) (i : Instr), decodeStream p l = .ok (i, rest) →
    i.wellFormed = true ∧ i.position = p ∧ streamBytes i ++ rest = l

/-- 10_state.md R36, 45_host_commands.md R241: a command's CTRL word decodes to the command, and bits 31:7 of a CTRL
word change nothing. -/
def Obligations.CommandWordsRoundTrip : Prop :=
  (∀ i : Instr, i.position = .ctrl → ∃ w, encode i = .ctrlWord w ∧ decodeCtrl w = .ok i)
  ∧ ∀ v : Word, decodeCtrl v = decodeCtrl (v &&& 0x7F)

/-- 30_encoding.md R83, R92: every first byte selects exactly one kind, and it alone gives the chunk's length: whatever
the payload bytes are, exactly that many are taken. -/
def Obligations.FirstByteSelectsKindAndLength : Prop :=
  (∀ b : Byte,
    (b.toNat ≤ 0x3F → kind b = .index ∧ (kind b).payloadLen + 1 = 1)
    ∧ (0x40 ≤ b.toNat ∧ b.toNat ≤ 0x7F → kind b = .diff ∧ (kind b).payloadLen + 1 = 1)
    ∧ (0x80 ≤ b.toNat ∧ b.toNat ≤ 0xBF → kind b = .luma ∧ (kind b).payloadLen + 1 = 2)
    ∧ (0xC0 ≤ b.toNat ∧ b.toNat ≤ 0xFD → kind b = .run ∧ (kind b).payloadLen + 1 = 1)
    ∧ (b.toNat = 0xFE → kind b = .rgb ∧ (kind b).payloadLen + 1 = 4)
    ∧ (b.toNat = 0xFF → kind b = .rgba ∧ (kind b).payloadLen + 1 = 5))
  ∧ ∀ (b : Byte) (payload rest : List Byte), payload.length = (kind b).payloadLen →
      ∃ i, decodeChunk (b :: (payload ++ rest)) = .ok (i, rest)

/-- 30_encoding.md R93 (with the formats R84 to R89): how each field of a chunk becomes an operand, in arithmetic on
the byte's value; and the 14 bytes of HEADER, read and written: magic, width and height big-endian, then channels and
colorspace (30_encoding.md R81, 20_memory.md R69, 40_header.md R105, R108). -/
def Obligations.OperandAssembly : Prop :=
  (∀ (r g b : Byte) (rest : List Byte), decodeChunk (0xFE :: r :: g :: b :: rest) = .ok (.rgb r g b, rest))
  ∧ (∀ (r g b a : Byte) (rest : List Byte),
      decodeChunk (0xFF :: r :: g :: b :: a :: rest) = .ok (.rgba r g b a, rest))
  ∧ (∀ (b : Byte) (rest : List Byte), b.toNat < 0x40 → decodeChunk (b :: rest) = .ok (.index b.toNat, rest))
  ∧ (∀ (b : Byte) (rest : List Byte), 0x40 ≤ b.toNat → b.toNat < 0x80 →
      decodeChunk (b :: rest) = .ok (.diff ((b.toNat - 0x40 : Int) / 16 - 2) ((b.toNat : Int) / 4 % 4 - 2)
        ((b.toNat : Int) % 4 - 2), rest))
  ∧ (∀ (b c : Byte) (rest : List Byte), 0x80 ≤ b.toNat → b.toNat < 0xC0 →
      decodeChunk (b :: c :: rest) = .ok (.luma ((b.toNat : Int) - 0x80 - 32) ((c.toNat : Int) / 16 - 8)
        ((c.toNat : Int) % 16 - 8), rest))
  ∧ (∀ (b : Byte) (rest : List Byte), 0xC0 ≤ b.toNat → b.toNat ≤ 0xFD →
      decodeChunk (b :: rest) = .ok (.run (b.toNat - 0xC0 + 1), rest))
  ∧ ∀ (m0 m1 m2 m3 w0 w1 w2 w3 h0 h1 h2 h3 c cs : Byte) (rest : List Byte) (m w h : Word),
      m.toNat = m0.toNat * 2 ^ 24 + m1.toNat * 2 ^ 16 + m2.toNat * 2 ^ 8 + m3.toNat →
      w.toNat = w0.toNat * 2 ^ 24 + w1.toNat * 2 ^ 16 + w2.toNat * 2 ^ 8 + w3.toNat →
      h.toNat = h0.toNat * 2 ^ 24 + h1.toNat * 2 ^ 16 + h2.toNat * 2 ^ 8 + h3.toNat →
      decodeHeader ([m0, m1, m2, m3, w0, w1, w2, w3, h0, h1, h2, h3, c, cs] ++ rest) = .ok (.header m w h c cs, rest)
      ∧ headerBytes m w h c cs = [m0, m1, m2, m3, w0, w1, w2, w3, h0, h1, h2, h3, c, cs]
      ∧ streamBytes (.header m w h c cs) = [m0, m1, m2, m3, w0, w1, w2, w3, h0, h1, h2, h3, c, cs]

/-- A word of each row written out from 30_encoding.md R81, R84 to R89, R91 and 10_state.md R36. -/
def Obligations.WrittenWordsDecode : Prop :=
  decode .header (.bytes [0x71, 0x6F, 0x69, 0x66, 0x01, 0x02, 0x03, 0x04, 0x05, 0x06, 0x07, 0x08, 0x03, 0x00])
      = .ok (.header 0x716F6966 0x01020304 0x05060708 3 0)
  ∧ decode .body (.bytes [0b11111110#8, 0x0A, 0x14, 0x1E]) = .ok (.rgb 10 20 30)
  ∧ decode .body (.bytes [0b11111111#8, 0x01, 0x02, 0x03, 0x04]) = .ok (.rgba 1 2 3 4)
  ∧ decode .body (.bytes [0b00110010#8]) = .ok (.index 50)
  ∧ decode .body (.bytes [0b01110110#8]) = .ok (.diff 1 (-1) 0)
  ∧ decode .body (.bytes [0b10100001#8, 0b01011001#8]) = .ok (.luma 1 (-3) 1)
  ∧ decode .body (.bytes [0b11000001#8]) = .ok (.run 2)
  ∧ decode .trailer (.bytes [0, 0, 0, 0, 0, 0, 0, 0b00000001#8]) = .ok .endMarker
  ∧ decode .ctrl (.ctrlWord 0b0100001#32) = .ok (.startDecode false 2 false)
  ∧ decode .ctrl (.ctrlWord 0b0101101#32) = .ok (.startEncode true 2 false)
  ∧ decode .ctrl (.ctrlWord 0b0000011#32) = .ok .abort

/-- 30_encoding.md R98: `REPEAT n` is a sequence of runs, all encodable, only the last shorter than 62; they cover n
pixels and leave PREV and the cache as they were. -/
def Obligations.RepeatCoversCount : Prop :=
  ∀ n : Nat, 1 ≤ n → ∃ l, assembleRepeat n = some l
    ∧ (∀ i ∈ l, i.wellFormed = true ∧ ∃ k, i = .run k) ∧ (∀ i ∈ l.dropLast, i = .run 62)
    ∧ ∀ h : History, decodeChunksRef l h = some (List.replicate n h.1, h)

/-! ### Pixels and the cache -/

/-- 41_hash_cache.md R120: the hash is the exact sum modulo 64, and the same when every product and partial sum is kept
modulo 64. -/
def Obligations.HashIsSumModulo64 : Prop :=
  ∀ p : Pixel,
    (hash p).val = (p.r.toNat * 3 + p.g.toNat * 5 + p.b.toNat * 7 + p.a.toNat * 11) % 64
    ∧ (hash p).val = (p.r.setWidth 6 * 3 + p.g.setWidth 6 * 5 + p.b.setWidth 6 * 7 + p.a.setWidth 6 * 11).toNat

/-- 00_scope.md R8: channel arithmetic wraps modulo 256, and the signed difference is the one value of -128 .. 127 that
leads back. -/
def Obligations.ChannelArithmeticWraps : Prop :=
  (∀ (x : Byte) (d : Int), ((add8 x d).toNat : Int) = ((x.toNat : Int) + d) % 256)
  ∧ ∀ (x y : Byte) (d : Int), sub8s x y = d ↔ (-128 ≤ d ∧ d ≤ 127 ∧ ((y.toNat : Int) + d) % 256 = x.toNat)

/-! ### Chunks -/

/-- 42_chunk_decode.md R142: `FE r g b` takes red, green, blue from the payload and alpha from PREV; EOI in the place of
a payload byte raises IoError(SHORT_READ). -/
def Obligations.RgbChunkEffect : Prop :=
  (∀ (s : State) (r g b : Byte) (rest : List Byte), decodeChunk (0xFE :: r :: g :: b :: rest) = .ok (.rgb r g b, rest)
    ∧ ∃ t, exec (.rgb r g b) s = .next t ∧ PixelCompleted s t ⟨r, g, b, s.prev.a⟩)
  ∧ ∀ (s : State) (i : Fin 4), s.state = .busy → s.sub = .dPay .rgb i → s.inTok = some .eoi →
      coreStep s = .next (inError .ioError .shortRead (tokenTaken s))

/-- 42_chunk_decode.md R143: `FF r g b a` takes all four channels from the payload, whatever FORMAT.CHANNELS is; EOI in
the place of a payload byte raises IoError(SHORT_READ). -/
def Obligations.RgbaChunkEffect : Prop :=
  (∀ (s : State) (r g b a : Byte) (rest : List Byte),
    decodeChunk (0xFF :: r :: g :: b :: a :: rest) = .ok (.rgba r g b a, rest)
    ∧ ∃ t, exec (.rgba r g b a) s = .next t ∧ PixelCompleted s t ⟨r, g, b, a⟩)
  ∧ ∀ (s : State) (i : Fin 4), s.state = .busy → s.sub = .dPay .rgba i → s.inTok = some .eoi →
      coreStep s = .next (inError .ioError .shortRead (tokenTaken s))

/-- 42_chunk_decode.md R144: the byte `00kkkkkk` yields the pixel of slot k and writes it to the slot of its hash. -/
def Obligations.IndexChunkEffect : Prop :=
  ∀ (s : State) (k : Fin 64) (rest : List Byte),
    decodeChunk (BitVec.ofNat 8 k.val :: rest) = .ok (.index k.val, rest)
    ∧ ∃ t, exec (.index k.val) s = .next t ∧ PixelCompleted s t (s.cache.get k)

/-- 42_chunk_decode.md R145: the byte `01 fr fg fb` adds its deltas (field - 2) to PREV's channels modulo 256; alpha is
unchanged. -/
def Obligations.DiffChunkEffect : Prop :=
  ∀ (s : State) (fr fg fb : Fin 4) (rest : List Byte),
    decodeChunk (BitVec.ofNat 8 (64 + 16 * fr.val + 4 * fg.val + fb.val) :: rest)
      = .ok (.diff (fr.val - 2) (fg.val - 2) (fb.val - 2), rest)
    ∧ ∃ t px,
    exec (.diff (fr.val - 2) (fg.val - 2) (fb.val - 2)) s = .next t ∧ PixelCompleted s t px
    ∧ (px.r.toNat : Int) = (s.prev.r.toNat + (fr.val - 2)) % 256
    ∧ (px.g.toNat : Int) = (s.prev.g.toNat + (fg.val - 2)) % 256
    ∧ (px.b.toNat : Int) = (s.prev.b.toNat + (fb.val - 2)) % 256
    ∧ px.a = s.prev.a

/-- 42_chunk_decode.md R146: in the bytes `10 gf`, `rgf bgf` the green delta is gf - 32, red and blue follow it by
rgf - 8 and bgf - 8, all modulo 256; alpha is unchanged; EOI in the place of byte 1 raises IoError(SHORT_READ). -/
def Obligations.LumaChunkEffect : Prop :=
  (∀ (s : State) (gf : Fin 64) (rgf bgf : Fin 16) (rest : List Byte),
    decodeChunk (BitVec.ofNat 8 (128 + gf.val) :: BitVec.ofNat 8 (16 * rgf.val + bgf.val) :: rest)
      = .ok (.luma (gf.val - 32) (rgf.val - 8) (bgf.val - 8), rest)
    ∧ ∃ t px,
    exec (.luma (gf.val - 32) (rgf.val - 8) (bgf.val - 8)) s = .next t ∧ PixelCompleted s t px
    ∧ (px.r.toNat : Int) = (s.prev.r.toNat + (rgf.val - 8 + (gf.val - 32))) % 256
    ∧ (px.g.toNat : Int) = (s.prev.g.toNat + (gf.val - 32)) % 256
    ∧ (px.b.toNat : Int) = (s.prev.b.toNat + (bgf.val - 8 + (gf.val - 32))) % 256
    ∧ px.a = s.prev.a)
  ∧ ∀ (s : State) (i : Fin 4), s.state = .busy → s.sub = .dPay .luma i → s.inTok = some .eoi →
      coreStep s = .next (inError .ioError .shortRead (tokenTaken s))

/-- 42_chunk_decode.md R147: the byte `11 l` with l = n - 1 puts out PREV n times and writes neither PREV nor the cache;
a run longer than the pixels that remain raises FormatError(RUN_OVERRUN) and puts out none. -/
def Obligations.RunChunkEffect : Prop :=
  ∀ (s : State) (n : Nat) (rest : List Byte), 1 ≤ n → n ≤ 62 → s.pixCount.toNat ≤ s.target.toNat →
    decodeChunk (BitVec.ofNat 8 (192 + (n - 1)) :: rest) = .ok (.run n, rest)
    ∧ (s.pixCount.toNat + n ≤ s.target.toNat → exec (.run n) s = .next { s with sub := .dOut s.prev n 0 })
    ∧ (s.target.toNat < s.pixCount.toNat + n → exec (.run n) s = .next (inError .formatError .runOverrun s))

/-- 60_exceptions.md R264, R265, R278 and log entry 11: an INDEX slot or a RUN length that no byte encodes stops the
model; no decoded chunk is one of these. -/
def Obligations.UnencodableOperandsStop : Prop :=
  (∀ (s : State) (k : Nat), 64 ≤ k → exec (.index k) s = .fault .indexBounds)
  ∧ (∀ (s : State) (n : Nat), n = 0 ∨ 63 ≤ n → exec (.run n) s = .fault .reservedRun)
  ∧ ∀ (l rest : List Byte) (i : Instr) (s : State), decodeChunk l = .ok (i, rest) → ∃ t, exec i s = .next t

/-! ### The header -/

/-- 40_header.md R100, R104, R106: a header with the right magic, channels 3 or 4 and colorspace 0 or 1 is latched
whole, TARGET being the exact product, and the pass goes to the body, or with no pixels to the trailer. Width and
height take every value. -/
def Obligations.HeaderAccepted : Prop :=
  ∀ (s : State) (w h : Word) (c cs : Byte), (c = 3 ∨ c = 4) → (cs = 0 ∨ cs = 1) →
    ∃ t u, exec (.header s.magic w h c cs) s = .next t
      ∧ u = { s with width := w, height := h, channels := c, colorspace := cs, target := u.target, phase := .body }
      ∧ u.target.toNat = w.toNat * h.toNat ∧ NextChunk u t

/-- 40_header.md R102, R103: the checks come in the order magic, channels, colorspace; the first that fails is the one
reported, and WIDTH, HEIGHT, FORMAT and TARGET keep their values. -/
def Obligations.HeaderRejected : Prop :=
  ∀ (s : State) (m w h : Word) (c cs : Byte),
    (m ≠ s.magic → exec (.header m w h c cs) s = .next (inError .formatError .badMagic s))
    ∧ (m = s.magic → ¬(c = 3 ∨ c = 4) → exec (.header m w h c cs) s = .next (inError .formatError .badChannels s))
    ∧ (m = s.magic → (c = 3 ∨ c = 4) → ¬(cs = 0 ∨ cs = 1) →
        exec (.header m w h c cs) s = .next (inError .formatError .badColorspace s))

/-- 43_decode_engine.md R172, 40_header.md R101: a header byte is stored and counted, nothing is checked before the
14th, EOI raises IoError(SHORT_READ), and the 14th byte runs the HEADER that the 14 bytes are. -/
def Obligations.HeaderByteStep : Prop :=
  ∀ (s : State) (i : Fin 14), s.state = .busy → s.sub = .dHdr i →
    (s.inTok = some .eoi → coreStep s = .next (inError .ioError .shortRead (tokenTaken s)))
    ∧ ∀ b, s.inTok = some (.byte b) →
      (∀ h : i.val + 1 < 14, coreStep s = .next
        { byteTaken s with hdrBuf := s.hdrBuf.set i.val b, sub := .dHdr ⟨i.val + 1, h⟩ })
      ∧ (i.val = 13 → ∃ instr, decodeHeader (s.hdrBuf.set i.val b).toList = .ok (instr, [])
          ∧ coreStep s = exec instr { byteTaken s with hdrBuf := s.hdrBuf.set i.val b })

/-- 40_header.md R109: the 14 bytes an encode pass emits are accepted, and parse back to the same width, height, channels
and colorspace, when these are legal: nothing but these, TARGET and the way on to the body or the trailer changes, so no
error is reported; a colorspace outside 0 and 1 is rejected. -/
def Obligations.HeaderSerializeParse : Prop :=
  ∀ (s : State) (w h : Word) (c cs : Byte), (c = 3 ∨ c = 4) →
    ∃ instr, decodeHeader (headerBytes s.magic w h c cs) = .ok (instr, [])
      ∧ ((cs = 0 ∨ cs = 1) → ∃ t u, exec instr s = .next t
          ∧ u = { s with width := w, height := h, channels := c, colorspace := cs, target := u.target, phase := .body }
          ∧ NextChunk u t ∧ t.width = w ∧ t.height = h ∧ t.channels = c ∧ t.colorspace = cs
          ∧ t.errKind = s.errKind ∧ t.errCause = s.errCause)
      ∧ (¬(cs = 0 ∨ cs = 1) → exec instr s = .next (inError .formatError .badColorspace s))

/-! ### The decode engine -/

/-- 43_decode_engine.md R173, R174: a tag byte with a payload waits for it, and payload bytes are stored and counted
without being looked at. -/
def Obligations.PayloadByteStep : Prop :=
  (∀ (s : State) (b : Byte), s.state = .busy → s.sub = .dTag → s.inTok = some (.byte b) →
    (b = 0xFE → coreStep s = .next { byteTaken s with tag := b, sub := .dPay .rgb 0 })
    ∧ (b = 0xFF → coreStep s = .next { byteTaken s with tag := b, sub := .dPay .rgba 0 })
    ∧ (0x80 ≤ b.toNat ∧ b.toNat < 0xC0 → coreStep s = .next { byteTaken s with tag := b, sub := .dPay .luma 0 }))
  ∧ ∀ (s : State) (k : PayKind) (i j : Fin 4) (b : Byte), s.state = .busy → s.sub = .dPay k i →
      s.inTok = some (.byte b) → j.val = i.val + 1 → j.val < k.len →
      coreStep s = .next { byteTaken s with pay := s.pay.set i.val b, sub := .dPay k j }

/-- 43_decode_engine.md R175, R178: an acknowledged byte of D_OUT(px, n, j) is counted; after the last of
the CH bytes the pixel is counted and the next pixel of the chunk, or what follows the chunk, comes; with CH = 3 no
alpha byte is offered. -/
def Obligations.PixelByteDelivered : Prop :=
  ∀ (s : State) (px : Pixel) (n : Nat) (j : Fin 4), s.state = .busy → s.sub = .dOut px n j →
    (s.channels = 3 ∨ s.channels = 4) → j.val < s.channels.toNat → 1 ≤ n →
    offer s = some (channelByte px j.val)
    ∧ (s.outAns = some .fail → coreStep s = .next (inError .ioError .writeFail { s with outAns := none }))
    ∧ (s.outAns = some .ack → ∃ t, coreStep s = .next t ∧
        (∀ h : j.val + 1 < 4, j.val + 1 < s.channels.toNat →
          t = { byteCounted s with sub := .dOut px n ⟨j.val + 1, h⟩ })
        ∧ (j.val + 1 = s.channels.toNat → 2 ≤ n →
          t = { byteCounted s with
                pixCount := s.pixCount + 1, sub := .dOut px (n - 1) 0 })
        ∧ (j.val + 1 = s.channels.toNat → n = 1 →
          NextChunk { byteCounted s with pixCount := s.pixCount + 1 } t))

/-- 43_decode_engine.md R176, 42_chunk_decode.md R148: the marker is read byte by byte; EOI as the first token ends a
pass in OPTIONAL mode without a marker and is IoError(SHORT_READ) otherwise; the first byte that differs is
FormatError(BAD_END_MARKER); the eighth matching byte sets MARKER_SEEN and finishes DONE. -/
def Obligations.MarkerByteStep : Prop :=
  ∀ (s : State) (i : Fin 8), s.state = .busy → s.sub = .dMark i →
    (s.inTok = some .eoi → i.val = 0 → s.decMarker = .optional →
      coreStep s = .next { tokenTaken s with state := .done, sub := .none })
    ∧ (s.inTok = some .eoi → ¬(i.val = 0 ∧ s.decMarker = .optional) →
      coreStep s = .next (inError .ioError .shortRead (tokenTaken s)))
    ∧ ∀ b, s.inTok = some (.byte b) →
      (b ≠ (if i.val = 7 then 0x01 else 0x00) →
        coreStep s = .next (inError .formatError .badEndMarker (byteTaken s)))
      ∧ (b = 0x00 → ∀ h : i.val + 1 < 8, coreStep s = .next { byteTaken s with sub := .dMark ⟨i.val + 1, h⟩ })
      ∧ (b = 0x01 → i.val = 7 →
        coreStep s = .next { byteTaken s with markerSeen := true, state := .done, sub := .none })

/-- 42_chunk_decode.md R148, last line of its pseudocode: END sets MARKER_SEEN and the pass is DONE; nothing else
changes, PHASE included. -/
def Obligations.EndMarkerEffect : Prop :=
  ∀ s : State, exec .endMarker s = .next { s with markerSeen := true, state := .done, sub := .none }

/-- 43_decode_engine.md R183, 44_encode_engine.md R202: EOI where a byte is needed raises IoError(SHORT_READ), writes
neither PREV nor the cache, and puts nothing out. -/
def Obligations.EndOfInputIsShortRead : Prop :=
  ∀ s : State, s.state = .busy → s.inTok = some .eoi →
    (s.sub = .dTag ∨ (∃ i, s.sub = .dHdr i) ∨ (∃ k i, s.sub = .dPay k i) ∨ (∃ i, s.sub = .eIn i)) →
    coreStep s = .next (inError .ioError .shortRead (tokenTaken s))

/-- 43_decode_engine.md R191, R170, 10_state.md R42: without a token in an input sub-state, without an answer in an
output sub-state, and outside BUSY, the core's turn changes no state, be it listed in the events or not. That such a turn
answers the same state as its next state is the model's own (log entry 2). -/
def Obligations.HoldingChangesNothing : Prop :=
  ∀ s : State,
    (s.state ≠ .busy ∨ (offer s = none ∧ s.inTok = none) ∨ ((offer s).isSome = true ∧ s.outAns = none)) →
    coreStep s = .next s ∧ (s.events = [] → step s = .next s)
    ∧ ∀ rest, s.events = .core :: rest → step s = .next { s with events := rest }

/-- The core's step that takes the last byte of an element, with no events left (log entry 1) or at its turn in them, and
the CTRL write of a command, run exactly the instruction the decoder reads, in the state with the byte taken
(43_decode_engine.md R172 to R176, 45_host_commands.md R241). -/
def Obligations.StepRunsDecodedElement : Prop :=
  ∀ (s : State) (i : Instr) (rest : List Event),
    (∀ b, (s.events = [] ∧ rest = []) ∨ s.events = .core :: rest → s.state = .busy → s.inTok = some (.byte b) →
      (s.sub = .dHdr 13 → decodeHeader (s.hdrBuf.set 13 b).toList = .ok (i, []) →
        step s = exec i { byteTaken s with events := rest, hdrBuf := s.hdrBuf.set 13 b })
      ∧ (s.sub = .dTag → decodeChunk [b] = .ok (i, []) →
        step s = exec i { byteTaken s with events := rest, tag := b })
      ∧ (∀ k j, s.sub = .dPay k j → j.val + 1 = k.len → kind s.tag = k.kind →
        decodeChunk (s.tag :: (s.pay.set j.val b).toList.take k.len) = .ok (i, []) →
        step s = exec i { byteTaken s with events := rest, pay := s.pay.set j.val b })
      ∧ (s.sub = .dMark 7 → decodeMarker [0, 0, 0, 0, 0, 0, 0, b] = .ok (i, []) →
        step s = exec i { byteTaken s with events := rest }))
    ∧ ∀ v, s.events = .csrWrite 0 v :: rest → decodeCtrl v = .ok i → step s = exec i { s with events := rest }

/-- 42_chunk_decode.md R150, 43_decode_engine.md R189: in every state of the invariant, presented byte by byte and with
every offered byte acknowledged, a chunk does in the machine what DecodeChunk says in one piece: its pixels are
delivered, PREV, the cache and the counters are as the table says, and what follows the chunk comes next. -/
def Obligations.ChunkRunsAsDecodeChunk : Prop :=
  ∀ (s : State) (i : Instr) (out : List Pixel) (h : History), Invariant s → s.state = .busy → s.sub = .dTag →
    s.inTok = none → s.outAns = none → (s.channels = 3 ∨ s.channels = 4) → i.wellFormed = true →
    decodeChunkRef i (s.prev, s.cache) = some (out, h) → s.pixCount.toNat + out.length ≤ s.target.toNat →
    ∃ t u, runSchedule s (feedBytes (streamBytes i) ++ ackBytes (out.length * s.channels.toNat)) = .next t
      ∧ u = { s with
              prev := h.1, cache := h.2, tag := u.tag, pay := u.pay, events := []
              pixCount := s.pixCount + BitVec.ofNat 64 out.length
              inCount := s.inCount + BitVec.ofNat 64 (streamBytes i).length
              outCount := s.outCount + BitVec.ofNat 64 (out.length * s.channels.toNat)
              outStream := s.outStream ++ out.flatMap (pixelBytes s.channels)
              sub := u.sub }
      ∧ NextChunk u t

/-- 43_decode_engine.md R192: a decode pass consumes 14 header bytes, and once its header is accepted at most five bytes
for each pixel that is missing and eight for the marker, and delivers CH bytes for each such pixel: every enabled step
that does not end the pass uses up one of these. The budget is 14 at the start, and at most 5 * TARGET + 8 with
TARGET * CH when the header is accepted. -/
def Obligations.DecodePassBudget : Prop :=
  (∀ s : State, s.sub = .dHdr 0 → headerTokensLeft s = 14)
  ∧ (∀ (s t : State) (i : Fin 14), Invariant s → s.state = .busy → s.sub = .dHdr i → coreStep s = .next t →
    t.state = .busy → s.inTok ≠ none →
    headerTokensLeft t + 1 = headerTokensLeft s
    ∧ (headerTokensLeft t = 0 → decodeInputsLeft t ≤ 5 * t.target.toNat + 8
        ∧ decodeOutputsLeft t = t.target.toNat * t.channels.toNat))
  ∧ ∀ s t : State, Invariant s → s.state = .busy → s.passMode = .decode → (∀ i, s.sub ≠ .dHdr i) →
    coreStep s = .next t → t.state = .busy →
    (offer s = none → s.inTok ≠ none →
      decodeInputsLeft t + 1 ≤ decodeInputsLeft s ∧ decodeOutputsLeft t = decodeOutputsLeft s)
    ∧ ((offer s).isSome = true → s.outAns ≠ none →
      decodeInputsLeft t = decodeInputsLeft s ∧ decodeOutputsLeft t + 1 = decodeOutputsLeft s)

/-! ### The encode engine -/

/-- 44_encode_engine.md R201, R228: the header bytes and the marker bytes are offered one by one, in order; an
acknowledged one is counted and the next follows; after the last, `next_pixel()` or the end of the pass. -/
def Obligations.EncoderFixedBytesDelivered : Prop :=
  ∀ s : State, s.state = .busy →
    (∀ j : Fin 14, s.sub = .eHdr j → ∃ b,
      (headerBytes s.magic s.width s.height s.channels s.colorspace)[j.val]? = some b ∧ offer s = some b
      ∧ (s.outAns = some .fail → coreStep s = .next (inError .ioError .writeFail { s with outAns := none }))
      ∧ (s.outAns = some .ack → ∃ t, coreStep s = .next t
        ∧ (∀ h : j.val + 1 < 14, t = { byteCounted s with sub := .eHdr ⟨j.val + 1, h⟩ })
        ∧ (j.val = 13 → NextPixel { byteCounted s with phase := .body } t)))
    ∧ ∀ j : Fin 8, s.sub = .eMark j → ∃ b, markerBytes[j.val]? = some b ∧ offer s = some b
      ∧ (s.outAns = some .fail → coreStep s = .next (inError .ioError .writeFail { s with outAns := none }))
      ∧ (s.outAns = some .ack → ∃ t, coreStep s = .next t
        ∧ (∀ h : j.val + 1 < 8, t = { byteCounted s with sub := .eMark ⟨j.val + 1, h⟩ })
        ∧ (j.val = 7 → t = { byteCounted s with state := .done, sub := .none }))

/-- 44_encode_engine.md R217: the bytes of the current pixel's chunks are offered one by one; after the last,
`next_pixel()`. -/
def Obligations.EncoderChunkBytesDelivered : Prop :=
  ∀ (s : State) (b : Byte) (q : List Byte), s.state = .busy → s.sub = .eOut b q →
    offer s = some b
    ∧ (s.outAns = some .fail → coreStep s = .next (inError .ioError .writeFail { s with outAns := none }))
    ∧ (s.outAns = some .ack → ∃ t, coreStep s = .next t
      ∧ (∀ c q', q = c :: q' → t = { byteCounted s with sub := .eOut c q' })
      ∧ (q = [] → NextPixel (byteCounted s) t))

/-- 44_encode_engine.md R202: EOI raises IoError(SHORT_READ); an input byte is stored and counted; the CH-th makes the pixel, with alpha 255 when CH is
3, counts it and emits the bytes that `encode_pixel` gives for it, or goes on when there are none. -/
def Obligations.EncoderInputStep : Prop :=
  ∀ (s : State) (i : Fin 4), s.state = .busy → s.sub = .eIn i →
    (s.channels = 3 ∨ s.channels = 4) → i.val < s.channels.toNat →
    (s.inTok = some .eoi → coreStep s = .next (inError .ioError .shortRead (tokenTaken s)))
    ∧ ∀ b, s.inTok = some (.byte b) →
    (∀ h : i.val + 1 < 4, i.val + 1 < s.channels.toNat →
      coreStep s = .next { byteTaken s with pin := s.pin.set i.val b, sub := .eIn ⟨i.val + 1, h⟩ })
    ∧ (i.val + 1 = s.channels.toNat → ∀ (p : Pixel) (chunks : List Instr) (u : State),
      p = ⟨(s.pin.set i.val b).get 0, (s.pin.set i.val b).get 1, (s.pin.set i.val b).get 2,
            if s.channels = 4 then (s.pin.set i.val b).get 3 else 255⟩ →
      encodePixel p { byteTaken s with pin := s.pin.set i.val b, pixCount := s.pixCount + 1 } = (chunks, u) →
      ∃ t, coreStep s = .next t
      ∧ (chunks.flatMap streamBytes = [] → NextPixel u t)
      ∧ ∀ c q, chunks.flatMap streamBytes = c :: q → t = { u with sub := .eOut c q })

/-- 44_encode_engine.md R203 to R210, R219: `encode_pixel`. A pixel equal to PREV lengthens the run, which is flushed at
62 or at the last pixel; another pixel flushes a pending run and gets exactly one chunk, the first that applies of
INDEX, DIFF, LUMA, RGB, RGBA, then becomes PREV and goes to its slot. The deltas are the signed wrapped differences. -/
def Obligations.EncodePixelRule : Prop :=
  ∀ (s : State) (p : Pixel), s.run.toNat ≤ 61 →
    (p = s.prev →
      (s.run.toNat + 1 = 62 ∨ s.pixCount = s.target →
        encodePixel p s = ([.run (s.run.toNat + 1)], { s with run := 0 }))
      ∧ (¬(s.run.toNat + 1 = 62 ∨ s.pixCount = s.target) →
        ∃ r : BitVec 6, r.toNat = s.run.toNat + 1 ∧ encodePixel p s = ([], { s with run := r })))
    ∧ (p ≠ s.prev → ∃ (c : Instr) (t : State),
      encodePixel p s = ((if s.run = 0 then [] else [.run s.run.toNat]) ++ [c], t)
      ∧ t = { s with run := 0, prev := p, cache := t.cache }
      ∧ (∀ k : Fin 64, t.cache.get k = if k = hash p then p else s.cache.get k)
      ∧ ∀ dr dg db : Int,
        -128 ≤ dr → dr ≤ 127 → ((s.prev.r.toNat : Int) + dr) % 256 = p.r.toNat →
        -128 ≤ dg → dg ≤ 127 → ((s.prev.g.toNat : Int) + dg) % 256 = p.g.toNat →
        -128 ≤ db → db ≤ 127 → ((s.prev.b.toNat : Int) + db) % 256 = p.b.toNat →
        c = if s.cache.get (hash p) = p then .index (hash p).val
          else if p.a = s.prev.a ∧ (-2 ≤ dr ∧ dr ≤ 1) ∧ (-2 ≤ dg ∧ dg ≤ 1) ∧ (-2 ≤ db ∧ db ≤ 1) then .diff dr dg db
          else if p.a = s.prev.a ∧ (-32 ≤ dg ∧ dg ≤ 31) ∧ (-8 ≤ dr - dg ∧ dr - dg ≤ 7)
            ∧ (-8 ≤ db - dg ∧ db - dg ≤ 7) then .luma dg (dr - dg) (db - dg)
          else if p.a = s.prev.a then .rgb p.r p.g p.b
          else .rgba p.r p.g p.b p.a)

/-- 44_encode_engine.md R211 to R216: the bytes of each chunk kind, in the rules' own shifts and ors. -/
def Obligations.ChunkByteFormats : Prop :=
  (∀ n : Nat, 1 ≤ n → n ≤ 62 → streamBytes (.run n) = [0xC0 ||| BitVec.ofNat 8 (n - 1)])
  ∧ (∀ k : Fin 64, streamBytes (.index k.val) = [BitVec.ofNat 8 k.val])
  ∧ (∀ fr fg fb : Fin 4, streamBytes (.diff (fr.val - 2) (fg.val - 2) (fb.val - 2))
      = [0x40 ||| BitVec.ofNat 8 fr.val <<< 4 ||| BitVec.ofNat 8 fg.val <<< 2 ||| BitVec.ofNat 8 fb.val])
  ∧ (∀ (gf : Fin 64) (rgf bgf : Fin 16), streamBytes (.luma (gf.val - 32) (rgf.val - 8) (bgf.val - 8))
      = [0x80 ||| BitVec.ofNat 8 gf.val, BitVec.ofNat 8 rgf.val <<< 4 ||| BitVec.ofNat 8 bgf.val])
  ∧ (∀ r g b : Byte, streamBytes (.rgb r g b) = [0xFE, r, g, b])
  ∧ ∀ r g b a : Byte, streamBytes (.rgba r g b a) = [0xFF, r, g, b, a]

/-- 44_encode_engine.md R211, R226: with a pending run of at most 61, every chunk a pixel emits has an encoding, the
bytes are at most six, and the run left pending is at most 61. -/
def Obligations.EmittedChunksEncodable : Prop :=
  ∀ (s : State) (p : Pixel), s.run.toNat ≤ 61 →
    (∀ i ∈ (encodePixel p s).1, i.wellFormed = true ∧ i.position = .body)
    ∧ (chunkBytes (encodePixel p s).1).length ≤ 6 ∧ (encodePixel p s).2.run.toNat ≤ 61

/-- 44_encode_engine.md R209: a 3-channel encode pass never emits an RGBA chunk: not for the pixel and the state in which
the step that takes the pixel's last byte chooses its chunks (R202), nor for any other contents of PIN and PIXCOUNT. -/
def Obligations.ThreeChannelNeverRgba : Prop :=
  ∀ (s : State) (i : Fin 4) (r g b a : Byte), Invariant s → s.state = .busy → s.sub = .eIn i → s.channels = 3 →
    (∀ c, s.inTok = some (.byte c) → i.val + 1 = s.channels.toNat →
      ∃ p chunks u, encodePixel p { byteTaken s with pin := s.pin.set i.val c, pixCount := s.pixCount + 1 } = (chunks, u)
        ∧ p = inputPixel s.channels (s.pin.set i.val c) ∧ coreStep s = .next (emit (chunkBytes chunks) u)
        ∧ Instr.rgba r g b a ∉ chunks)
    ∧ ∀ (pin : Vector Byte 4) (count : Count),
        Instr.rgba r g b a ∉ (encodePixel (inputPixel s.channels pin) { s with pin := pin, pixCount := count }).1

/-- 41_hash_cache.md R129: decoding the chunks one pixel emits, from the encoder's PREV and cache, gives the pending run
and the pixel, and ends in the encoder's PREV and cache. -/
def Obligations.EncoderDecoderLockStep : Prop :=
  ∀ (s : State) (p : Pixel), s.run.toNat ≤ 61 →
    ∃ out, decodeChunksRef (encodePixel p s).1 (s.prev, s.cache)
        = some (out, ((encodePixel p s).2.prev, (encodePixel p s).2.cache))
      ∧ List.replicate s.run.toNat s.prev ++ [p]
        = out ++ List.replicate (encodePixel p s).2.run.toNat (encodePixel p s).2.prev

/-- 44_encode_engine.md R230, at the level of pixels: the chunks an encode pass emits for all its pixels decode, from the
history at the start of a pass, to exactly these pixels. -/
def Obligations.PixelListRoundTrip : Prop :=
  ∀ (s : State) (ps : List Pixel), s.prev = .opaqueBlack → s.cache = Vector.replicate 64 .zero → s.run = 0 →
    s.pixCount = 0 → s.target.toNat = ps.length →
    ∃ h, decodeChunksRef (encodePixels ps s).1 History.initial = some (ps, h)

/-- 44_encode_engine.md R230: an encode pass over pixel bytes, then a decode pass over the bytes it delivered, gives the
same header and the same pixel bytes, for 3 and 4 channels; with the marker for every marker mode, without it for NONE
and OPTIONAL. Each pass runs under some schedule of presented bytes and acknowledged bytes; the decode pass is
presented no more than the encoder's bytes and EOI. -/
def Obligations.ImageRoundTrip : Prop :=
  ∀ (s : State) (w h : Word) (ch cs : Byte) (em : Bool) (dm : BitVec 2) (px : List Byte),
    s.state ≠ .busy → s.inTok = none → s.outAns = none → (ch = 3 ∨ ch = 4) → (cs = 0 ∨ cs = 1) →
    px.length = w.toNat * h.toNat * ch.toNat → dm ≠ 3 → (em = false → dm = 0 ∨ dm = 2) →
    ∃ es t es' t',
      (∀ e ∈ es, streamMove e = true) ∧ (∀ e ∈ es', streamMove e = true)
      ∧ runSchedule { s with width := w, height := h, channels := ch, colorspace := cs }
          (.csrWrite 0 (ctrlFields true false true em 0 false) :: es) = .next t
      ∧ presented es = px.map .byte ∧ t.state = .done
      ∧ runSchedule t (.csrWrite 0 (ctrlFields true false false em dm false) :: es') = .next t'
      ∧ presented es' <+: t.outStream.map .byte ++ [.eoi] ∧ t'.state = .done
      ∧ t'.outStream = px ∧ t'.width = w ∧ t'.height = h ∧ t'.channels = ch ∧ t'.colorspace = cs

/-- 70_reset_and_hazards.md R305: an encode pass ends after at most 14 + TARGET * CH + 5 * TARGET + 8 steps: every
enabled step that does not end the pass uses up one of the steps left. -/
def Obligations.EncodePassBudget : Prop :=
  (∀ s t : State, Invariant s → s.state = .busy → s.passMode = .encode → coreStep s = .next t → t.state = .busy →
    (offer s = none ∧ s.inTok ≠ none ∨ (offer s).isSome = true ∧ s.outAns ≠ none) →
    encodeStepsLeft t + 1 ≤ encodeStepsLeft s)
  ∧ ∀ s : State, s.sub = .eHdr 0 → s.pixCount = 0 →
      encodeStepsLeft s = 14 + s.target.toNat * s.channels.toNat + 5 * s.target.toNat + 8

/-! ### Host commands and CSRs -/

/-- 43_decode_engine.md R171, 45_host_commands.md R241, R243: outside BUSY, START with MODE 0 stores the fields of the
write and starts a decode pass from PREV opaque black, a cleared cache and zero counters; WIDTH, HEIGHT, FORMAT and
TARGET keep their values. A token left over from an earlier pass is gone (43_decode_engine.md R187) and any other stays
presented (10_state.md R22): that START is where the first goes, and which token is which, is the model's reading (log
entry 3). The empty OUT stream of the new pass is the model's own (log entry 14). -/
def Obligations.StartDecodeEffect : Prop :=
  ∀ (s : State) (em : Bool) (dm : BitVec 2) (iq : Bool), s.state ≠ .busy →
    ∃ t, exec (.startDecode em dm iq) s = .next t
      ∧ t = { s with
              mode := .decode, encMarker := em, decMarker := t.decMarker, irqEn := iq,
              state := .busy, phase := .header, errKind := .none, errCause := .none, markerSeen := false,
              passMode := .decode, pixCount := 0, inCount := 0, outCount := 0,
              prev := ⟨0, 0, 0, 255⟩, cache := t.cache, sub := .dHdr 0,
              inTok := (if s.inPass then none else s.inTok), inPass := true, outStream := [] }
      ∧ (∀ k : Fin 64, t.cache.get k = ⟨0, 0, 0, 0⟩)
      ∧ (dm = 0 → t.decMarker = .none) ∧ (dm = 1 → t.decMarker = .required) ∧ (dm = 2 → t.decMarker = .optional)
      ∧ (dm = 3 → t.decMarker = s.decMarker)

/-- 44_encode_engine.md R200, 45_host_commands.md R241, R244: outside BUSY, START with MODE 1 stores the fields of the
write and, with CHANNELS 3 or 4, starts an encode pass with TARGET the exact product; with other CHANNELS the pass is
refused at once with FormatError(ENC_BAD_CHANNELS), the report and counters cleared and PREV, the cache, RUN and TARGET
kept. A START that becomes BUSY finds a token left over from an earlier pass gone (43_decode_engine.md R187) and any
other still presented (10_state.md R22), a refused one leaves IN as it is: this is the model's reading (log entry 3). The
empty OUT stream is the model's own (log entry 14). -/
def Obligations.StartEncodeEffect : Prop :=
  ∀ (s : State) (em : Bool) (dm : BitVec 2) (iq : Bool), s.state ≠ .busy →
    ∃ t, exec (.startEncode em dm iq) s = .next t
      ∧ (dm = 0 → t.decMarker = .none) ∧ (dm = 1 → t.decMarker = .required) ∧ (dm = 2 → t.decMarker = .optional)
      ∧ (dm = 3 → t.decMarker = s.decMarker)
      ∧ ((s.channels = 3 ∨ s.channels = 4) →
        t = { s with
              mode := .encode, encMarker := em, decMarker := t.decMarker, irqEn := iq,
              state := .busy, phase := .header, errKind := .none, errCause := .none, markerSeen := false,
              passMode := .encode, pixCount := 0, inCount := 0, outCount := 0,
              prev := ⟨0, 0, 0, 255⟩, cache := t.cache, run := 0, target := t.target, sub := .eHdr 0,
              inTok := (if s.inPass then none else s.inTok), inPass := true, outStream := [] }
        ∧ (∀ k : Fin 64, t.cache.get k = ⟨0, 0, 0, 0⟩) ∧ t.target.toNat = s.width.toNat * s.height.toNat)
      ∧ (¬(s.channels = 3 ∨ s.channels = 4) →
        t = { s with
              mode := .encode, encMarker := em, decMarker := t.decMarker, irqEn := iq,
              state := .error, phase := .header, errKind := .formatError, errCause := .encBadChannels,
              markerSeen := false, passMode := .encode, pixCount := 0, inCount := 0, outCount := 0,
              sub := .none, outStream := [] })

/-- 45_host_commands.md R245: ABORT, in any state, goes to IDLE and clears PHASE, SUB, the error report and MARKER_SEEN;
everything else keeps its value, a presented token included; the offer is withdrawn, and with it an answer not yet
consumed (log entry 4). -/
def Obligations.AbortEffect : Prop :=
  ∀ s : State, exec .abort s = .next
    { s with state := .idle, phase := .none, sub := .none, errKind := .none, errCause := .none, markerSeen := false,
             outAns := none }

/-- 45_host_commands.md R246: START while BUSY neither restarts nor disturbs the pass; of the same write only IRQ_EN is
stored (R241). -/
def Obligations.StartWhileBusyIgnored : Prop :=
  ∀ (s : State) (em : Bool) (dm : BitVec 2) (iq : Bool), s.state = .busy →
    exec (.startDecode em dm iq) s = .next { s with irqEn := iq }
    ∧ exec (.startEncode em dm iq) s = .next { s with irqEn := iq }

/-- 45_host_commands.md R241: what a CSR write does at every offset, by the bits of the word. -/
def Obligations.CsrWriteEffect : Prop :=
  ∀ (s : State) (v : Word),
    (v.getLsbD 1 = true → csrWrite 0 v s = exec .abort s)
    ∧ (v.getLsbD 1 = false → v.getLsbD 0 = true → v.getLsbD 2 = false →
        csrWrite 0 v s = exec (.startDecode (v.getLsbD 3) (v.extractLsb' 4 2) (v.getLsbD 6)) s)
    ∧ (v.getLsbD 1 = false → v.getLsbD 0 = true → v.getLsbD 2 = true →
        csrWrite 0 v s = exec (.startEncode (v.getLsbD 3) (v.extractLsb' 4 2) (v.getLsbD 6)) s)
    ∧ (v.getLsbD 1 = false → v.getLsbD 0 = false → s.state = .busy →
        csrWrite 0 v s = .next { s with irqEn := v.getLsbD 6 })
    ∧ (v.getLsbD 1 = false → v.getLsbD 0 = false → s.state ≠ .busy → ∃ t, csrWrite 0 v s = .next t
        ∧ t = { s with mode := (if v.getLsbD 2 then .encode else .decode), encMarker := v.getLsbD 3,
                       decMarker := t.decMarker, irqEn := v.getLsbD 6 }
        ∧ (v.extractLsb' 4 2 = 3#2 → t.decMarker = s.decMarker)
        ∧ (v.extractLsb' 4 2 ≠ 3#2 → BitVec.ofNat 2 t.decMarker.code = v.extractLsb' 4 2))
    ∧ (s.state ≠ .busy → csrWrite 2 v s = .next { s with width := v }
        ∧ csrWrite 3 v s = .next { s with height := v }
        ∧ csrWrite 4 v s = .next { s with channels := v.extractLsb' 0 8, colorspace := v.extractLsb' 8 8 })
    ∧ (s.state = .busy → csrWrite 2 v s = .next s ∧ csrWrite 3 v s = .next s ∧ csrWrite 4 v s = .next s)
    ∧ ∀ w : Fin 64, w ≠ 0 → w ≠ 2 → w ≠ 3 → w ≠ 4 → csrWrite w v s = .next s

/-- 45_host_commands.md R240, 10_state.md R36, R46 to R51: a CSR read returns the register at its offset, 0 at a reserved
one, and has no side effect. -/
def Obligations.CsrReadMap : Prop :=
  ∀ (s : State) (w : Fin 64) (rest : List Event), s.events = .csrRead w :: rest →
    ∃ v, step s = .next { s with events := rest, csrData := some v }
      ∧ (w = 0 → v = ctrlWord s) ∧ (w = 1 → v = statusWord s) ∧ (w = 2 → v = s.width) ∧ (w = 3 → v = s.height)
      ∧ (w = 4 → v.toNat = s.channels.toNat + 256 * s.colorspace.toNat)
      ∧ (w = 5 → v.toNat = s.pixCount.toNat % 2 ^ 32) ∧ (w = 6 → v.toNat = s.pixCount.toNat / 2 ^ 32)
      ∧ (w = 7 → v.toNat = s.inCount.toNat % 2 ^ 32) ∧ (w = 8 → v.toNat = s.inCount.toNat / 2 ^ 32)
      ∧ (w = 9 → v.toNat = s.outCount.toNat % 2 ^ 32) ∧ (w = 10 → v.toNat = s.outCount.toNat / 2 ^ 32)
      ∧ (w = 11 → v = s.magic) ∧ (11 < w.val → v = 0)

/-- 10_state.md R41, R24: the fields of STATUS stand at their bits, IRQ being IRQ_EN and (DONE or ERROR), and the
reserved bits read 0. The numbers of STATE, PHASE and ERR_KIND are those of R41, and each cause's number and kind those of
60_exceptions.md R260. -/
def Obligations.StatusWordLayout : Prop :=
  ∀ s : State,
    ((statusWord s).extractLsb' 0 2).toNat = s.state.code
    ∧ ((statusWord s).extractLsb' 2 2).toNat = s.phase.code
    ∧ ((statusWord s).extractLsb' 4 2).toNat = s.errKind.code
    ∧ (statusWord s).extractLsb' 6 2 = 0
    ∧ ((statusWord s).extractLsb' 8 4).toNat = s.errCause.code
    ∧ (statusWord s).getLsbD 12 = s.markerSeen
    ∧ ((statusWord s).getLsbD 13 = true ↔ s.irqEn = true ∧ (s.state = .done ∨ s.state = .error))
    ∧ (irq s = true ↔ s.irqEn = true ∧ (s.state = .done ∨ s.state = .error))
    ∧ ((statusWord s).getLsbD 14 = true ↔ s.passMode = .encode)
    ∧ (statusWord s).extractLsb' 15 17 = 0
    ∧ (PassState.idle.code = 0 ∧ PassState.busy.code = 1 ∧ PassState.done.code = 2 ∧ PassState.error.code = 3)
    ∧ (Phase.none.code = 0 ∧ Phase.header.code = 1 ∧ Phase.body.code = 2 ∧ Phase.trailer.code = 3)
    ∧ (ErrKind.none.code = 0 ∧ ErrKind.ioError.code = 1 ∧ ErrKind.formatError.code = 2 ∧ ErrKind.boundsError.code = 3)
    ∧ (ErrCause.none.code = 0 ∧ ErrCause.none.kind = .none)
    ∧ (ErrCause.shortRead.code = 1 ∧ ErrCause.shortRead.kind = .ioError)
    ∧ (ErrCause.writeFail.code = 2 ∧ ErrCause.writeFail.kind = .ioError)
    ∧ (ErrCause.badMagic.code = 3 ∧ ErrCause.badMagic.kind = .formatError)
    ∧ (ErrCause.badChannels.code = 4 ∧ ErrCause.badChannels.kind = .formatError)
    ∧ (ErrCause.badColorspace.code = 5 ∧ ErrCause.badColorspace.kind = .formatError)
    ∧ (ErrCause.reservedRun.code = 6 ∧ ErrCause.reservedRun.kind = .formatError)
    ∧ (ErrCause.runOverrun.code = 7 ∧ ErrCause.runOverrun.kind = .formatError)
    ∧ (ErrCause.badEndMarker.code = 8 ∧ ErrCause.badEndMarker.kind = .formatError)
    ∧ (ErrCause.encBadChannels.code = 9 ∧ ErrCause.encBadChannels.kind = .formatError)
    ∧ (ErrCause.indexBounds.code = 10 ∧ ErrCause.indexBounds.kind = .boundsError)

/-- 10_state.md R36, R39: CTRL reads its fields at their bits; START, ABORT and the reserved bits read 0, and DEC_MARKER
reads 0 for NONE, 1 for REQUIRED, 2 for OPTIONAL and never 3. -/
def Obligations.CtrlWordLayout : Prop :=
  ∀ s : State,
    (ctrlWord s).extractLsb' 0 2 = 0
    ∧ ((ctrlWord s).getLsbD 2 = true ↔ s.mode = .encode)
    ∧ (ctrlWord s).getLsbD 3 = s.encMarker
    ∧ ((ctrlWord s).extractLsb' 4 2).toNat = s.decMarker.code
    ∧ (DecMarker.none.code = 0 ∧ DecMarker.required.code = 1 ∧ DecMarker.optional.code = 2)
    ∧ (ctrlWord s).extractLsb' 4 2 ≠ 3
    ∧ (ctrlWord s).getLsbD 6 = s.irqEn
    ∧ (ctrlWord s).extractLsb' 7 25 = 0

/-! ### Whole-machine rules -/

/-- 45_host_commands.md R242, 43_decode_engine.md R190: while a pass stays BUSY no step and no host action changes
CTRL.MODE, ENC_MARKER or DEC_MARKER, and WIDTH, HEIGHT and FORMAT change only in the core's own step that takes the 14th
header byte: no host action changes them, at that point either. -/
def Obligations.ConfigurationFixedWhileBusy : Prop :=
  ∀ s t : State, s.state = .busy → step s = .next t → t.state = .busy →
    t.mode = s.mode ∧ t.encMarker = s.encMarker ∧ t.decMarker = s.decMarker
    ∧ (¬(s.sub = .dHdr 13 ∧ (∃ b, s.inTok = some (.byte b)) ∧ (s.events = [] ∨ ∃ rest, s.events = .core :: rest)) →
        t.width = s.width ∧ t.height = s.height ∧ t.channels = s.channels
        ∧ t.colorspace = s.colorspace)

/-- 10_state.md R22, R23, 20_memory.md R77, 70_reset_and_hazards.md R306, R307: the two channels. An offered byte stays
offered, unchanged, whatever the host does but ABORT and reset. A presented token stays presented, unchanged, under every
event but the core's own step, also under a START that begins a pass or is refused, and then is the new pass's first; but
one left over from an earlier pass is gone when the next becomes BUSY (43_decode_engine.md R187). Left over is a token
presented while a pass was BUSY or after it ended in DONE or ERROR, or one that a START found presented; that the model
notes this beside the token, and that it goes at that START, is its reading (log entry 3). To present puts the token on IN
with that note and changes nothing else; to answer notes the answer, and an ACK puts the offered byte at
the end of the OUT stream, which nothing else changes but a START that begins a pass (log entry 14): the bytes the host
ACKed are still there after DONE, ERROR, ABORT and reset. That an ACK leaves OUTCOUNT as it was, and that the answer is
held for the core step that consumes and counts it, is the model's reading (log entry 4; R23 names the increment beside
the ACK). A second token, and an answer to nothing or to what is answered, are no moves: the model refuses them by name
(log entry 5). -/
def Obligations.ChannelsHoldTokenAndOffer : Prop :=
  (∀ (s t : State) (e : Event) (b : Byte), offer s = some b → perform e s = .next t → e ≠ .core → e ≠ .reset →
    ¬IsAbort e → offer t = some b)
  ∧ (∀ (s t : State) (e : Event) (k : Token), s.inTok = some k → perform e s = .next t → e ≠ .core →
    ¬(StartsPass s e ∧ t.state = .busy ∧ s.inPass = true) →
    t.inTok = some k ∧ t.inPass = (s.inPass || (s.state != .busy && t.state == .busy)))
  ∧ (∀ (s t : State) (e : Event), StartsPass s e → perform e s = .next t → t.state = .busy → s.inPass = true →
    t.inTok = none)
  ∧ (∀ (s t : State) (e : Event), perform e s = .next t → e ≠ .answer .ack → ¬StartsPass s e →
    t.outStream = s.outStream)
  ∧ (∀ (s : State) (k : Token), s.inTok = none → ∃ p : Bool,
    (p = true ↔ s.state ≠ .idle ∧ s.errCause ≠ .encBadChannels)
    ∧ perform (.present k) s = .next { s with inTok := some k, inPass := p })
  ∧ (∀ (s : State) (k : Token), s.inTok ≠ none → perform (.present k) s = .refused .tokenAlreadyPresented)
  ∧ (∀ (s : State) (b : Byte), offer s = some b → s.outAns = none →
    perform (.answer .ack) s = .next { s with outAns := some .ack, outStream := s.outStream ++ [b] }
    ∧ perform (.answer .fail) s = .next { s with outAns := some .fail })
  ∧ ∀ (s : State) (a : Answer), offer s = none ∨ s.outAns ≠ none → perform (.answer a) s = .refused .answerNotOffered

/-- 10_state.md R28, R35, 20_memory.md R65: no host action but START and reset reaches PREV, the cache, TARGET, RUN or the
buffers. -/
def Obligations.HostNeverReachesPassRegisters : Prop :=
  ∀ (s t : State) (e : Event), perform e s = .next t → e ≠ .core → e ≠ .reset → ¬StartsPass s e →
    t.prev = s.prev ∧ t.cache = s.cache ∧ t.target = s.target ∧ t.run = s.run ∧ t.hdrBuf = s.hdrBuf
    ∧ t.tag = s.tag ∧ t.pay = s.pay ∧ t.pin = s.pin

/-- 10_state.md R42, 60_exceptions.md R269: DONE and ERROR, with the report and the counters, persist until a START that
begins a pass, an ABORT or reset. -/
def Obligations.EndOfPassPersists : Prop :=
  ∀ (s t : State) (e : Event), s.state = .done ∨ s.state = .error → perform e s = .next t →
    e ≠ .reset → ¬IsAbort e → ¬StartsPass s e →
    t.state = s.state ∧ t.phase = s.phase ∧ t.errKind = s.errKind ∧ t.errCause = s.errCause
    ∧ t.markerSeen = s.markerSeen ∧ t.passMode = s.passMode ∧ t.pixCount = s.pixCount ∧ t.inCount = s.inCount
    ∧ t.outCount = s.outCount ∧ t.outStream = s.outStream ∧ (e = .core → t = s)

/-- 60_exceptions.md R274: a core step raises only the errors its sub-state's row names; a START of a decode pass raises
none, a START of an encode pass only ENC_BAD_CHANNELS. -/
def Obligations.ErrorsPerSubState : Prop :=
  (∀ s t : State, s.state = .busy → coreStep s = .next t → t.state = .error → t.errCause ∈ possibleErrors s.sub)
  ∧ ∀ (s t : State) (em : Bool) (dm : BitVec 2) (iq : Bool), s.state ≠ .busy →
      (exec (.startDecode em dm iq) s = .next t → t.state ≠ .error)
      ∧ (exec (.startEncode em dm iq) s = .next t → t.state = .error →
          t.errKind = .formatError ∧ t.errCause = .encBadChannels)

/-- 60_exceptions.md R262, R267: when a core step raises an error, SUB is NONE and ERR_KIND is the cause's kind. What the
step did before stands: the token or the answer is consumed, a byte taken is counted in INCOUNT, and the 14th header byte
or the tag, just taken, is in its buffer. Everything else keeps its value: PHASE, PIXCOUNT, OUTCOUNT, the bytes delivered, WIDTH,
HEIGHT, FORMAT, CTRL, MARKER_SEEN, PASS_MODE, MAGIC, PREV, the cache, TARGET, RUN, PAY, PIN and the events. -/
def Obligations.ErrorsArePrecise : Prop :=
  ∀ s t : State, s.state = .busy → coreStep s = .next t → t.state = .error →
    t.sub = .none ∧ t.errKind = t.errCause.kind ∧ t.phase = s.phase ∧ t.pixCount = s.pixCount
    ∧ t.outCount = s.outCount ∧ t.outStream = s.outStream ∧ t.width = s.width ∧ t.height = s.height
    ∧ t.channels = s.channels ∧ t.colorspace = s.colorspace ∧ t.markerSeen = s.markerSeen ∧ t.prev = s.prev
    ∧ t.cache = s.cache ∧ t.target = s.target ∧ (t.inCount = s.inCount ∨ t.inCount = s.inCount + 1)
    ∧ t = { s with state := .error, errKind := t.errKind, errCause := t.errCause, sub := .none, inTok := t.inTok,
                   outAns := t.outAns, inCount := t.inCount, hdrBuf := t.hdrBuf, tag := t.tag }
    ∧ (offer s = none → t.inTok = none ∧ t.outAns = s.outAns)
    ∧ ((offer s).isSome = true → t.inTok = s.inTok ∧ t.outAns = none ∧ t.inCount = s.inCount)
    ∧ (∀ b, offer s = none → s.inTok = some (.byte b) → t.inCount = s.inCount + 1)
    ∧ (s.inTok = some .eoi → t.inCount = s.inCount ∧ t.hdrBuf = s.hdrBuf ∧ t.tag = s.tag)
    ∧ (s.sub ≠ .dHdr 13 → t.hdrBuf = s.hdrBuf) ∧ (s.sub ≠ .dTag → t.tag = s.tag)
    ∧ ∀ b, s.inTok = some (.byte b) →
        (s.sub = .dHdr 13 → t.hdrBuf = s.hdrBuf.set 13 b) ∧ (s.sub = .dTag → t.tag = b)

/-- 43_decode_engine.md R181, 44_encode_engine.md R229: a pass that reaches DONE has PIXCOUNT = TARGET, PHASE TRAILER, no
error, and has delivered (decode) or taken (encode) TARGET * CH bytes modulo 2^64. -/
def Obligations.FinishedPassIsWhole : Prop :=
  ∀ s t : State, Invariant s → s.state = .busy → coreStep s = .next t → t.state = .done →
    t.pixCount = t.target ∧ t.phase = .trailer ∧ t.errKind = .none ∧ t.errCause = .none ∧ t.sub = .none
    ∧ (t.passMode = .decode → t.outCount = t.target * BitVec.ofNat 64 t.channels.toNat)
    ∧ (t.passMode = .encode → t.inCount = t.target * BitVec.ofNat 64 t.channels.toNat ∧ t.markerSeen = false)

/-- 10_state.md R50: no step writes MAGIC. -/
def Obligations.MagicIsConstant : Prop := ∀ s t : State, step s = .next t → t.magic = s.magic

/-- 70_reset_and_hazards.md R290, 10_state.md R52: hardware reset, in any state, sets CTRL to 0x28 and STATUS, WIDTH,
HEIGHT, FORMAT and the counters to 0, SUB to NONE; `irq` is 0, nothing is offered, MAGIC is unchanged, and a presented
token is not consumed. That the note whose input this token is stays with it is the model's own (log entry 3). -/
def Obligations.HardwareReset : Prop :=
  ∀ (s : State) (rest : List Event), s.events = .reset :: rest →
    ∃ t, step s = .next t ∧ ctrlWord t = 0x00000028 ∧ statusWord t = 0 ∧ t.width = 0 ∧ t.height = 0
      ∧ t.channels = 0 ∧ t.colorspace = 0 ∧ t.pixCount = 0 ∧ t.inCount = 0 ∧ t.outCount = 0 ∧ t.sub = .none
      ∧ irq t = false ∧ offer t = none ∧ t.magic = s.magic ∧ t.inTok = s.inTok ∧ t.inPass = s.inPass ∧ t.events = rest

/-- 10_state.md R42 to R45, R226, R188 of the engines, 41_hash_cache.md R127: every step keeps the invariant. -/
def Obligations.StepKeepsInvariant : Prop := ∀ s t : State, Invariant s → step s = .next t → Invariant t

/-- The state after reset has the invariant. -/
def Obligations.ResetHasInvariant : Prop := Invariant State.reset

/-- 70_reset_and_hazards.md R291, 10_state.md R52: what the spec leaves unspecified after reset is never read before it
is written: two states that differ only in PREV, the cache, TARGET, RUN and the buffers, where the rest of the pass does
not read them, take the same step, and stay so. With SUB = NONE all of these may differ. -/
def Obligations.UnspecifiedNeverRead : Prop :=
  ∀ s t : State, Invariant s → Indistinct s t → SameOutcome (step s) (step t)
end

