-- ==== Sys2Proof/Laws/State.lean ====
section
/-! SUPPORT. For each named update of the state, one lemma per field: what the field holds after it. -/

namespace Sys2Proof.Machine

/-! ### raise -/

@[simp] theorem raise_mode (c : ErrCause) (s : State) : (raise c s).mode = s.mode := rfl
@[simp] theorem raise_encMarker (c : ErrCause) (s : State) : (raise c s).encMarker = s.encMarker := rfl
@[simp] theorem raise_decMarker (c : ErrCause) (s : State) : (raise c s).decMarker = s.decMarker := rfl
@[simp] theorem raise_irqEn (c : ErrCause) (s : State) : (raise c s).irqEn = s.irqEn := rfl
@[simp] theorem raise_state (c : ErrCause) (s : State) : (raise c s).state = .error := rfl
@[simp] theorem raise_phase (c : ErrCause) (s : State) : (raise c s).phase = s.phase := rfl
@[simp] theorem raise_errKind (c : ErrCause) (s : State) : (raise c s).errKind = c.kind := rfl
@[simp] theorem raise_errCause (c : ErrCause) (s : State) : (raise c s).errCause = c := rfl
@[simp] theorem raise_markerSeen (c : ErrCause) (s : State) : (raise c s).markerSeen = s.markerSeen := rfl
@[simp] theorem raise_passMode (c : ErrCause) (s : State) : (raise c s).passMode = s.passMode := rfl
@[simp] theorem raise_width (c : ErrCause) (s : State) : (raise c s).width = s.width := rfl
@[simp] theorem raise_height (c : ErrCause) (s : State) : (raise c s).height = s.height := rfl
@[simp] theorem raise_channels (c : ErrCause) (s : State) : (raise c s).channels = s.channels := rfl
@[simp] theorem raise_colorspace (c : ErrCause) (s : State) : (raise c s).colorspace = s.colorspace := rfl
@[simp] theorem raise_pixCount (c : ErrCause) (s : State) : (raise c s).pixCount = s.pixCount := rfl
@[simp] theorem raise_inCount (c : ErrCause) (s : State) : (raise c s).inCount = s.inCount := rfl
@[simp] theorem raise_outCount (c : ErrCause) (s : State) : (raise c s).outCount = s.outCount := rfl
@[simp] theorem raise_magic (c : ErrCause) (s : State) : (raise c s).magic = s.magic := rfl
@[simp] theorem raise_prev (c : ErrCause) (s : State) : (raise c s).prev = s.prev := rfl
@[simp] theorem raise_cache (c : ErrCause) (s : State) : (raise c s).cache = s.cache := rfl
@[simp] theorem raise_target (c : ErrCause) (s : State) : (raise c s).target = s.target := rfl
@[simp] theorem raise_run (c : ErrCause) (s : State) : (raise c s).run = s.run := rfl
@[simp] theorem raise_sub (c : ErrCause) (s : State) : (raise c s).sub = .none := rfl
@[simp] theorem raise_hdrBuf (c : ErrCause) (s : State) : (raise c s).hdrBuf = s.hdrBuf := rfl
@[simp] theorem raise_tag (c : ErrCause) (s : State) : (raise c s).tag = s.tag := rfl
@[simp] theorem raise_pay (c : ErrCause) (s : State) : (raise c s).pay = s.pay := rfl
@[simp] theorem raise_pin (c : ErrCause) (s : State) : (raise c s).pin = s.pin := rfl
@[simp] theorem raise_inTok (c : ErrCause) (s : State) : (raise c s).inTok = s.inTok := rfl
@[simp] theorem raise_inPass (c : ErrCause) (s : State) : (raise c s).inPass = s.inPass := rfl
@[simp] theorem raise_outAns (c : ErrCause) (s : State) : (raise c s).outAns = s.outAns := rfl
@[simp] theorem raise_outStream (c : ErrCause) (s : State) : (raise c s).outStream = s.outStream := rfl
@[simp] theorem raise_csrData (c : ErrCause) (s : State) : (raise c s).csrData = s.csrData := rfl
@[simp] theorem raise_events (c : ErrCause) (s : State) : (raise c s).events = s.events := rfl

/-! ### leaveError -/

@[simp] theorem leaveError_mode (s : State) : (leaveError s).mode = s.mode := rfl
@[simp] theorem leaveError_encMarker (s : State) : (leaveError s).encMarker = s.encMarker := rfl
@[simp] theorem leaveError_decMarker (s : State) : (leaveError s).decMarker = s.decMarker := rfl
@[simp] theorem leaveError_irqEn (s : State) : (leaveError s).irqEn = s.irqEn := rfl
@[simp] theorem leaveError_state (s : State) : (leaveError s).state = s.state := rfl
@[simp] theorem leaveError_phase (s : State) : (leaveError s).phase = s.phase := rfl
@[simp] theorem leaveError_errKind (s : State) : (leaveError s).errKind = .none := rfl
@[simp] theorem leaveError_errCause (s : State) : (leaveError s).errCause = .none := rfl
@[simp] theorem leaveError_markerSeen (s : State) : (leaveError s).markerSeen = false := rfl
@[simp] theorem leaveError_passMode (s : State) : (leaveError s).passMode = s.passMode := rfl
@[simp] theorem leaveError_width (s : State) : (leaveError s).width = s.width := rfl
@[simp] theorem leaveError_height (s : State) : (leaveError s).height = s.height := rfl
@[simp] theorem leaveError_channels (s : State) : (leaveError s).channels = s.channels := rfl
@[simp] theorem leaveError_colorspace (s : State) : (leaveError s).colorspace = s.colorspace := rfl
@[simp] theorem leaveError_pixCount (s : State) : (leaveError s).pixCount = s.pixCount := rfl
@[simp] theorem leaveError_inCount (s : State) : (leaveError s).inCount = s.inCount := rfl
@[simp] theorem leaveError_outCount (s : State) : (leaveError s).outCount = s.outCount := rfl
@[simp] theorem leaveError_magic (s : State) : (leaveError s).magic = s.magic := rfl
@[simp] theorem leaveError_prev (s : State) : (leaveError s).prev = s.prev := rfl
@[simp] theorem leaveError_cache (s : State) : (leaveError s).cache = s.cache := rfl
@[simp] theorem leaveError_target (s : State) : (leaveError s).target = s.target := rfl
@[simp] theorem leaveError_run (s : State) : (leaveError s).run = s.run := rfl
@[simp] theorem leaveError_sub (s : State) : (leaveError s).sub = s.sub := rfl
@[simp] theorem leaveError_hdrBuf (s : State) : (leaveError s).hdrBuf = s.hdrBuf := rfl
@[simp] theorem leaveError_tag (s : State) : (leaveError s).tag = s.tag := rfl
@[simp] theorem leaveError_pay (s : State) : (leaveError s).pay = s.pay := rfl
@[simp] theorem leaveError_pin (s : State) : (leaveError s).pin = s.pin := rfl
@[simp] theorem leaveError_inTok (s : State) : (leaveError s).inTok = s.inTok := rfl
@[simp] theorem leaveError_inPass (s : State) : (leaveError s).inPass = s.inPass := rfl
@[simp] theorem leaveError_outAns (s : State) : (leaveError s).outAns = s.outAns := rfl
@[simp] theorem leaveError_outStream (s : State) : (leaveError s).outStream = s.outStream := rfl
@[simp] theorem leaveError_csrData (s : State) : (leaveError s).csrData = s.csrData := rfl
@[simp] theorem leaveError_events (s : State) : (leaveError s).events = s.events := rfl

/-! ### finish -/

@[simp] theorem finish_mode (s : State) : (finish s).mode = s.mode := rfl
@[simp] theorem finish_encMarker (s : State) : (finish s).encMarker = s.encMarker := rfl
@[simp] theorem finish_decMarker (s : State) : (finish s).decMarker = s.decMarker := rfl
@[simp] theorem finish_irqEn (s : State) : (finish s).irqEn = s.irqEn := rfl
@[simp] theorem finish_state (s : State) : (finish s).state = .done := rfl
@[simp] theorem finish_phase (s : State) : (finish s).phase = s.phase := rfl
@[simp] theorem finish_errKind (s : State) : (finish s).errKind = s.errKind := rfl
@[simp] theorem finish_errCause (s : State) : (finish s).errCause = s.errCause := rfl
@[simp] theorem finish_markerSeen (s : State) : (finish s).markerSeen = s.markerSeen := rfl
@[simp] theorem finish_passMode (s : State) : (finish s).passMode = s.passMode := rfl
@[simp] theorem finish_width (s : State) : (finish s).width = s.width := rfl
@[simp] theorem finish_height (s : State) : (finish s).height = s.height := rfl
@[simp] theorem finish_channels (s : State) : (finish s).channels = s.channels := rfl
@[simp] theorem finish_colorspace (s : State) : (finish s).colorspace = s.colorspace := rfl
@[simp] theorem finish_pixCount (s : State) : (finish s).pixCount = s.pixCount := rfl
@[simp] theorem finish_inCount (s : State) : (finish s).inCount = s.inCount := rfl
@[simp] theorem finish_outCount (s : State) : (finish s).outCount = s.outCount := rfl
@[simp] theorem finish_magic (s : State) : (finish s).magic = s.magic := rfl
@[simp] theorem finish_prev (s : State) : (finish s).prev = s.prev := rfl
@[simp] theorem finish_cache (s : State) : (finish s).cache = s.cache := rfl
@[simp] theorem finish_target (s : State) : (finish s).target = s.target := rfl
@[simp] theorem finish_run (s : State) : (finish s).run = s.run := rfl
@[simp] theorem finish_sub (s : State) : (finish s).sub = .none := rfl
@[simp] theorem finish_hdrBuf (s : State) : (finish s).hdrBuf = s.hdrBuf := rfl
@[simp] theorem finish_tag (s : State) : (finish s).tag = s.tag := rfl
@[simp] theorem finish_pay (s : State) : (finish s).pay = s.pay := rfl
@[simp] theorem finish_pin (s : State) : (finish s).pin = s.pin := rfl
@[simp] theorem finish_inTok (s : State) : (finish s).inTok = s.inTok := rfl
@[simp] theorem finish_inPass (s : State) : (finish s).inPass = s.inPass := rfl
@[simp] theorem finish_outAns (s : State) : (finish s).outAns = s.outAns := rfl
@[simp] theorem finish_outStream (s : State) : (finish s).outStream = s.outStream := rfl
@[simp] theorem finish_csrData (s : State) : (finish s).csrData = s.csrData := rfl
@[simp] theorem finish_events (s : State) : (finish s).events = s.events := rfl

/-! ### update -/

@[simp] theorem update_mode (px : Pixel) (s : State) : (update px s).mode = s.mode := rfl
@[simp] theorem update_encMarker (px : Pixel) (s : State) : (update px s).encMarker = s.encMarker := rfl
@[simp] theorem update_decMarker (px : Pixel) (s : State) : (update px s).decMarker = s.decMarker := rfl
@[simp] theorem update_irqEn (px : Pixel) (s : State) : (update px s).irqEn = s.irqEn := rfl
@[simp] theorem update_state (px : Pixel) (s : State) : (update px s).state = s.state := rfl
@[simp] theorem update_phase (px : Pixel) (s : State) : (update px s).phase = s.phase := rfl
@[simp] theorem update_errKind (px : Pixel) (s : State) : (update px s).errKind = s.errKind := rfl
@[simp] theorem update_errCause (px : Pixel) (s : State) : (update px s).errCause = s.errCause := rfl
@[simp] theorem update_markerSeen (px : Pixel) (s : State) : (update px s).markerSeen = s.markerSeen := rfl
@[simp] theorem update_passMode (px : Pixel) (s : State) : (update px s).passMode = s.passMode := rfl
@[simp] theorem update_width (px : Pixel) (s : State) : (update px s).width = s.width := rfl
@[simp] theorem update_height (px : Pixel) (s : State) : (update px s).height = s.height := rfl
@[simp] theorem update_channels (px : Pixel) (s : State) : (update px s).channels = s.channels := rfl
@[simp] theorem update_colorspace (px : Pixel) (s : State) : (update px s).colorspace = s.colorspace := rfl
@[simp] theorem update_pixCount (px : Pixel) (s : State) : (update px s).pixCount = s.pixCount := rfl
@[simp] theorem update_inCount (px : Pixel) (s : State) : (update px s).inCount = s.inCount := rfl
@[simp] theorem update_outCount (px : Pixel) (s : State) : (update px s).outCount = s.outCount := rfl
@[simp] theorem update_magic (px : Pixel) (s : State) : (update px s).magic = s.magic := rfl
@[simp] theorem update_prev (px : Pixel) (s : State) : (update px s).prev = px := rfl
@[simp] theorem update_cache (px : Pixel) (s : State) : (update px s).cache = cacheWrite s.cache px := rfl
@[simp] theorem update_target (px : Pixel) (s : State) : (update px s).target = s.target := rfl
@[simp] theorem update_run (px : Pixel) (s : State) : (update px s).run = s.run := rfl
@[simp] theorem update_sub (px : Pixel) (s : State) : (update px s).sub = s.sub := rfl
@[simp] theorem update_hdrBuf (px : Pixel) (s : State) : (update px s).hdrBuf = s.hdrBuf := rfl
@[simp] theorem update_tag (px : Pixel) (s : State) : (update px s).tag = s.tag := rfl
@[simp] theorem update_pay (px : Pixel) (s : State) : (update px s).pay = s.pay := rfl
@[simp] theorem update_pin (px : Pixel) (s : State) : (update px s).pin = s.pin := rfl
@[simp] theorem update_inTok (px : Pixel) (s : State) : (update px s).inTok = s.inTok := rfl
@[simp] theorem update_inPass (px : Pixel) (s : State) : (update px s).inPass = s.inPass := rfl
@[simp] theorem update_outAns (px : Pixel) (s : State) : (update px s).outAns = s.outAns := rfl
@[simp] theorem update_outStream (px : Pixel) (s : State) : (update px s).outStream = s.outStream := rfl
@[simp] theorem update_csrData (px : Pixel) (s : State) : (update px s).csrData = s.csrData := rfl
@[simp] theorem update_events (px : Pixel) (s : State) : (update px s).events = s.events := rfl

/-! ### complete -/

@[simp] theorem complete_mode (px : Pixel) (s : State) : (complete px s).mode = s.mode := rfl
@[simp] theorem complete_encMarker (px : Pixel) (s : State) : (complete px s).encMarker = s.encMarker := rfl
@[simp] theorem complete_decMarker (px : Pixel) (s : State) : (complete px s).decMarker = s.decMarker := rfl
@[simp] theorem complete_irqEn (px : Pixel) (s : State) : (complete px s).irqEn = s.irqEn := rfl
@[simp] theorem complete_state (px : Pixel) (s : State) : (complete px s).state = s.state := rfl
@[simp] theorem complete_phase (px : Pixel) (s : State) : (complete px s).phase = s.phase := rfl
@[simp] theorem complete_errKind (px : Pixel) (s : State) : (complete px s).errKind = s.errKind := rfl
@[simp] theorem complete_errCause (px : Pixel) (s : State) : (complete px s).errCause = s.errCause := rfl
@[simp] theorem complete_markerSeen (px : Pixel) (s : State) : (complete px s).markerSeen = s.markerSeen := rfl
@[simp] theorem complete_passMode (px : Pixel) (s : State) : (complete px s).passMode = s.passMode := rfl
@[simp] theorem complete_width (px : Pixel) (s : State) : (complete px s).width = s.width := rfl
@[simp] theorem complete_height (px : Pixel) (s : State) : (complete px s).height = s.height := rfl
@[simp] theorem complete_channels (px : Pixel) (s : State) : (complete px s).channels = s.channels := rfl
@[simp] theorem complete_colorspace (px : Pixel) (s : State) : (complete px s).colorspace = s.colorspace := rfl
@[simp] theorem complete_pixCount (px : Pixel) (s : State) : (complete px s).pixCount = s.pixCount := rfl
@[simp] theorem complete_inCount (px : Pixel) (s : State) : (complete px s).inCount = s.inCount := rfl
@[simp] theorem complete_outCount (px : Pixel) (s : State) : (complete px s).outCount = s.outCount := rfl
@[simp] theorem complete_magic (px : Pixel) (s : State) : (complete px s).magic = s.magic := rfl
@[simp] theorem complete_prev (px : Pixel) (s : State) : (complete px s).prev = px := rfl
@[simp] theorem complete_cache (px : Pixel) (s : State) : (complete px s).cache = cacheWrite s.cache px := rfl
@[simp] theorem complete_target (px : Pixel) (s : State) : (complete px s).target = s.target := rfl
@[simp] theorem complete_run (px : Pixel) (s : State) : (complete px s).run = s.run := rfl
@[simp] theorem complete_sub (px : Pixel) (s : State) : (complete px s).sub = .dOut px 1 0 := rfl
@[simp] theorem complete_hdrBuf (px : Pixel) (s : State) : (complete px s).hdrBuf = s.hdrBuf := rfl
@[simp] theorem complete_tag (px : Pixel) (s : State) : (complete px s).tag = s.tag := rfl
@[simp] theorem complete_pay (px : Pixel) (s : State) : (complete px s).pay = s.pay := rfl
@[simp] theorem complete_pin (px : Pixel) (s : State) : (complete px s).pin = s.pin := rfl
@[simp] theorem complete_inTok (px : Pixel) (s : State) : (complete px s).inTok = s.inTok := rfl
@[simp] theorem complete_inPass (px : Pixel) (s : State) : (complete px s).inPass = s.inPass := rfl
@[simp] theorem complete_outAns (px : Pixel) (s : State) : (complete px s).outAns = s.outAns := rfl
@[simp] theorem complete_outStream (px : Pixel) (s : State) : (complete px s).outStream = s.outStream := rfl
@[simp] theorem complete_csrData (px : Pixel) (s : State) : (complete px s).csrData = s.csrData := rfl
@[simp] theorem complete_events (px : Pixel) (s : State) : (complete px s).events = s.events := rfl

/-! ### openInput -/

@[simp] theorem openInput_mode (s : State) : (openInput s).mode = s.mode := rfl
@[simp] theorem openInput_encMarker (s : State) : (openInput s).encMarker = s.encMarker := rfl
@[simp] theorem openInput_decMarker (s : State) : (openInput s).decMarker = s.decMarker := rfl
@[simp] theorem openInput_irqEn (s : State) : (openInput s).irqEn = s.irqEn := rfl
@[simp] theorem openInput_state (s : State) : (openInput s).state = s.state := rfl
@[simp] theorem openInput_phase (s : State) : (openInput s).phase = s.phase := rfl
@[simp] theorem openInput_errKind (s : State) : (openInput s).errKind = s.errKind := rfl
@[simp] theorem openInput_errCause (s : State) : (openInput s).errCause = s.errCause := rfl
@[simp] theorem openInput_markerSeen (s : State) : (openInput s).markerSeen = s.markerSeen := rfl
@[simp] theorem openInput_passMode (s : State) : (openInput s).passMode = s.passMode := rfl
@[simp] theorem openInput_width (s : State) : (openInput s).width = s.width := rfl
@[simp] theorem openInput_height (s : State) : (openInput s).height = s.height := rfl
@[simp] theorem openInput_channels (s : State) : (openInput s).channels = s.channels := rfl
@[simp] theorem openInput_colorspace (s : State) : (openInput s).colorspace = s.colorspace := rfl
@[simp] theorem openInput_pixCount (s : State) : (openInput s).pixCount = s.pixCount := rfl
@[simp] theorem openInput_inCount (s : State) : (openInput s).inCount = s.inCount := rfl
@[simp] theorem openInput_outCount (s : State) : (openInput s).outCount = s.outCount := rfl
@[simp] theorem openInput_magic (s : State) : (openInput s).magic = s.magic := rfl
@[simp] theorem openInput_prev (s : State) : (openInput s).prev = s.prev := rfl
@[simp] theorem openInput_cache (s : State) : (openInput s).cache = s.cache := rfl
@[simp] theorem openInput_target (s : State) : (openInput s).target = s.target := rfl
@[simp] theorem openInput_run (s : State) : (openInput s).run = s.run := rfl
@[simp] theorem openInput_sub (s : State) : (openInput s).sub = s.sub := rfl
@[simp] theorem openInput_hdrBuf (s : State) : (openInput s).hdrBuf = s.hdrBuf := rfl
@[simp] theorem openInput_tag (s : State) : (openInput s).tag = s.tag := rfl
@[simp] theorem openInput_pay (s : State) : (openInput s).pay = s.pay := rfl
@[simp] theorem openInput_pin (s : State) : (openInput s).pin = s.pin := rfl
@[simp] theorem openInput_inTok (s : State) : (openInput s).inTok = if s.inPass then none else s.inTok := rfl
@[simp] theorem openInput_inPass (s : State) : (openInput s).inPass = true := rfl
@[simp] theorem openInput_outAns (s : State) : (openInput s).outAns = s.outAns := rfl
@[simp] theorem openInput_outStream (s : State) : (openInput s).outStream = s.outStream := rfl
@[simp] theorem openInput_csrData (s : State) : (openInput s).csrData = s.csrData := rfl
@[simp] theorem openInput_events (s : State) : (openInput s).events = s.events := rfl

/-! ### beginPass -/

@[simp] theorem beginPass_mode (m : PassMode) (s : State) : (beginPass m s).mode = s.mode := rfl
@[simp] theorem beginPass_encMarker (m : PassMode) (s : State) : (beginPass m s).encMarker = s.encMarker := rfl
@[simp] theorem beginPass_decMarker (m : PassMode) (s : State) : (beginPass m s).decMarker = s.decMarker := rfl
@[simp] theorem beginPass_irqEn (m : PassMode) (s : State) : (beginPass m s).irqEn = s.irqEn := rfl
@[simp] theorem beginPass_state (m : PassMode) (s : State) : (beginPass m s).state = s.state := rfl
@[simp] theorem beginPass_phase (m : PassMode) (s : State) : (beginPass m s).phase = .header := rfl
@[simp] theorem beginPass_errKind (m : PassMode) (s : State) : (beginPass m s).errKind = .none := rfl
@[simp] theorem beginPass_errCause (m : PassMode) (s : State) : (beginPass m s).errCause = .none := rfl
@[simp] theorem beginPass_markerSeen (m : PassMode) (s : State) : (beginPass m s).markerSeen = false := rfl
@[simp] theorem beginPass_passMode (m : PassMode) (s : State) : (beginPass m s).passMode = m := rfl
@[simp] theorem beginPass_width (m : PassMode) (s : State) : (beginPass m s).width = s.width := rfl
@[simp] theorem beginPass_height (m : PassMode) (s : State) : (beginPass m s).height = s.height := rfl
@[simp] theorem beginPass_channels (m : PassMode) (s : State) : (beginPass m s).channels = s.channels := rfl
@[simp] theorem beginPass_colorspace (m : PassMode) (s : State) : (beginPass m s).colorspace = s.colorspace := rfl
@[simp] theorem beginPass_pixCount (m : PassMode) (s : State) : (beginPass m s).pixCount = 0 := rfl
@[simp] theorem beginPass_inCount (m : PassMode) (s : State) : (beginPass m s).inCount = 0 := rfl
@[simp] theorem beginPass_outCount (m : PassMode) (s : State) : (beginPass m s).outCount = 0 := rfl
@[simp] theorem beginPass_magic (m : PassMode) (s : State) : (beginPass m s).magic = s.magic := rfl
@[simp] theorem beginPass_prev (m : PassMode) (s : State) : (beginPass m s).prev = s.prev := rfl
@[simp] theorem beginPass_cache (m : PassMode) (s : State) : (beginPass m s).cache = s.cache := rfl
@[simp] theorem beginPass_target (m : PassMode) (s : State) : (beginPass m s).target = s.target := rfl
@[simp] theorem beginPass_run (m : PassMode) (s : State) : (beginPass m s).run = s.run := rfl
@[simp] theorem beginPass_sub (m : PassMode) (s : State) : (beginPass m s).sub = s.sub := rfl
@[simp] theorem beginPass_hdrBuf (m : PassMode) (s : State) : (beginPass m s).hdrBuf = s.hdrBuf := rfl
@[simp] theorem beginPass_tag (m : PassMode) (s : State) : (beginPass m s).tag = s.tag := rfl
@[simp] theorem beginPass_pay (m : PassMode) (s : State) : (beginPass m s).pay = s.pay := rfl
@[simp] theorem beginPass_pin (m : PassMode) (s : State) : (beginPass m s).pin = s.pin := rfl
@[simp] theorem beginPass_inTok (m : PassMode) (s : State) : (beginPass m s).inTok = s.inTok := rfl
@[simp] theorem beginPass_inPass (m : PassMode) (s : State) : (beginPass m s).inPass = s.inPass := rfl
@[simp] theorem beginPass_outAns (m : PassMode) (s : State) : (beginPass m s).outAns = s.outAns := rfl
@[simp] theorem beginPass_outStream (m : PassMode) (s : State) : (beginPass m s).outStream = [] := rfl
@[simp] theorem beginPass_csrData (m : PassMode) (s : State) : (beginPass m s).csrData = s.csrData := rfl
@[simp] theorem beginPass_events (m : PassMode) (s : State) : (beginPass m s).events = s.events := rfl

/-! ### startDecode -/

@[simp] theorem startDecode_mode (s : State) : (startDecode s).mode = s.mode := rfl
@[simp] theorem startDecode_encMarker (s : State) : (startDecode s).encMarker = s.encMarker := rfl
@[simp] theorem startDecode_decMarker (s : State) : (startDecode s).decMarker = s.decMarker := rfl
@[simp] theorem startDecode_irqEn (s : State) : (startDecode s).irqEn = s.irqEn := rfl
@[simp] theorem startDecode_state (s : State) : (startDecode s).state = .busy := rfl
@[simp] theorem startDecode_phase (s : State) : (startDecode s).phase = .header := rfl
@[simp] theorem startDecode_errKind (s : State) : (startDecode s).errKind = .none := rfl
@[simp] theorem startDecode_errCause (s : State) : (startDecode s).errCause = .none := rfl
@[simp] theorem startDecode_markerSeen (s : State) : (startDecode s).markerSeen = false := rfl
@[simp] theorem startDecode_passMode (s : State) : (startDecode s).passMode = .decode := rfl
@[simp] theorem startDecode_width (s : State) : (startDecode s).width = s.width := rfl
@[simp] theorem startDecode_height (s : State) : (startDecode s).height = s.height := rfl
@[simp] theorem startDecode_channels (s : State) : (startDecode s).channels = s.channels := rfl
@[simp] theorem startDecode_colorspace (s : State) : (startDecode s).colorspace = s.colorspace := rfl
@[simp] theorem startDecode_pixCount (s : State) : (startDecode s).pixCount = 0 := rfl
@[simp] theorem startDecode_inCount (s : State) : (startDecode s).inCount = 0 := rfl
@[simp] theorem startDecode_outCount (s : State) : (startDecode s).outCount = 0 := rfl
@[simp] theorem startDecode_magic (s : State) : (startDecode s).magic = s.magic := rfl
@[simp] theorem startDecode_prev (s : State) : (startDecode s).prev = .opaqueBlack := rfl
@[simp] theorem startDecode_cache (s : State) : (startDecode s).cache = clearCache := rfl
@[simp] theorem startDecode_target (s : State) : (startDecode s).target = s.target := rfl
@[simp] theorem startDecode_run (s : State) : (startDecode s).run = s.run := rfl
@[simp] theorem startDecode_sub (s : State) : (startDecode s).sub = .dHdr 0 := rfl
@[simp] theorem startDecode_hdrBuf (s : State) : (startDecode s).hdrBuf = s.hdrBuf := rfl
@[simp] theorem startDecode_tag (s : State) : (startDecode s).tag = s.tag := rfl
@[simp] theorem startDecode_pay (s : State) : (startDecode s).pay = s.pay := rfl
@[simp] theorem startDecode_pin (s : State) : (startDecode s).pin = s.pin := rfl
@[simp] theorem startDecode_inTok (s : State) : (startDecode s).inTok = if s.inPass then none else s.inTok := rfl
@[simp] theorem startDecode_inPass (s : State) : (startDecode s).inPass = true := rfl
@[simp] theorem startDecode_outAns (s : State) : (startDecode s).outAns = s.outAns := rfl
@[simp] theorem startDecode_outStream (s : State) : (startDecode s).outStream = [] := rfl
@[simp] theorem startDecode_csrData (s : State) : (startDecode s).csrData = s.csrData := rfl
@[simp] theorem startDecode_events (s : State) : (startDecode s).events = s.events := rfl

/-! ### abortPass -/

@[simp] theorem abortPass_mode (s : State) : (abortPass s).mode = s.mode := rfl
@[simp] theorem abortPass_encMarker (s : State) : (abortPass s).encMarker = s.encMarker := rfl
@[simp] theorem abortPass_decMarker (s : State) : (abortPass s).decMarker = s.decMarker := rfl
@[simp] theorem abortPass_irqEn (s : State) : (abortPass s).irqEn = s.irqEn := rfl
@[simp] theorem abortPass_state (s : State) : (abortPass s).state = .idle := rfl
@[simp] theorem abortPass_phase (s : State) : (abortPass s).phase = .none := rfl
@[simp] theorem abortPass_errKind (s : State) : (abortPass s).errKind = .none := rfl
@[simp] theorem abortPass_errCause (s : State) : (abortPass s).errCause = .none := rfl
@[simp] theorem abortPass_markerSeen (s : State) : (abortPass s).markerSeen = false := rfl
@[simp] theorem abortPass_passMode (s : State) : (abortPass s).passMode = s.passMode := rfl
@[simp] theorem abortPass_width (s : State) : (abortPass s).width = s.width := rfl
@[simp] theorem abortPass_height (s : State) : (abortPass s).height = s.height := rfl
@[simp] theorem abortPass_channels (s : State) : (abortPass s).channels = s.channels := rfl
@[simp] theorem abortPass_colorspace (s : State) : (abortPass s).colorspace = s.colorspace := rfl
@[simp] theorem abortPass_pixCount (s : State) : (abortPass s).pixCount = s.pixCount := rfl
@[simp] theorem abortPass_inCount (s : State) : (abortPass s).inCount = s.inCount := rfl
@[simp] theorem abortPass_outCount (s : State) : (abortPass s).outCount = s.outCount := rfl
@[simp] theorem abortPass_magic (s : State) : (abortPass s).magic = s.magic := rfl
@[simp] theorem abortPass_prev (s : State) : (abortPass s).prev = s.prev := rfl
@[simp] theorem abortPass_cache (s : State) : (abortPass s).cache = s.cache := rfl
@[simp] theorem abortPass_target (s : State) : (abortPass s).target = s.target := rfl
@[simp] theorem abortPass_run (s : State) : (abortPass s).run = s.run := rfl
@[simp] theorem abortPass_sub (s : State) : (abortPass s).sub = .none := rfl
@[simp] theorem abortPass_hdrBuf (s : State) : (abortPass s).hdrBuf = s.hdrBuf := rfl
@[simp] theorem abortPass_tag (s : State) : (abortPass s).tag = s.tag := rfl
@[simp] theorem abortPass_pay (s : State) : (abortPass s).pay = s.pay := rfl
@[simp] theorem abortPass_pin (s : State) : (abortPass s).pin = s.pin := rfl
@[simp] theorem abortPass_inTok (s : State) : (abortPass s).inTok = s.inTok := rfl
@[simp] theorem abortPass_inPass (s : State) : (abortPass s).inPass = s.inPass := rfl
@[simp] theorem abortPass_outAns (s : State) : (abortPass s).outAns = none := rfl
@[simp] theorem abortPass_outStream (s : State) : (abortPass s).outStream = s.outStream := rfl
@[simp] theorem abortPass_csrData (s : State) : (abortPass s).csrData = s.csrData := rfl
@[simp] theorem abortPass_events (s : State) : (abortPass s).events = s.events := rfl

/-! ### hardReset -/

@[simp] theorem hardReset_mode (s : State) : (hardReset s).mode = .decode := rfl
@[simp] theorem hardReset_encMarker (s : State) : (hardReset s).encMarker = true := rfl
@[simp] theorem hardReset_decMarker (s : State) : (hardReset s).decMarker = .optional := rfl
@[simp] theorem hardReset_irqEn (s : State) : (hardReset s).irqEn = false := rfl
@[simp] theorem hardReset_state (s : State) : (hardReset s).state = .idle := rfl
@[simp] theorem hardReset_phase (s : State) : (hardReset s).phase = .none := rfl
@[simp] theorem hardReset_errKind (s : State) : (hardReset s).errKind = .none := rfl
@[simp] theorem hardReset_errCause (s : State) : (hardReset s).errCause = .none := rfl
@[simp] theorem hardReset_markerSeen (s : State) : (hardReset s).markerSeen = false := rfl
@[simp] theorem hardReset_passMode (s : State) : (hardReset s).passMode = .decode := rfl
@[simp] theorem hardReset_width (s : State) : (hardReset s).width = 0 := rfl
@[simp] theorem hardReset_height (s : State) : (hardReset s).height = 0 := rfl
@[simp] theorem hardReset_channels (s : State) : (hardReset s).channels = 0 := rfl
@[simp] theorem hardReset_colorspace (s : State) : (hardReset s).colorspace = 0 := rfl
@[simp] theorem hardReset_pixCount (s : State) : (hardReset s).pixCount = 0 := rfl
@[simp] theorem hardReset_inCount (s : State) : (hardReset s).inCount = 0 := rfl
@[simp] theorem hardReset_outCount (s : State) : (hardReset s).outCount = 0 := rfl
@[simp] theorem hardReset_magic (s : State) : (hardReset s).magic = s.magic := rfl
@[simp] theorem hardReset_prev (s : State) : (hardReset s).prev = State.reset.prev := rfl
@[simp] theorem hardReset_cache (s : State) : (hardReset s).cache = State.reset.cache := rfl
@[simp] theorem hardReset_target (s : State) : (hardReset s).target = State.reset.target := rfl
@[simp] theorem hardReset_run (s : State) : (hardReset s).run = State.reset.run := rfl
@[simp] theorem hardReset_sub (s : State) : (hardReset s).sub = .none := rfl
@[simp] theorem hardReset_hdrBuf (s : State) : (hardReset s).hdrBuf = State.reset.hdrBuf := rfl
@[simp] theorem hardReset_tag (s : State) : (hardReset s).tag = State.reset.tag := rfl
@[simp] theorem hardReset_pay (s : State) : (hardReset s).pay = State.reset.pay := rfl
@[simp] theorem hardReset_pin (s : State) : (hardReset s).pin = State.reset.pin := rfl
@[simp] theorem hardReset_inTok (s : State) : (hardReset s).inTok = s.inTok := rfl
@[simp] theorem hardReset_inPass (s : State) : (hardReset s).inPass = s.inPass := rfl
@[simp] theorem hardReset_outAns (s : State) : (hardReset s).outAns = none := rfl
@[simp] theorem hardReset_outStream (s : State) : (hardReset s).outStream = s.outStream := rfl
@[simp] theorem hardReset_csrData (s : State) : (hardReset s).csrData = s.csrData := rfl
@[simp] theorem hardReset_events (s : State) : (hardReset s).events = s.events := rfl

/-! ### countIn -/

@[simp] theorem countIn_mode (s : State) : (countIn s).mode = s.mode := rfl
@[simp] theorem countIn_encMarker (s : State) : (countIn s).encMarker = s.encMarker := rfl
@[simp] theorem countIn_decMarker (s : State) : (countIn s).decMarker = s.decMarker := rfl
@[simp] theorem countIn_irqEn (s : State) : (countIn s).irqEn = s.irqEn := rfl
@[simp] theorem countIn_state (s : State) : (countIn s).state = s.state := rfl
@[simp] theorem countIn_phase (s : State) : (countIn s).phase = s.phase := rfl
@[simp] theorem countIn_errKind (s : State) : (countIn s).errKind = s.errKind := rfl
@[simp] theorem countIn_errCause (s : State) : (countIn s).errCause = s.errCause := rfl
@[simp] theorem countIn_markerSeen (s : State) : (countIn s).markerSeen = s.markerSeen := rfl
@[simp] theorem countIn_passMode (s : State) : (countIn s).passMode = s.passMode := rfl
@[simp] theorem countIn_width (s : State) : (countIn s).width = s.width := rfl
@[simp] theorem countIn_height (s : State) : (countIn s).height = s.height := rfl
@[simp] theorem countIn_channels (s : State) : (countIn s).channels = s.channels := rfl
@[simp] theorem countIn_colorspace (s : State) : (countIn s).colorspace = s.colorspace := rfl
@[simp] theorem countIn_pixCount (s : State) : (countIn s).pixCount = s.pixCount := rfl
@[simp] theorem countIn_inCount (s : State) : (countIn s).inCount = s.inCount + 1 := rfl
@[simp] theorem countIn_outCount (s : State) : (countIn s).outCount = s.outCount := rfl
@[simp] theorem countIn_magic (s : State) : (countIn s).magic = s.magic := rfl
@[simp] theorem countIn_prev (s : State) : (countIn s).prev = s.prev := rfl
@[simp] theorem countIn_cache (s : State) : (countIn s).cache = s.cache := rfl
@[simp] theorem countIn_target (s : State) : (countIn s).target = s.target := rfl
@[simp] theorem countIn_run (s : State) : (countIn s).run = s.run := rfl
@[simp] theorem countIn_sub (s : State) : (countIn s).sub = s.sub := rfl
@[simp] theorem countIn_hdrBuf (s : State) : (countIn s).hdrBuf = s.hdrBuf := rfl
@[simp] theorem countIn_tag (s : State) : (countIn s).tag = s.tag := rfl
@[simp] theorem countIn_pay (s : State) : (countIn s).pay = s.pay := rfl
@[simp] theorem countIn_pin (s : State) : (countIn s).pin = s.pin := rfl
@[simp] theorem countIn_inTok (s : State) : (countIn s).inTok = s.inTok := rfl
@[simp] theorem countIn_inPass (s : State) : (countIn s).inPass = s.inPass := rfl
@[simp] theorem countIn_outAns (s : State) : (countIn s).outAns = s.outAns := rfl
@[simp] theorem countIn_outStream (s : State) : (countIn s).outStream = s.outStream := rfl
@[simp] theorem countIn_csrData (s : State) : (countIn s).csrData = s.csrData := rfl
@[simp] theorem countIn_events (s : State) : (countIn s).events = s.events := rfl

/-! ### acceptHeader -/

@[simp] theorem acceptHeader_mode (w h : Word) (ch cs : Byte) (s : State) : (acceptHeader w h ch cs s).mode = s.mode := rfl
@[simp] theorem acceptHeader_encMarker (w h : Word) (ch cs : Byte) (s : State) : (acceptHeader w h ch cs s).encMarker = s.encMarker := rfl
@[simp] theorem acceptHeader_decMarker (w h : Word) (ch cs : Byte) (s : State) : (acceptHeader w h ch cs s).decMarker = s.decMarker := rfl
@[simp] theorem acceptHeader_irqEn (w h : Word) (ch cs : Byte) (s : State) : (acceptHeader w h ch cs s).irqEn = s.irqEn := rfl
@[simp] theorem acceptHeader_state (w h : Word) (ch cs : Byte) (s : State) : (acceptHeader w h ch cs s).state = s.state := rfl
@[simp] theorem acceptHeader_phase (w h : Word) (ch cs : Byte) (s : State) : (acceptHeader w h ch cs s).phase = s.phase := rfl
@[simp] theorem acceptHeader_errKind (w h : Word) (ch cs : Byte) (s : State) : (acceptHeader w h ch cs s).errKind = s.errKind := rfl
@[simp] theorem acceptHeader_errCause (w h : Word) (ch cs : Byte) (s : State) : (acceptHeader w h ch cs s).errCause = s.errCause := rfl
@[simp] theorem acceptHeader_markerSeen (w h : Word) (ch cs : Byte) (s : State) : (acceptHeader w h ch cs s).markerSeen = s.markerSeen := rfl
@[simp] theorem acceptHeader_passMode (w h : Word) (ch cs : Byte) (s : State) : (acceptHeader w h ch cs s).passMode = s.passMode := rfl
@[simp] theorem acceptHeader_width (w h : Word) (ch cs : Byte) (s : State) : (acceptHeader w h ch cs s).width = w := rfl
@[simp] theorem acceptHeader_height (w h : Word) (ch cs : Byte) (s : State) : (acceptHeader w h ch cs s).height = h := rfl
@[simp] theorem acceptHeader_channels (w h : Word) (ch cs : Byte) (s : State) : (acceptHeader w h ch cs s).channels = ch := rfl
@[simp] theorem acceptHeader_colorspace (w h : Word) (ch cs : Byte) (s : State) : (acceptHeader w h ch cs s).colorspace = cs := rfl
@[simp] theorem acceptHeader_pixCount (w h : Word) (ch cs : Byte) (s : State) : (acceptHeader w h ch cs s).pixCount = s.pixCount := rfl
@[simp] theorem acceptHeader_inCount (w h : Word) (ch cs : Byte) (s : State) : (acceptHeader w h ch cs s).inCount = s.inCount := rfl
@[simp] theorem acceptHeader_outCount (w h : Word) (ch cs : Byte) (s : State) : (acceptHeader w h ch cs s).outCount = s.outCount := rfl
@[simp] theorem acceptHeader_magic (w h : Word) (ch cs : Byte) (s : State) : (acceptHeader w h ch cs s).magic = s.magic := rfl
@[simp] theorem acceptHeader_prev (w h : Word) (ch cs : Byte) (s : State) : (acceptHeader w h ch cs s).prev = s.prev := rfl
@[simp] theorem acceptHeader_cache (w h : Word) (ch cs : Byte) (s : State) : (acceptHeader w h ch cs s).cache = s.cache := rfl
@[simp] theorem acceptHeader_target (w h : Word) (ch cs : Byte) (s : State) : (acceptHeader w h ch cs s).target = pixelTarget w h := rfl
@[simp] theorem acceptHeader_run (w h : Word) (ch cs : Byte) (s : State) : (acceptHeader w h ch cs s).run = s.run := rfl
@[simp] theorem acceptHeader_sub (w h : Word) (ch cs : Byte) (s : State) : (acceptHeader w h ch cs s).sub = s.sub := rfl
@[simp] theorem acceptHeader_hdrBuf (w h : Word) (ch cs : Byte) (s : State) : (acceptHeader w h ch cs s).hdrBuf = s.hdrBuf := rfl
@[simp] theorem acceptHeader_tag (w h : Word) (ch cs : Byte) (s : State) : (acceptHeader w h ch cs s).tag = s.tag := rfl
@[simp] theorem acceptHeader_pay (w h : Word) (ch cs : Byte) (s : State) : (acceptHeader w h ch cs s).pay = s.pay := rfl
@[simp] theorem acceptHeader_pin (w h : Word) (ch cs : Byte) (s : State) : (acceptHeader w h ch cs s).pin = s.pin := rfl
@[simp] theorem acceptHeader_inTok (w h : Word) (ch cs : Byte) (s : State) : (acceptHeader w h ch cs s).inTok = s.inTok := rfl
@[simp] theorem acceptHeader_inPass (w h : Word) (ch cs : Byte) (s : State) : (acceptHeader w h ch cs s).inPass = s.inPass := rfl
@[simp] theorem acceptHeader_outAns (w h : Word) (ch cs : Byte) (s : State) : (acceptHeader w h ch cs s).outAns = s.outAns := rfl
@[simp] theorem acceptHeader_outStream (w h : Word) (ch cs : Byte) (s : State) : (acceptHeader w h ch cs s).outStream = s.outStream := rfl
@[simp] theorem acceptHeader_csrData (w h : Word) (ch cs : Byte) (s : State) : (acceptHeader w h ch cs s).csrData = s.csrData := rfl
@[simp] theorem acceptHeader_events (w h : Word) (ch cs : Byte) (s : State) : (acceptHeader w h ch cs s).events = s.events := rfl

/-! ### finishBody -/

@[simp] theorem finishBody_mode (s : State) : (finishBody s).mode = s.mode := by cases h : s.decMarker <;> simp [finishBody, h]
@[simp] theorem finishBody_encMarker (s : State) : (finishBody s).encMarker = s.encMarker := by cases h : s.decMarker <;> simp [finishBody, h]
@[simp] theorem finishBody_decMarker (s : State) : (finishBody s).decMarker = s.decMarker := by cases h : s.decMarker <;> simp [finishBody, h]
@[simp] theorem finishBody_irqEn (s : State) : (finishBody s).irqEn = s.irqEn := by cases h : s.decMarker <;> simp [finishBody, h]
@[simp] theorem finishBody_phase (s : State) : (finishBody s).phase = .trailer := by cases h : s.decMarker <;> simp [finishBody, h]
@[simp] theorem finishBody_errKind (s : State) : (finishBody s).errKind = s.errKind := by cases h : s.decMarker <;> simp [finishBody, h]
@[simp] theorem finishBody_errCause (s : State) : (finishBody s).errCause = s.errCause := by cases h : s.decMarker <;> simp [finishBody, h]
@[simp] theorem finishBody_markerSeen (s : State) : (finishBody s).markerSeen = s.markerSeen := by cases h : s.decMarker <;> simp [finishBody, h]
@[simp] theorem finishBody_passMode (s : State) : (finishBody s).passMode = s.passMode := by cases h : s.decMarker <;> simp [finishBody, h]
@[simp] theorem finishBody_width (s : State) : (finishBody s).width = s.width := by cases h : s.decMarker <;> simp [finishBody, h]
@[simp] theorem finishBody_height (s : State) : (finishBody s).height = s.height := by cases h : s.decMarker <;> simp [finishBody, h]
@[simp] theorem finishBody_channels (s : State) : (finishBody s).channels = s.channels := by cases h : s.decMarker <;> simp [finishBody, h]
@[simp] theorem finishBody_colorspace (s : State) : (finishBody s).colorspace = s.colorspace := by cases h : s.decMarker <;> simp [finishBody, h]
@[simp] theorem finishBody_pixCount (s : State) : (finishBody s).pixCount = s.pixCount := by cases h : s.decMarker <;> simp [finishBody, h]
@[simp] theorem finishBody_inCount (s : State) : (finishBody s).inCount = s.inCount := by cases h : s.decMarker <;> simp [finishBody, h]
@[simp] theorem finishBody_outCount (s : State) : (finishBody s).outCount = s.outCount := by cases h : s.decMarker <;> simp [finishBody, h]
@[simp] theorem finishBody_magic (s : State) : (finishBody s).magic = s.magic := by cases h : s.decMarker <;> simp [finishBody, h]
@[simp] theorem finishBody_prev (s : State) : (finishBody s).prev = s.prev := by cases h : s.decMarker <;> simp [finishBody, h]
@[simp] theorem finishBody_cache (s : State) : (finishBody s).cache = s.cache := by cases h : s.decMarker <;> simp [finishBody, h]
@[simp] theorem finishBody_target (s : State) : (finishBody s).target = s.target := by cases h : s.decMarker <;> simp [finishBody, h]
@[simp] theorem finishBody_run (s : State) : (finishBody s).run = s.run := by cases h : s.decMarker <;> simp [finishBody, h]
@[simp] theorem finishBody_hdrBuf (s : State) : (finishBody s).hdrBuf = s.hdrBuf := by cases h : s.decMarker <;> simp [finishBody, h]
@[simp] theorem finishBody_tag (s : State) : (finishBody s).tag = s.tag := by cases h : s.decMarker <;> simp [finishBody, h]
@[simp] theorem finishBody_pay (s : State) : (finishBody s).pay = s.pay := by cases h : s.decMarker <;> simp [finishBody, h]
@[simp] theorem finishBody_pin (s : State) : (finishBody s).pin = s.pin := by cases h : s.decMarker <;> simp [finishBody, h]
@[simp] theorem finishBody_inTok (s : State) : (finishBody s).inTok = s.inTok := by cases h : s.decMarker <;> simp [finishBody, h]
@[simp] theorem finishBody_inPass (s : State) : (finishBody s).inPass = s.inPass := by cases h : s.decMarker <;> simp [finishBody, h]
@[simp] theorem finishBody_outAns (s : State) : (finishBody s).outAns = s.outAns := by cases h : s.decMarker <;> simp [finishBody, h]
@[simp] theorem finishBody_outStream (s : State) : (finishBody s).outStream = s.outStream := by cases h : s.decMarker <;> simp [finishBody, h]
@[simp] theorem finishBody_csrData (s : State) : (finishBody s).csrData = s.csrData := by cases h : s.decMarker <;> simp [finishBody, h]
@[simp] theorem finishBody_events (s : State) : (finishBody s).events = s.events := by cases h : s.decMarker <;> simp [finishBody, h]

/-! ### nextChunk -/

@[simp] theorem nextChunk_mode (s : State) : (nextChunk s).mode = s.mode := by unfold nextChunk; split <;> simp
@[simp] theorem nextChunk_encMarker (s : State) : (nextChunk s).encMarker = s.encMarker := by unfold nextChunk; split <;> simp
@[simp] theorem nextChunk_decMarker (s : State) : (nextChunk s).decMarker = s.decMarker := by unfold nextChunk; split <;> simp
@[simp] theorem nextChunk_irqEn (s : State) : (nextChunk s).irqEn = s.irqEn := by unfold nextChunk; split <;> simp
@[simp] theorem nextChunk_errKind (s : State) : (nextChunk s).errKind = s.errKind := by unfold nextChunk; split <;> simp
@[simp] theorem nextChunk_errCause (s : State) : (nextChunk s).errCause = s.errCause := by unfold nextChunk; split <;> simp
@[simp] theorem nextChunk_markerSeen (s : State) : (nextChunk s).markerSeen = s.markerSeen := by unfold nextChunk; split <;> simp
@[simp] theorem nextChunk_passMode (s : State) : (nextChunk s).passMode = s.passMode := by unfold nextChunk; split <;> simp
@[simp] theorem nextChunk_width (s : State) : (nextChunk s).width = s.width := by unfold nextChunk; split <;> simp
@[simp] theorem nextChunk_height (s : State) : (nextChunk s).height = s.height := by unfold nextChunk; split <;> simp
@[simp] theorem nextChunk_channels (s : State) : (nextChunk s).channels = s.channels := by unfold nextChunk; split <;> simp
@[simp] theorem nextChunk_colorspace (s : State) : (nextChunk s).colorspace = s.colorspace := by unfold nextChunk; split <;> simp
@[simp] theorem nextChunk_pixCount (s : State) : (nextChunk s).pixCount = s.pixCount := by unfold nextChunk; split <;> simp
@[simp] theorem nextChunk_inCount (s : State) : (nextChunk s).inCount = s.inCount := by unfold nextChunk; split <;> simp
@[simp] theorem nextChunk_outCount (s : State) : (nextChunk s).outCount = s.outCount := by unfold nextChunk; split <;> simp
@[simp] theorem nextChunk_magic (s : State) : (nextChunk s).magic = s.magic := by unfold nextChunk; split <;> simp
@[simp] theorem nextChunk_prev (s : State) : (nextChunk s).prev = s.prev := by unfold nextChunk; split <;> simp
@[simp] theorem nextChunk_cache (s : State) : (nextChunk s).cache = s.cache := by unfold nextChunk; split <;> simp
@[simp] theorem nextChunk_target (s : State) : (nextChunk s).target = s.target := by unfold nextChunk; split <;> simp
@[simp] theorem nextChunk_run (s : State) : (nextChunk s).run = s.run := by unfold nextChunk; split <;> simp
@[simp] theorem nextChunk_hdrBuf (s : State) : (nextChunk s).hdrBuf = s.hdrBuf := by unfold nextChunk; split <;> simp
@[simp] theorem nextChunk_tag (s : State) : (nextChunk s).tag = s.tag := by unfold nextChunk; split <;> simp
@[simp] theorem nextChunk_pay (s : State) : (nextChunk s).pay = s.pay := by unfold nextChunk; split <;> simp
@[simp] theorem nextChunk_pin (s : State) : (nextChunk s).pin = s.pin := by unfold nextChunk; split <;> simp
@[simp] theorem nextChunk_inTok (s : State) : (nextChunk s).inTok = s.inTok := by unfold nextChunk; split <;> simp
@[simp] theorem nextChunk_inPass (s : State) : (nextChunk s).inPass = s.inPass := by unfold nextChunk; split <;> simp
@[simp] theorem nextChunk_outAns (s : State) : (nextChunk s).outAns = s.outAns := by unfold nextChunk; split <;> simp
@[simp] theorem nextChunk_outStream (s : State) : (nextChunk s).outStream = s.outStream := by unfold nextChunk; split <;> simp
@[simp] theorem nextChunk_csrData (s : State) : (nextChunk s).csrData = s.csrData := by unfold nextChunk; split <;> simp
@[simp] theorem nextChunk_events (s : State) : (nextChunk s).events = s.events := by unfold nextChunk; split <;> simp

/-! ### finishEnc -/

@[simp] theorem finishEnc_mode (s : State) : (finishEnc s).mode = s.mode := by unfold finishEnc; split <;> rfl
@[simp] theorem finishEnc_encMarker (s : State) : (finishEnc s).encMarker = s.encMarker := by unfold finishEnc; split <;> rfl
@[simp] theorem finishEnc_decMarker (s : State) : (finishEnc s).decMarker = s.decMarker := by unfold finishEnc; split <;> rfl
@[simp] theorem finishEnc_irqEn (s : State) : (finishEnc s).irqEn = s.irqEn := by unfold finishEnc; split <;> rfl
@[simp] theorem finishEnc_phase (s : State) : (finishEnc s).phase = .trailer := by unfold finishEnc; split <;> rfl
@[simp] theorem finishEnc_errKind (s : State) : (finishEnc s).errKind = s.errKind := by unfold finishEnc; split <;> rfl
@[simp] theorem finishEnc_errCause (s : State) : (finishEnc s).errCause = s.errCause := by unfold finishEnc; split <;> rfl
@[simp] theorem finishEnc_markerSeen (s : State) : (finishEnc s).markerSeen = s.markerSeen := by unfold finishEnc; split <;> rfl
@[simp] theorem finishEnc_passMode (s : State) : (finishEnc s).passMode = s.passMode := by unfold finishEnc; split <;> rfl
@[simp] theorem finishEnc_width (s : State) : (finishEnc s).width = s.width := by unfold finishEnc; split <;> rfl
@[simp] theorem finishEnc_height (s : State) : (finishEnc s).height = s.height := by unfold finishEnc; split <;> rfl
@[simp] theorem finishEnc_channels (s : State) : (finishEnc s).channels = s.channels := by unfold finishEnc; split <;> rfl
@[simp] theorem finishEnc_colorspace (s : State) : (finishEnc s).colorspace = s.colorspace := by unfold finishEnc; split <;> rfl
@[simp] theorem finishEnc_pixCount (s : State) : (finishEnc s).pixCount = s.pixCount := by unfold finishEnc; split <;> rfl
@[simp] theorem finishEnc_inCount (s : State) : (finishEnc s).inCount = s.inCount := by unfold finishEnc; split <;> rfl
@[simp] theorem finishEnc_outCount (s : State) : (finishEnc s).outCount = s.outCount := by unfold finishEnc; split <;> rfl
@[simp] theorem finishEnc_magic (s : State) : (finishEnc s).magic = s.magic := by unfold finishEnc; split <;> rfl
@[simp] theorem finishEnc_prev (s : State) : (finishEnc s).prev = s.prev := by unfold finishEnc; split <;> rfl
@[simp] theorem finishEnc_cache (s : State) : (finishEnc s).cache = s.cache := by unfold finishEnc; split <;> rfl
@[simp] theorem finishEnc_target (s : State) : (finishEnc s).target = s.target := by unfold finishEnc; split <;> rfl
@[simp] theorem finishEnc_run (s : State) : (finishEnc s).run = s.run := by unfold finishEnc; split <;> rfl
@[simp] theorem finishEnc_hdrBuf (s : State) : (finishEnc s).hdrBuf = s.hdrBuf := by unfold finishEnc; split <;> rfl
@[simp] theorem finishEnc_tag (s : State) : (finishEnc s).tag = s.tag := by unfold finishEnc; split <;> rfl
@[simp] theorem finishEnc_pay (s : State) : (finishEnc s).pay = s.pay := by unfold finishEnc; split <;> rfl
@[simp] theorem finishEnc_pin (s : State) : (finishEnc s).pin = s.pin := by unfold finishEnc; split <;> rfl
@[simp] theorem finishEnc_inTok (s : State) : (finishEnc s).inTok = s.inTok := by unfold finishEnc; split <;> rfl
@[simp] theorem finishEnc_inPass (s : State) : (finishEnc s).inPass = s.inPass := by unfold finishEnc; split <;> rfl
@[simp] theorem finishEnc_outAns (s : State) : (finishEnc s).outAns = s.outAns := by unfold finishEnc; split <;> rfl
@[simp] theorem finishEnc_outStream (s : State) : (finishEnc s).outStream = s.outStream := by unfold finishEnc; split <;> rfl
@[simp] theorem finishEnc_csrData (s : State) : (finishEnc s).csrData = s.csrData := by unfold finishEnc; split <;> rfl
@[simp] theorem finishEnc_events (s : State) : (finishEnc s).events = s.events := by unfold finishEnc; split <;> rfl

/-! ### nextPixel -/

@[simp] theorem nextPixel_mode (s : State) : (nextPixel s).mode = s.mode := by unfold nextPixel; split <;> simp
@[simp] theorem nextPixel_encMarker (s : State) : (nextPixel s).encMarker = s.encMarker := by unfold nextPixel; split <;> simp
@[simp] theorem nextPixel_decMarker (s : State) : (nextPixel s).decMarker = s.decMarker := by unfold nextPixel; split <;> simp
@[simp] theorem nextPixel_irqEn (s : State) : (nextPixel s).irqEn = s.irqEn := by unfold nextPixel; split <;> simp
@[simp] theorem nextPixel_errKind (s : State) : (nextPixel s).errKind = s.errKind := by unfold nextPixel; split <;> simp
@[simp] theorem nextPixel_errCause (s : State) : (nextPixel s).errCause = s.errCause := by unfold nextPixel; split <;> simp
@[simp] theorem nextPixel_markerSeen (s : State) : (nextPixel s).markerSeen = s.markerSeen := by unfold nextPixel; split <;> simp
@[simp] theorem nextPixel_passMode (s : State) : (nextPixel s).passMode = s.passMode := by unfold nextPixel; split <;> simp
@[simp] theorem nextPixel_width (s : State) : (nextPixel s).width = s.width := by unfold nextPixel; split <;> simp
@[simp] theorem nextPixel_height (s : State) : (nextPixel s).height = s.height := by unfold nextPixel; split <;> simp
@[simp] theorem nextPixel_channels (s : State) : (nextPixel s).channels = s.channels := by unfold nextPixel; split <;> simp
@[simp] theorem nextPixel_colorspace (s : State) : (nextPixel s).colorspace = s.colorspace := by unfold nextPixel; split <;> simp
@[simp] theorem nextPixel_pixCount (s : State) : (nextPixel s).pixCount = s.pixCount := by unfold nextPixel; split <;> simp
@[simp] theorem nextPixel_inCount (s : State) : (nextPixel s).inCount = s.inCount := by unfold nextPixel; split <;> simp
@[simp] theorem nextPixel_outCount (s : State) : (nextPixel s).outCount = s.outCount := by unfold nextPixel; split <;> simp
@[simp] theorem nextPixel_magic (s : State) : (nextPixel s).magic = s.magic := by unfold nextPixel; split <;> simp
@[simp] theorem nextPixel_prev (s : State) : (nextPixel s).prev = s.prev := by unfold nextPixel; split <;> simp
@[simp] theorem nextPixel_cache (s : State) : (nextPixel s).cache = s.cache := by unfold nextPixel; split <;> simp
@[simp] theorem nextPixel_target (s : State) : (nextPixel s).target = s.target := by unfold nextPixel; split <;> simp
@[simp] theorem nextPixel_run (s : State) : (nextPixel s).run = s.run := by unfold nextPixel; split <;> simp
@[simp] theorem nextPixel_hdrBuf (s : State) : (nextPixel s).hdrBuf = s.hdrBuf := by unfold nextPixel; split <;> simp
@[simp] theorem nextPixel_tag (s : State) : (nextPixel s).tag = s.tag := by unfold nextPixel; split <;> simp
@[simp] theorem nextPixel_pay (s : State) : (nextPixel s).pay = s.pay := by unfold nextPixel; split <;> simp
@[simp] theorem nextPixel_pin (s : State) : (nextPixel s).pin = s.pin := by unfold nextPixel; split <;> simp
@[simp] theorem nextPixel_inTok (s : State) : (nextPixel s).inTok = s.inTok := by unfold nextPixel; split <;> simp
@[simp] theorem nextPixel_inPass (s : State) : (nextPixel s).inPass = s.inPass := by unfold nextPixel; split <;> simp
@[simp] theorem nextPixel_outAns (s : State) : (nextPixel s).outAns = s.outAns := by unfold nextPixel; split <;> simp
@[simp] theorem nextPixel_outStream (s : State) : (nextPixel s).outStream = s.outStream := by unfold nextPixel; split <;> simp
@[simp] theorem nextPixel_csrData (s : State) : (nextPixel s).csrData = s.csrData := by unfold nextPixel; split <;> simp
@[simp] theorem nextPixel_events (s : State) : (nextPixel s).events = s.events := by unfold nextPixel; split <;> simp

/-! ### storeCtrl -/

@[simp] theorem storeCtrl_irqEn (m : PassMode) (em : Bool) (dm : BitVec 2) (iq : Bool) (s : State) : (storeCtrl m em dm iq s).irqEn = iq := by unfold storeCtrl; split <;> rfl
@[simp] theorem storeCtrl_state (m : PassMode) (em : Bool) (dm : BitVec 2) (iq : Bool) (s : State) : (storeCtrl m em dm iq s).state = s.state := by unfold storeCtrl; split <;> rfl
@[simp] theorem storeCtrl_phase (m : PassMode) (em : Bool) (dm : BitVec 2) (iq : Bool) (s : State) : (storeCtrl m em dm iq s).phase = s.phase := by unfold storeCtrl; split <;> rfl
@[simp] theorem storeCtrl_errKind (m : PassMode) (em : Bool) (dm : BitVec 2) (iq : Bool) (s : State) : (storeCtrl m em dm iq s).errKind = s.errKind := by unfold storeCtrl; split <;> rfl
@[simp] theorem storeCtrl_errCause (m : PassMode) (em : Bool) (dm : BitVec 2) (iq : Bool) (s : State) : (storeCtrl m em dm iq s).errCause = s.errCause := by unfold storeCtrl; split <;> rfl
@[simp] theorem storeCtrl_markerSeen (m : PassMode) (em : Bool) (dm : BitVec 2) (iq : Bool) (s : State) : (storeCtrl m em dm iq s).markerSeen = s.markerSeen := by unfold storeCtrl; split <;> rfl
@[simp] theorem storeCtrl_passMode (m : PassMode) (em : Bool) (dm : BitVec 2) (iq : Bool) (s : State) : (storeCtrl m em dm iq s).passMode = s.passMode := by unfold storeCtrl; split <;> rfl
@[simp] theorem storeCtrl_width (m : PassMode) (em : Bool) (dm : BitVec 2) (iq : Bool) (s : State) : (storeCtrl m em dm iq s).width = s.width := by unfold storeCtrl; split <;> rfl
@[simp] theorem storeCtrl_height (m : PassMode) (em : Bool) (dm : BitVec 2) (iq : Bool) (s : State) : (storeCtrl m em dm iq s).height = s.height := by unfold storeCtrl; split <;> rfl
@[simp] theorem storeCtrl_channels (m : PassMode) (em : Bool) (dm : BitVec 2) (iq : Bool) (s : State) : (storeCtrl m em dm iq s).channels = s.channels := by unfold storeCtrl; split <;> rfl
@[simp] theorem storeCtrl_colorspace (m : PassMode) (em : Bool) (dm : BitVec 2) (iq : Bool) (s : State) : (storeCtrl m em dm iq s).colorspace = s.colorspace := by unfold storeCtrl; split <;> rfl
@[simp] theorem storeCtrl_pixCount (m : PassMode) (em : Bool) (dm : BitVec 2) (iq : Bool) (s : State) : (storeCtrl m em dm iq s).pixCount = s.pixCount := by unfold storeCtrl; split <;> rfl
@[simp] theorem storeCtrl_inCount (m : PassMode) (em : Bool) (dm : BitVec 2) (iq : Bool) (s : State) : (storeCtrl m em dm iq s).inCount = s.inCount := by unfold storeCtrl; split <;> rfl
@[simp] theorem storeCtrl_outCount (m : PassMode) (em : Bool) (dm : BitVec 2) (iq : Bool) (s : State) : (storeCtrl m em dm iq s).outCount = s.outCount := by unfold storeCtrl; split <;> rfl
@[simp] theorem storeCtrl_magic (m : PassMode) (em : Bool) (dm : BitVec 2) (iq : Bool) (s : State) : (storeCtrl m em dm iq s).magic = s.magic := by unfold storeCtrl; split <;> rfl
@[simp] theorem storeCtrl_prev (m : PassMode) (em : Bool) (dm : BitVec 2) (iq : Bool) (s : State) : (storeCtrl m em dm iq s).prev = s.prev := by unfold storeCtrl; split <;> rfl
@[simp] theorem storeCtrl_cache (m : PassMode) (em : Bool) (dm : BitVec 2) (iq : Bool) (s : State) : (storeCtrl m em dm iq s).cache = s.cache := by unfold storeCtrl; split <;> rfl
@[simp] theorem storeCtrl_target (m : PassMode) (em : Bool) (dm : BitVec 2) (iq : Bool) (s : State) : (storeCtrl m em dm iq s).target = s.target := by unfold storeCtrl; split <;> rfl
@[simp] theorem storeCtrl_run (m : PassMode) (em : Bool) (dm : BitVec 2) (iq : Bool) (s : State) : (storeCtrl m em dm iq s).run = s.run := by unfold storeCtrl; split <;> rfl
@[simp] theorem storeCtrl_sub (m : PassMode) (em : Bool) (dm : BitVec 2) (iq : Bool) (s : State) : (storeCtrl m em dm iq s).sub = s.sub := by unfold storeCtrl; split <;> rfl
@[simp] theorem storeCtrl_hdrBuf (m : PassMode) (em : Bool) (dm : BitVec 2) (iq : Bool) (s : State) : (storeCtrl m em dm iq s).hdrBuf = s.hdrBuf := by unfold storeCtrl; split <;> rfl
@[simp] theorem storeCtrl_tag (m : PassMode) (em : Bool) (dm : BitVec 2) (iq : Bool) (s : State) : (storeCtrl m em dm iq s).tag = s.tag := by unfold storeCtrl; split <;> rfl
@[simp] theorem storeCtrl_pay (m : PassMode) (em : Bool) (dm : BitVec 2) (iq : Bool) (s : State) : (storeCtrl m em dm iq s).pay = s.pay := by unfold storeCtrl; split <;> rfl
@[simp] theorem storeCtrl_pin (m : PassMode) (em : Bool) (dm : BitVec 2) (iq : Bool) (s : State) : (storeCtrl m em dm iq s).pin = s.pin := by unfold storeCtrl; split <;> rfl
@[simp] theorem storeCtrl_inTok (m : PassMode) (em : Bool) (dm : BitVec 2) (iq : Bool) (s : State) : (storeCtrl m em dm iq s).inTok = s.inTok := by unfold storeCtrl; split <;> rfl
@[simp] theorem storeCtrl_inPass (m : PassMode) (em : Bool) (dm : BitVec 2) (iq : Bool) (s : State) : (storeCtrl m em dm iq s).inPass = s.inPass := by unfold storeCtrl; split <;> rfl
@[simp] theorem storeCtrl_outAns (m : PassMode) (em : Bool) (dm : BitVec 2) (iq : Bool) (s : State) : (storeCtrl m em dm iq s).outAns = s.outAns := by unfold storeCtrl; split <;> rfl
@[simp] theorem storeCtrl_outStream (m : PassMode) (em : Bool) (dm : BitVec 2) (iq : Bool) (s : State) : (storeCtrl m em dm iq s).outStream = s.outStream := by unfold storeCtrl; split <;> rfl
@[simp] theorem storeCtrl_csrData (m : PassMode) (em : Bool) (dm : BitVec 2) (iq : Bool) (s : State) : (storeCtrl m em dm iq s).csrData = s.csrData := by unfold storeCtrl; split <;> rfl
@[simp] theorem storeCtrl_events (m : PassMode) (em : Bool) (dm : BitVec 2) (iq : Bool) (s : State) : (storeCtrl m em dm iq s).events = s.events := by unfold storeCtrl; split <;> rfl

/-! ### emit -/

@[simp] theorem emit_mode (q : List Byte) (s : State) : (emit q s).mode = s.mode := by cases q <;> simp [emit]
@[simp] theorem emit_encMarker (q : List Byte) (s : State) : (emit q s).encMarker = s.encMarker := by cases q <;> simp [emit]
@[simp] theorem emit_decMarker (q : List Byte) (s : State) : (emit q s).decMarker = s.decMarker := by cases q <;> simp [emit]
@[simp] theorem emit_irqEn (q : List Byte) (s : State) : (emit q s).irqEn = s.irqEn := by cases q <;> simp [emit]
@[simp] theorem emit_errKind (q : List Byte) (s : State) : (emit q s).errKind = s.errKind := by cases q <;> simp [emit]
@[simp] theorem emit_errCause (q : List Byte) (s : State) : (emit q s).errCause = s.errCause := by cases q <;> simp [emit]
@[simp] theorem emit_markerSeen (q : List Byte) (s : State) : (emit q s).markerSeen = s.markerSeen := by cases q <;> simp [emit]
@[simp] theorem emit_passMode (q : List Byte) (s : State) : (emit q s).passMode = s.passMode := by cases q <;> simp [emit]
@[simp] theorem emit_width (q : List Byte) (s : State) : (emit q s).width = s.width := by cases q <;> simp [emit]
@[simp] theorem emit_height (q : List Byte) (s : State) : (emit q s).height = s.height := by cases q <;> simp [emit]
@[simp] theorem emit_channels (q : List Byte) (s : State) : (emit q s).channels = s.channels := by cases q <;> simp [emit]
@[simp] theorem emit_colorspace (q : List Byte) (s : State) : (emit q s).colorspace = s.colorspace := by cases q <;> simp [emit]
@[simp] theorem emit_pixCount (q : List Byte) (s : State) : (emit q s).pixCount = s.pixCount := by cases q <;> simp [emit]
@[simp] theorem emit_inCount (q : List Byte) (s : State) : (emit q s).inCount = s.inCount := by cases q <;> simp [emit]
@[simp] theorem emit_outCount (q : List Byte) (s : State) : (emit q s).outCount = s.outCount := by cases q <;> simp [emit]
@[simp] theorem emit_magic (q : List Byte) (s : State) : (emit q s).magic = s.magic := by cases q <;> simp [emit]
@[simp] theorem emit_prev (q : List Byte) (s : State) : (emit q s).prev = s.prev := by cases q <;> simp [emit]
@[simp] theorem emit_cache (q : List Byte) (s : State) : (emit q s).cache = s.cache := by cases q <;> simp [emit]
@[simp] theorem emit_target (q : List Byte) (s : State) : (emit q s).target = s.target := by cases q <;> simp [emit]
@[simp] theorem emit_run (q : List Byte) (s : State) : (emit q s).run = s.run := by cases q <;> simp [emit]
@[simp] theorem emit_hdrBuf (q : List Byte) (s : State) : (emit q s).hdrBuf = s.hdrBuf := by cases q <;> simp [emit]
@[simp] theorem emit_tag (q : List Byte) (s : State) : (emit q s).tag = s.tag := by cases q <;> simp [emit]
@[simp] theorem emit_pay (q : List Byte) (s : State) : (emit q s).pay = s.pay := by cases q <;> simp [emit]
@[simp] theorem emit_pin (q : List Byte) (s : State) : (emit q s).pin = s.pin := by cases q <;> simp [emit]
@[simp] theorem emit_inTok (q : List Byte) (s : State) : (emit q s).inTok = s.inTok := by cases q <;> simp [emit]
@[simp] theorem emit_inPass (q : List Byte) (s : State) : (emit q s).inPass = s.inPass := by cases q <;> simp [emit]
@[simp] theorem emit_outAns (q : List Byte) (s : State) : (emit q s).outAns = s.outAns := by cases q <;> simp [emit]
@[simp] theorem emit_outStream (q : List Byte) (s : State) : (emit q s).outStream = s.outStream := by cases q <;> simp [emit]
@[simp] theorem emit_csrData (q : List Byte) (s : State) : (emit q s).csrData = s.csrData := by cases q <;> simp [emit]
@[simp] theorem emit_events (q : List Byte) (s : State) : (emit q s).events = s.events := by cases q <;> simp [emit]

end Sys2Proof.Machine
end

