-- ==== Sys2Proof/Laws/Operands.lean ====
section
/-! SUPPORT. What the operand functions compute: channel arithmetic, the cache, the legal field values. -/

namespace Sys2Proof.Machine

theorem add8_toNat (x : Byte) (d : Int) : ((add8 x d).toNat : Int) = ((x.toNat : Int) + d) % 256 := by
  simp [add8, BitVec.toNat_ofInt]
  omega

theorem sub8s_bounds (x y : Byte) : -128 ≤ sub8s x y ∧ sub8s x y ≤ 127 := by
  simp only [sub8s]
  split <;> omega

/-- The wrapped difference added back gives the channel again (00_scope.md R8). -/
theorem add8_sub8s (x y : Byte) : add8 y (sub8s x y) = x := by
  apply BitVec.eq_of_toNat_eq
  have h := add8_toNat y (sub8s x y)
  have hx := x.isLt
  have hy := y.isLt
  simp only [sub8s] at h ⊢
  split at h <;> split <;> omega

theorem add8_zero (x : Byte) : add8 x 0 = x := by
  apply BitVec.eq_of_toNat_eq
  have h := add8_toNat x 0
  have hx := x.isLt
  omega

theorem hash_val (p : Pixel) :
    (hash p).val = (p.r.toNat * 3 + p.g.toNat * 5 + p.b.toNat * 7 + p.a.toNat * 11) % 64 := rfl

/-- A cache write is read back from the slot of the pixel's hash (41_hash_cache.md R123). -/
@[simp] theorem cacheWrite_get_hash (c : Vector Pixel 64) (p : Pixel) : (cacheWrite c p).get (hash p) = p := by
  simp [cacheWrite, Vector.get_eq_getElem]

/-- A cache write leaves every other slot alone (41_hash_cache.md R123, R126). -/
theorem cacheWrite_get_of_ne {c : Vector Pixel 64} {p : Pixel} {k : Fin 64} (h : hash p ≠ k) :
    (cacheWrite c p).get k = c.get k := by
  simp only [cacheWrite, Vector.get_eq_getElem]
  exact Vector.getElem_set_ne _ _ (fun e => h (Fin.ext e))

theorem cacheWrite_get (c : Vector Pixel 64) (p : Pixel) (k : Fin 64) :
    (cacheWrite c p).get k = if hash p = k then p else c.get k := by
  split
  · next h => subst h; simp
  · next h => exact cacheWrite_get_of_ne h

@[simp] theorem clearCache_get (k : Fin 64) : clearCache.get k = .zero := by
  simp [clearCache, Vector.get_eq_getElem]

theorem legalChannels_iff (c : Byte) : legalChannels c = true ↔ c = 3 ∨ c = 4 := by simp [legalChannels]

theorem legalColorspace_iff (c : Byte) : legalColorspace c = true ↔ c = 0 ∨ c = 1 := by simp [legalColorspace]

/-- TARGET is the exact product: it cannot overflow (00_scope.md R4). -/
theorem pixelTarget_toNat (w h : Word) : (pixelTarget w h).toNat = w.toNat * h.toNat := by
  have hw := w.isLt
  have hh := h.isLt
  have : w.toNat * h.toNat ≤ (2 ^ 32 - 1) * (2 ^ 32 - 1) := Nat.mul_le_mul (by omega) (by omega)
  simp only [pixelTarget, BitVec.toNat_ofNat]
  exact Nat.mod_eq_of_lt (by omega)

theorem inRange_iff (lo hi d : Int) : inRange lo hi d = true ↔ lo ≤ d ∧ d ≤ hi := by simp [inRange]

/-- DEC_MARKER is written with a legal value, or kept (10_state.md R39). -/
theorem writeDecMarker_three (old : DecMarker) : writeDecMarker old 3 = old := rfl

end Sys2Proof.Machine
end

