-- ==== Sys2Proof/Laws/Ops.lean ====
section
/-! SUPPORT. What each shared operation can do, said once. -/

namespace Sys2Proof.Machine

/-- `finish_body()`: DONE in mode NONE, else D_MARK(0), in the trailer (43_decode_engine.md R180). -/
theorem finishBody_cases (s : State) :
    (s.decMarker = .none ∧ finishBody s = { s with phase := .trailer, state := .done, sub := .none })
    ∨ (s.decMarker ≠ .none ∧ finishBody s = { s with phase := .trailer, sub := .dMark 0 }) := by
  cases h : s.decMarker <;> simp [finishBody, finish, h]

/-- `next_chunk()`: the next tag, or the end of the body (43_decode_engine.md R179). -/
theorem nextChunk_cases (s : State) :
    (s.pixCount ≠ s.target ∧ nextChunk s = { s with sub := .dTag })
    ∨ (s.pixCount = s.target ∧ s.decMarker = .none
        ∧ nextChunk s = { s with phase := .trailer, state := .done, sub := .none })
    ∨ (s.pixCount = s.target ∧ s.decMarker ≠ .none
        ∧ nextChunk s = { s with phase := .trailer, sub := .dMark 0 }) := by
  unfold nextChunk
  by_cases h : s.pixCount = s.target
  · rcases finishBody_cases s with ⟨hm, he⟩ | ⟨hm, he⟩ <;> simp [h, hm, he]
  · simp [h]

/-- `next_pixel()`: the next input pixel, or the end of the body (44_encode_engine.md R218, R227). -/
theorem nextPixel_cases (s : State) :
    (s.pixCount ≠ s.target ∧ nextPixel s = { s with sub := .eIn 0 })
    ∨ (s.pixCount = s.target ∧ s.encMarker = true ∧ nextPixel s = { s with phase := .trailer, sub := .eMark 0 })
    ∨ (s.pixCount = s.target ∧ s.encMarker = false
        ∧ nextPixel s = { s with phase := .trailer, state := .done, sub := .none }) := by
  unfold nextPixel finishEnc finish
  by_cases h : s.pixCount = s.target <;> cases hm : s.encMarker <;> simp [h]

/-- An input step holds without a token and consumes the presented one otherwise (43_decode_engine.md R170). -/
theorem withToken_cases (f : Token → State → Result) (s : State) :
    (s.inTok = none ∧ withToken f s = .next s)
    ∨ (∃ t, s.inTok = some t ∧ withToken f s = f t { s with inTok := none }) := by
  unfold withToken
  cases h : s.inTok <;> simp

/-- An output step holds without an answer, fails on FAIL and counts the byte on ACK (10_state.md R23). -/
theorem withAnswer_cases (k : State → State) (s : State) :
    (s.outAns = none ∧ withAnswer k s = .next s)
    ∨ (s.outAns = some .fail ∧ withAnswer k s = .next (raise .writeFail { s with outAns := none }))
    ∨ (s.outAns = some .ack ∧ withAnswer k s = .next (k { s with outAns := none, outCount := s.outCount + 1 })) := by
  unfold withAnswer
  cases h : s.outAns with
  | none => simp
  | some a => cases a <;> simp

/-- Presenting puts the token on IN, or is no move (10_state.md R22, 70_reset_and_hazards.md R307). -/
theorem present_cases (t : Token) (s : State) :
    (s.inTok = none ∧ present t s = .next { s with inTok := some t, inPass := presentedToPass s })
    ∨ (s.inTok ≠ none ∧ present t s = .refused .tokenAlreadyPresented) := by
  unfold present
  cases h : s.inTok <;> simp

/-- Answering an offered byte notes the answer, an ACK delivers the byte; else it is no move (10_state.md R23,
70_reset_and_hazards.md R306, R307). -/
theorem answer_cases (a : Answer) (s : State) :
    (∃ b, offer s = some b ∧ s.outAns = none
      ∧ ((a = .ack ∧ answer a s = .next { s with outAns := some .ack, outStream := s.outStream ++ [b] })
        ∨ (a = .fail ∧ answer a s = .next { s with outAns := some .fail })))
    ∨ ((offer s = none ∨ s.outAns ≠ none) ∧ answer a s = .refused .answerNotOffered) := by
  unfold answer
  cases ho : offer s <;> cases ha : s.outAns <;> cases a <;> simp

/-- A CTRL word is one of the three commands or none (45_host_commands.md R241). -/
theorem decodeCtrl_cases (v : Word) :
    decodeCtrl v = .ok .abort
    ∨ (∃ em dm irq, decodeCtrl v = .ok (.startDecode em dm irq))
    ∨ (∃ em dm irq, decodeCtrl v = .ok (.startEncode em dm irq))
    ∨ decodeCtrl v = .error .notCommand := by
  unfold decodeCtrl
  split
  · simp
  · split
    · split <;> simp
    · simp

/-- Outside BUSY no core step is enabled (10_state.md R42). -/
theorem coreStep_not_busy {s : State} (h : s.state ≠ .busy) : coreStep s = .next s := by simp [coreStep, h]

/-- The longest list of chunks a pixel emits: a run byte and one chunk (44_encode_engine.md R203). -/
theorem encodePixel_length (p : Pixel) (s : State) : (encodePixel p s).1.length ≤ 2 := by
  unfold encodePixel
  split
  · split <;> simp
  · split <;> simp

end Sys2Proof.Machine
end

