-- ==== Sys2Proof/Laws/Decode.lean ====
section
/-! SUPPORT. What the decoder and the encoder compute, function by function. -/

namespace Sys2Proof

theorem bitField_lt (b : Byte) (hi lo : Nat) : bitField b hi lo < 2 ^ (hi + 1 - lo) :=
  Nat.mod_lt _ (Nat.two_pow_pos _)

theorem byteOf_toNat {n : Nat} (h : n < 256) : (byteOf n).toNat = n := by
  simp [byteOf]; omega

/-- The kind of a byte is decided by its value's range (30_encoding.md R83). -/
theorem kind_ranges (b : Byte) :
    (b.toNat < 0x40 ∧ kind b = .index) ∨ (0x40 ≤ b.toNat ∧ b.toNat < 0x80 ∧ kind b = .diff)
    ∨ (0x80 ≤ b.toNat ∧ b.toNat < 0xC0 ∧ kind b = .luma)
    ∨ (0xC0 ≤ b.toNat ∧ b.toNat < 0xFE ∧ kind b = .run)
    ∨ (b = 0xFE ∧ kind b = .rgb) ∨ (b = 0xFF ∧ kind b = .rgba) := by
  revert b; decide

/-- Big-endian bytes put together again (20_memory.md R69). -/
theorem be32_beBytes (w : Word) : be32 (beByte w 0) (beByte w 1) (beByte w 2) (beByte w 3) = w := by
  apply BitVec.eq_of_toNat_eq
  have h := w.isLt
  simp [be32, beByte]
  omega

/-- A word taken apart into the bytes it was put together from (20_memory.md R69). -/
theorem beByte_be32 (a b c d : Byte) :
    beByte (be32 a b c d) 0 = a ∧ beByte (be32 a b c d) 1 = b ∧ beByte (be32 a b c d) 2 = c
      ∧ beByte (be32 a b c d) 3 = d := by
  have ha := a.isLt
  have hb := b.isLt
  have hc := c.isLt
  have hd := d.isLt
  refine ⟨?_, ?_, ?_, ?_⟩ <;> apply BitVec.eq_of_toNat_eq <;> simp [be32, beByte] <;> omega

end Sys2Proof
end

