-- ==== Sys2Proof/Laws/Flags.lean ====
section
/-! SUPPORT. The register words as numbers: each is the sum of its fields, none of which reaches into the next. -/

namespace Sys2Proof.Machine

theorem PassState.code_lt (c : PassState) : c.code < 4 := by cases c <;> decide

theorem Phase.code_lt (c : Phase) : c.code < 4 := by cases c <;> decide

theorem ErrKind.code_lt (c : ErrKind) : c.code < 4 := by cases c <;> decide

theorem ErrCause.code_lt (c : ErrCause) : c.code < 11 := by cases c <;> decide

theorem PassMode.code_lt (c : PassMode) : c.code < 2 := by cases c <;> decide

/-- DEC_MARKER never reads 3 (10_state.md R39). -/
theorem DecMarker.code_lt (c : DecMarker) : c.code < 3 := by cases c <;> decide

/-- STATUS as the sum of its fields (10_state.md R41). -/
theorem statusWord_toNat (s : State) :
    (statusWord s).toNat = s.state.code + 4 * s.phase.code + 16 * s.errKind.code + 256 * s.errCause.code
      + 4096 * s.markerSeen.toNat + 8192 * (irq s).toNat + 16384 * s.passMode.code := by
  have := s.state.code_lt
  have := s.phase.code_lt
  have := s.errKind.code_lt
  have := s.errCause.code_lt
  have := s.passMode.code_lt
  have := Bool.toNat_le s.markerSeen
  have := Bool.toNat_le (irq s)
  simp only [statusWord, BitVec.toNat_ofNat]
  omega

/-- CTRL as the sum of its fields (10_state.md R36). -/
theorem ctrlWord_toNat (s : State) :
    (ctrlWord s).toNat = 4 * s.mode.code + 8 * s.encMarker.toNat + 16 * s.decMarker.code + 64 * s.irqEn.toNat := by
  have := s.mode.code_lt
  have := s.decMarker.code_lt
  have := Bool.toNat_le s.encMarker
  have := Bool.toNat_le s.irqEn
  simp only [ctrlWord, BitVec.toNat_ofNat]
  omega

/-- FORMAT as the sum of its fields (10_state.md R48). -/
theorem formatWord_toNat (s : State) : (formatWord s).toNat = s.channels.toNat + 256 * s.colorspace.toNat := by
  have := s.channels.isLt
  have := s.colorspace.isLt
  simp only [formatWord, BitVec.toNat_ofNat]
  omega

theorem irq_iff (s : State) : irq s = true ↔ s.irqEn = true ∧ (s.state = .done ∨ s.state = .error) := by simp [irq]

theorem loWord_toNat (c : Count) : (loWord c).toNat = c.toNat % 2 ^ 32 := by simp [loWord]

theorem hiWord_toNat (c : Count) : (hiWord c).toNat = c.toNat / 2 ^ 32 := by
  have := c.isLt
  simp only [hiWord, BitVec.extractLsb'_toNat, Nat.shiftRight_eq_div_pow]
  omega

end Sys2Proof.Machine
end

