-- ==== Sys2Proof/Laws/Engine.lean ====
section
/-! SUPPORT. What a core step is in each sub-state, and the shared parts of the engines in the terms of the claims. -/

namespace Sys2Proof.Machine

open Sys2Proof.Safety

/-! ### Input sub-states: the step with its token (43_decode_engine.md R172 to R176, 44_encode_engine.md R202) -/

section
variable {s : State} {t : Token}

theorem coreStep_dHdr {i : Fin 14} (hb : s.state = .busy) (hs : s.sub = .dHdr i) (ht : s.inTok = some t) :
    coreStep s = stepDHdr i t (tokenTaken s) := by
  simp [coreStep, hb, hs, withToken, ht]; simp [tokenTaken, ← hs, ← hb]

theorem coreStep_dTag (hb : s.state = .busy) (hs : s.sub = .dTag) (ht : s.inTok = some t) :
    coreStep s = stepDTag t (tokenTaken s) := by
  simp [coreStep, hb, hs, withToken, ht]; simp [tokenTaken, ← hs, ← hb]

theorem coreStep_dPay {k : PayKind} {i : Fin 4} (hb : s.state = .busy) (hs : s.sub = .dPay k i)
    (ht : s.inTok = some t) : coreStep s = stepDPay k i t (tokenTaken s) := by
  simp [coreStep, hb, hs, withToken, ht]; simp [tokenTaken, ← hs, ← hb]

theorem coreStep_dMark {i : Fin 8} (hb : s.state = .busy) (hs : s.sub = .dMark i) (ht : s.inTok = some t) :
    coreStep s = stepDMark i t (tokenTaken s) := by
  simp [coreStep, hb, hs, withToken, ht]; simp [tokenTaken, ← hs, ← hb]

theorem coreStep_eIn {i : Fin 4} (hb : s.state = .busy) (hs : s.sub = .eIn i) (ht : s.inTok = some t) :
    coreStep s = stepEIn i t (tokenTaken s) := by
  simp [coreStep, hb, hs, withToken, ht]; simp [tokenTaken, ← hs, ← hb]

end

/-! ### Output sub-states: one offered byte and what follows its delivery -/

section
variable {s : State}

theorem coreStep_dOut {px : Pixel} {n : Nat} {j : Fin 4} (hb : s.state = .busy) (hs : s.sub = .dOut px n j)
    (ha : s.outAns = some .ack) :
    coreStep s = .next (afterPixelByte px n j (byteCounted s)) := by
  simp [coreStep, hb, hs, withAnswer, ha]; simp [byteCounted, ← hs, ← hb]

theorem coreStep_eHdr {j : Fin 14} (hb : s.state = .busy) (hs : s.sub = .eHdr j) (ha : s.outAns = some .ack) :
    coreStep s = .next (afterHeaderByte j (byteCounted s)) := by
  simp [coreStep, hb, hs, withAnswer, ha]; simp [byteCounted, ← hs, ← hb]

theorem coreStep_eOut {b : Byte} {q : List Byte} (hb : s.state = .busy) (hs : s.sub = .eOut b q)
    (ha : s.outAns = some .ack) : coreStep s = .next (emit q (byteCounted s)) := by
  simp [coreStep, hb, hs, withAnswer, ha]; simp [byteCounted, ← hs, ← hb]

theorem coreStep_eMark {j : Fin 8} (hb : s.state = .busy) (hs : s.sub = .eMark j) (ha : s.outAns = some .ack) :
    coreStep s = .next (afterMarkerByte j (byteCounted s)) := by
  simp [coreStep, hb, hs, withAnswer, ha]; simp [byteCounted, ← hs, ← hb]

end

/-- An offered byte that is answered FAIL ends the pass (60_exceptions.md R263). -/
theorem coreStep_fail {s : State} {b : Byte} (ho : offer s = some b) (ha : s.outAns = some .fail) :
    coreStep s = .next (raise .writeFail { s with outAns := none }) := by
  by_cases hb : s.state = .busy
  · cases hs : s.sub <;> simp [offer, hb, hs] at ho
    all_goals simp [coreStep, hb, hs, withAnswer, ha]
  · simp [offer, hb] at ho

/-! ### The shared parts in the terms of the claims -/

theorem raise_eq_inError (c : ErrCause) (s : State) : raise c s = inError c.kind c s := rfl

theorem complete_pixelCompleted (px : Pixel) (s : State) : PixelCompleted s (complete px s) px := by
  refine ⟨rfl, fun k => ?_⟩
  have h : hash px = k ↔ k.val = (px.r.toNat * 3 + px.g.toNat * 5 + px.b.toNat * 7 + px.a.toNat * 11) % 64 := by
    rw [← hash_val, Fin.ext_iff, eq_comm]
  simp only [complete, update, cacheWrite_get, h]

theorem nextChunk_spec (s : State) : NextChunk s (nextChunk s) := by
  rcases nextChunk_cases s with ⟨h, e⟩ | ⟨h, hm, e⟩ | ⟨h, hm, e⟩ <;> simp_all [NextChunk]

theorem nextPixel_spec (s : State) : NextPixel s (nextPixel s) := by
  rcases nextPixel_cases s with ⟨h, e⟩ | ⟨h, hm, e⟩ | ⟨h, hm, e⟩ <;> simp_all [NextPixel]

theorem chan_eq_channelByte (px : Pixel) (j : Fin 4) : chan px j = channelByte px j.val := by
  revert j; simp [Fin.forall_fin_succ, chan, channelByte]

theorem headerByte_eq (s : State) (j : Fin 14) :
    (headerBytes s.magic s.width s.height s.channels s.colorspace)[j.val]? = some (headerByte s j) := by
  have h : j.val < (headerBytes s.magic s.width s.height s.channels s.colorspace).length := by
    simp [headerBytes, beBytes]
  simp [headerByte, List.getElem?_eq_getElem h]

theorem markerByte_eq (i : Fin 8) : Config.markerByte i = if i.val = 7 then 0x01 else 0x00 := by
  revert i; decide

/-- The 14 bytes of HDRBUF are the header the core checks (30_encoding.md R81). -/
theorem decodeHeader_toList (v : Vector Byte 14) : decodeHeader v.toList = .ok (bufferedHeader v, []) := by
  obtain ⟨⟨l⟩, h⟩ := v
  simp only [List.size_toArray] at h
  match l, h with
  | [_, _, _, _, _, _, _, _, _, _, _, _, _, _], _ => rfl

/-! ### The encoder -/

/-- The signed wrapped difference is the only value of its range that leads back (00_scope.md R8). -/
theorem sub8s_unique {x y : Byte} {d : Int} (h1 : -128 ≤ d) (h2 : d ≤ 127)
    (h3 : ((y.toNat : Int) + d) % 256 = x.toNat) : sub8s x y = d := by
  have := x.isLt
  have := y.isLt
  simp only [sub8s]
  split <;> omega

/-- A pending run of at most 61 (44_encode_engine.md R226) counts on without wrapping. -/
theorem run_succ_toNat {r : BitVec 6} (h : r.toNat ≤ 61) : (r + 1).toNat = r.toNat + 1 := by
  have one : (1 : BitVec 6).toNat = 1 := rfl
  rw [BitVec.toNat_add, one]
  omega

theorem run_succ_eq_max {r : BitVec 6} (h : r.toNat ≤ 61) : r + 1 = 62 ↔ r.toNat + 1 = 62 := by
  rw [← run_succ_toNat h]
  constructor
  · intro e; rw [e]; rfl
  · intro e; exact BitVec.eq_of_toNat_eq e

/-- The chosen chunk has an encoding of at most five bytes (44_encode_engine.md R203). -/
theorem selectChunk_encodable (prev slot p : Pixel) :
    (selectChunk prev slot p).wellFormed = true ∧ (selectChunk prev slot p).position = .body
      ∧ (streamBytes (selectChunk prev slot p)).length ≤ 5 := by
  have hk := (hash p).isLt
  unfold selectChunk
  dsimp only
  split_ifs with h1 h2 h3 h4
  · simp [Instr.wellFormed, Instr.position, streamBytes, indexBytes]
  · obtain ⟨_, h2, h3, h4⟩ := h2
    simp [Instr.wellFormed, Instr.position, streamBytes, diffBytes, h2, h3, h4]
  · obtain ⟨_, h2, h3, h4⟩ := h3
    simp [Instr.wellFormed, Instr.position, streamBytes, lumaBytes, h2, h3, h4]
  · simp [Instr.wellFormed, Instr.position, streamBytes, rgbBytes]
  · simp [Instr.wellFormed, Instr.position, streamBytes, rgbaBytes]

/-- Decoding the chosen chunk, from the encoder's PREV and cache, gives the pixel and the encoder's next PREV and cache
(41_hash_cache.md R129). -/
theorem decode_selectChunk (prev : Pixel) (c : Vector Pixel 64) (p : Pixel) :
    decodeChunkRef (selectChunk prev (cacheRead c (hash p)) p) (prev, c) = some ([p], (p, cacheWrite c p)) := by
  unfold selectChunk
  dsimp only
  split_ifs with h1 h2 h3 h4
  · simp only [decodeChunkRef, onePixel]
    rw [dif_pos (hash p).isLt]
    simp only [cacheRead] at h1
    simp only [Fin.eta, h1]
    rfl
  · simp [decodeChunkRef, onePixel, add8_sub8s, ← h2.1, cacheWrite]
  · simp [decodeChunkRef, onePixel, add8_sub8s, ← h3.1, cacheWrite]
  · simp [decodeChunkRef, onePixel, ← h4, cacheWrite]
  · simp [decodeChunkRef, onePixel, cacheWrite]

/-- A chunk sequence decodes piece by piece. -/
theorem decodeChunksRef_append {a b : List Instr} {h h' h'' : History} {o o' : List Pixel}
    (ha : decodeChunksRef a h = some (o, h')) (hb : decodeChunksRef b h' = some (o', h'')) :
    decodeChunksRef (a ++ b) h = some (o ++ o', h'') := by
  induction a generalizing h o with
  | nil => simp only [decodeChunksRef, Option.some.injEq, Prod.mk.injEq] at ha; obtain ⟨rfl, rfl⟩ := ha; simpa
  | cons i a ih =>
    simp only [decodeChunksRef, List.cons_append] at ha ⊢
    rcases hc : decodeChunkRef i h with _ | ⟨x, y⟩ <;> simp only [hc, reduceCtorEq] at ha ⊢
    rcases hd : decodeChunksRef a y with _ | ⟨x', y'⟩ <;> simp only [hd, reduceCtorEq] at ha
    simp only [Option.some.injEq, Prod.mk.injEq] at ha
    obtain ⟨rfl, rfl⟩ := ha
    rw [ih hd]
    simp

end Sys2Proof.Machine
end

