-- ==== Sys2Proof/Tests/Slice0.lean ====
section
/-! SUPPORT. Small tests by evaluation, and for each obligation with hypotheses a concrete state that meets them. The
expected values are those of spec/95_test_vectors.md (its sections are named) and of the rules' own examples. -/

namespace Sys2Proof.Tests

open Sys2Proof.Machine Sys2Proof.Safety

/-! ### Small states -/

/-- One value of a next state. -/
def nextOf {α : Type} (f : State → α) : Result → Option α
  | .next s => some (f s)
  | .fault _ => none
  | .refused _ => none

/-- A decode pass of `n` x 1 pixels at its first tag, with a history. -/
def decodeAt (n : Word) (ch : Byte) (prev : Pixel) (sub : Sub) : State :=
  { acceptHeader n 1 ch 0 (startDecode State.reset) with phase := .body, prev := prev, sub := sub }

/-- An encode pass of `n` x 1 pixels at a sub-state. -/
def encodeAt (n : Word) (ch : Byte) (phase : Phase) (sub : Sub) : State :=
  { startEncode { State.reset with mode := .encode, width := n, height := 1, channels := ch } with
    phase := phase, sub := sub }

/-- With a token presented. -/
def withByte (b : Byte) (s : State) : State := { s with inTok := some (.byte b) }

/-- With the end of input presented. -/
def withEoi (s : State) : State := { s with inTok := some .eoi }

/-- With an answer given. -/
def withAns (a : Answer) (s : State) : State := { s with outAns := some a }

/-! ### WellFormed refuses each ill-formed term (30_encoding.md R97) -/

theorem test_index_slot_refused : (Instr.index 64).wellFormed = false := by decide
theorem test_diff_red_refused : (Instr.diff (-3) 0 0).wellFormed = false := by decide
theorem test_diff_green_refused : (Instr.diff 0 2 0).wellFormed = false := by decide
theorem test_diff_blue_refused : (Instr.diff 0 0 2).wellFormed = false := by decide
theorem test_luma_green_refused : (Instr.luma 32 0 0).wellFormed = false := by decide
theorem test_luma_red_refused : (Instr.luma 0 8 0).wellFormed = false := by decide
theorem test_luma_blue_refused : (Instr.luma 0 0 (-9)).wellFormed = false := by decide
theorem test_run_zero_refused : (Instr.run 0).wellFormed = false := by decide
theorem test_run_long_refused : (Instr.run 63).wellFormed = false := by decide
theorem test_assemble_refuses : assemble (.run 63) = none ∧ assemble (.run 62) = some (.bytes [0xFD]) := by decide

/-! ### Decoding words written out bit by bit (30_encoding.md R81 to R91, 10_state.md R36) -/

theorem test_decode_header :
    decode .header (.bytes [0b01110001, 0b01101111, 0b01101001, 0b01100110, 0b00010010, 0b00110100, 0b01010110,
      0b01111000, 0b10011010, 0b10111100, 0b11011110, 0b11110000, 0b00000011, 0b00000001])
      = .ok (.header 0x716F6966 0x12345678 0x9ABCDEF0 3 1) := by decide
theorem test_decode_rgb : decode .body (.bytes [0b11111110, 0b11111110, 0b11111111, 0b11000000])
    = .ok (.rgb 254 255 192) := by decide
theorem test_decode_rgba : decode .body (.bytes [0b11111111, 0b00000001, 0b00000010, 0b00000011, 0b00000100])
    = .ok (.rgba 1 2 3 4) := by decide
theorem test_decode_index : decode .body (.bytes [0b00110101]) = .ok (.index 53) := by decide
theorem test_decode_diff : decode .body (.bytes [0b01110010]) = .ok (.diff 1 (-2) 0) := by decide
theorem test_decode_luma : decode .body (.bytes [0b10111111, 0b00000000]) = .ok (.luma 31 (-8) (-8)) := by decide
theorem test_decode_run : decode .body (.bytes [0b11111101]) = .ok (.run 62) := by decide
theorem test_decode_end : decode .trailer (.bytes [0, 0, 0, 0, 0, 0, 0, 0b00000001]) = .ok .endMarker := by decide
theorem test_decode_start_decode :
    decode .ctrl (.ctrlWord 0b00000000000000000000000001010001) = .ok (.startDecode false 1 true) := by decide
theorem test_decode_start_encode :
    decode .ctrl (.ctrlWord 0b00000000000000000000000000101101) = .ok (.startEncode true 2 false) := by decide
theorem test_decode_abort : decode .ctrl (.ctrlWord 0b00000000000000000000000000000011) = .ok .abort := by decide
theorem test_decode_rejects :
    decode .body (.bytes [0xFF, 1, 2, 3]) = .error .truncated
    ∧ decode .trailer (.bytes [0, 0, 0, 0, 0, 0, 0, 2]) = .error .notMarker
    ∧ decode .ctrl (.ctrlWord 0x20) = .error .notCommand
    ∧ decode .body (.bytes [0x00, 0x00]) = .error .leftover := by decide

/-! ### The assembler (30_encoding.md R97, R98) -/

theorem test_assemble_rgb_line :
    assembleProgram 0x716F6966 [['R', 'G', 'B', ' ', '1', '0', ',', '0', 'x', '1', '4', ',', ' ', '3', '0', ';', 'x']]
      = some [0xFE, 0x0A, 0x14, 0x1E] := by decide
theorem test_assemble_negative_operand :
    assembleProgram 0x716F6966 [['D', 'I', 'F', 'F', ' ', '1', ',', '-', '1', ',', '0'], [], ['E', 'N', 'D']]
      = some [0x76, 0, 0, 0, 0, 0, 0, 0, 1] := by decide
theorem test_assemble_repeat : assembleRepeat 125 = some [.run 62, .run 62, .run 1] := by decide

/-! ### The opcode table's words, and the instruction they run as the first after reset (log entries 12, 13) -/

theorem test_table_word_rgb : decodeTableWord 32 0x1E140AFE = some (.rgb 10 20 30) := by decide
theorem test_table_word_end : decodeTableWord 64 0x0100000000000000 = some .endMarker := by decide
theorem test_table_word_start : decodeTableWord 32 0x2D = some (.startEncode true 2 false) := by decide
theorem test_fetch_word_diff :
    nextOf (·.sub) (step (State.reset.withFetchWord 8 0x40)) = some (.dOut ⟨254, 254, 254, 255⟩ 1 0) := by decide
theorem test_fetch_word_header :
    nextOf (·.sub) (step (State.reset.withFetchWord 112 0x0004010000000100000066696F71)) = some .dTag := by decide

/-! ### The hash (95_test_vectors.md 2.1) -/

theorem test_hash_table :
    Machine.hash ⟨10, 20, 30, 255⟩ = 9 ∧ Machine.hash ⟨255, 255, 255, 255⟩ = 38 ∧ Machine.hash ⟨0, 0, 0, 255⟩ = 53
      ∧ Machine.hash ⟨1, 2, 3, 4⟩ = 14
      ∧ Machine.hash ⟨128, 128, 128, 128⟩ = 0 := by decide

/-! ### Instructions -/

/-- 95_test_vectors.md 2.2: STATUS of a header with bad magic, channels, colorspace; the first failing check wins. -/
theorem test_header_errors :
    nextOf statusWord (exec (.header 0x706F6966 1 1 5 2) (startDecode State.reset)) = some 0x0327
    ∧ nextOf statusWord (exec (.header 0x716F6966 1 1 5 2) (startDecode State.reset)) = some 0x0427
    ∧ nextOf statusWord (exec (.header 0x716F6966 1 1 4 2) (startDecode State.reset)) = some 0x0527 := by decide

/-- 95_test_vectors.md 2.2: TARGET of 0x12345678 x 0x9ABCDEF0. -/
theorem test_header_target :
    nextOf (·.target) (exec (.header 0x716F6966 0x12345678 0x9ABCDEF0 3 1) (startDecode State.reset))
      = some 0x0B00EA4E242D2080 := by decide

/-- 95_test_vectors.md 2.4: RGB keeps the alpha 4 of PREV. -/
theorem test_rgb_keeps_alpha :
    nextOf (·.prev) (exec (.rgb 9 8 7) (decodeAt 2 4 ⟨1, 2, 3, 4⟩ .dTag)) = some ⟨9, 8, 7, 4⟩ := by decide

/-- 95_test_vectors.md S1: the pixel is written to slot 9. -/
theorem test_rgb_caches :
    nextOf (fun s => (s.cache.get 9, s.cache.get 10)) (exec (.rgb 10 20 30) (decodeAt 1 4 .opaqueBlack .dTag))
      = some (⟨10, 20, 30, 255⟩, .zero) := by decide

/-- 42_chunk_decode.md R143, example. -/
theorem test_rgba_caches :
    nextOf (fun s => (s.prev, s.cache.get 14)) (exec (.rgba 1 2 3 4) (decodeAt 1 3 .opaqueBlack .dTag))
      = some (⟨1, 2, 3, 4⟩, ⟨1, 2, 3, 4⟩) := by decide

/-- 95_test_vectors.md 2.5: INDEX 5 of an empty slot evicts what slot 0 held. -/
theorem test_index_evicts_slot_zero :
    nextOf (fun s => (s.prev, s.cache.get 0))
        (exec (.index 5) (update ⟨128, 128, 128, 128⟩ (decodeAt 3 4 .opaqueBlack .dTag)))
      = some (.zero, .zero) := by decide

/-- 95_test_vectors.md 2.6: slot 9 holds the newest writer. -/
theorem test_index_reads_newest :
    nextOf (·.sub) (exec (.index 9)
        (update ⟨40, 60, 80, 255⟩ (update ⟨10, 20, 30, 255⟩ (decodeAt 3 4 .opaqueBlack .dTag))))
      = some (.dOut ⟨40, 60, 80, 255⟩ 1 0) := by decide

/-- 95_test_vectors.md 2.7: wrap upward. -/
theorem test_diff_wraps_up :
    nextOf (·.prev) (exec (.diff 1 1 1) (decodeAt 2 4 ⟨255, 255, 255, 255⟩ .dTag)) = some ⟨0, 0, 0, 255⟩ := by decide

/-- 95_test_vectors.md 2.7: 76 from (0,0,0,0). -/
theorem test_diff_keeps_alpha :
    nextOf (·.prev) (exec (.diff 1 (-1) 0) (decodeAt 2 4 .zero .dTag)) = some ⟨1, 255, 0, 0⟩ := by decide

/-- 95_test_vectors.md 2.8: wrap downward. -/
theorem test_luma_wraps_down :
    nextOf (·.prev) (exec (.luma (-32) (-8) (-8)) (decodeAt 2 4 ⟨38, 31, 38, 255⟩ .dTag))
      = some ⟨254, 255, 254, 255⟩ := by decide

/-- 95_test_vectors.md 2.8: BF 00. -/
theorem test_luma_channels :
    nextOf (·.prev) (exec (.luma 31 (-8) (-8)) (decodeAt 2 4 .opaqueBlack .dTag)) = some ⟨23, 31, 23, 255⟩ := by decide

/-- 95_test_vectors.md 2.9: a run that exactly reaches TARGET; the cache stays zero. -/
theorem test_run_reaches_target :
    nextOf (fun s => (s.sub, s.cache.get 53)) (exec (.run 3) (decodeAt 3 4 .opaqueBlack .dTag))
      = some (.dOut ⟨0, 0, 0, 255⟩ 3 0, .zero) := by decide

/-- 95_test_vectors.md 2.9: C1 with one pixel left, STATUS and INCOUNT. -/
theorem test_run_overrun :
    nextOf (fun s => (statusWord s, s.inCount, s.outCount))
        (coreStep { withByte 0xC1 (decodeAt 1 4 .opaqueBlack .dTag) with inCount := 14 })
      = some (0x072B, 15, 0) := by decide

/-- 95_test_vectors.md 2.10: STATUS after the verified marker. -/
theorem test_end_marker_done :
    nextOf statusWord (exec .endMarker { decodeAt 1 4 .zero (.dMark 7) with phase := .trailer }) = some 0x100E := by
  decide

/-- 95_test_vectors.md 2.12: 0x21 from IDLE; CTRL then reads 0x20. -/
theorem test_start_decode_status :
    nextOf (fun s => (statusWord s, ctrlWord s, s.prev)) (csrWrite 0 0x21 State.reset)
      = some (0x0005, 0x20, ⟨0, 0, 0, 255⟩) := by decide

/-- 95_test_vectors.md 2.12: DEC_MARKER 3 is not stored. -/
theorem test_start_decode_keeps_marker_mode :
    nextOf (fun s => (s.encMarker, s.decMarker)) (csrWrite 0 0x31 State.reset) = some (false, .optional) := by decide

/-- 95_test_vectors.md 2.12: 0x2D with FORMAT 4. -/
theorem test_start_encode_status :
    nextOf statusWord (csrWrite 0 0x2D { State.reset with channels := 4 }) = some 0x4005 := by decide

/-- 95_test_vectors.md 2.3: FORMAT 5 is refused at once. -/
theorem test_start_encode_refused :
    nextOf (fun s => (statusWord s, offer s)) (csrWrite 0 0x2D { State.reset with channels := 5 })
      = some (0x4927, none) := by decide

/-- 95_test_vectors.md 2.12: START and ABORT together is ABORT; PASS_MODE stays. -/
theorem test_abort_wins :
    nextOf statusWord (csrWrite 0 0x03 (encodeAt 1 4 .header (.eHdr 0))) = some 0x4000 := by decide

/-! ### The engines -/

/-- 95_test_vectors.md X12: EOI after three of four payload bytes. -/
theorem test_truncated_payload :
    nextOf statusWord (coreStep (withEoi (decodeAt 1 4 .opaqueBlack (.dPay .rgba 3)))) = some 0x011B := by decide

/-- 95_test_vectors.md 2.10: EOI in place of the marker, OPTIONAL and after three bytes. -/
theorem test_optional_marker :
    nextOf statusWord (coreStep (withEoi { decodeAt 1 4 .zero (.dMark 0) with phase := .trailer, pixCount := 1 }))
      = some 0x000E
    ∧ nextOf statusWord (coreStep (withEoi { decodeAt 1 4 .zero (.dMark 3) with phase := .trailer }))
      = some 0x011F := by decide

/-- 95_test_vectors.md, marker rows: a wrong marker byte gives STATUS 0x082F (60_exceptions.md R260: kind 2, cause 8). -/
theorem test_bad_end_marker :
    nextOf statusWord (coreStep (withByte 1 { decodeAt 1 4 .zero (.dMark 3) with phase := .trailer }))
      = some 0x082F := by decide

/-- 95_test_vectors.md 2.12: FAIL at H[2]. -/
theorem test_write_fail :
    nextOf statusWord (coreStep (withAns .fail (encodeAt 1 4 .header (.eHdr 2)))) = some 0x4217 := by decide

/-- 95_test_vectors.md 2.3: header byte 6 of width 0x100. -/
theorem test_header_byte_offered : offer (encodeAt 0x100 3 .header (.eHdr 6)) = some 0x01 := by decide

/-- 95_test_vectors.md 2.8: (5,5,5,255) from the initial state is A5 88. -/
theorem test_encode_luma :
    nextOf (·.sub) (coreStep (withByte 5 { encodeAt 3 3 .body (.eIn 2) with pin := #v[5, 5, 0, 0] }))
      = some (.eOut 0xA5 [0x88]) := by decide

/-- 95_test_vectors.md 2.9: a pending run is flushed before the DIFF 7F. -/
theorem test_encode_flushes_run :
    nextOf (·.sub) (coreStep (withByte 1
        { encodeAt 3 3 .body (.eIn 2) with pin := #v[1, 1, 0, 0], run := 2, pixCount := 2 }))
      = some (.eOut 0xC1 [0x7F]) := by decide

/-- 95_test_vectors.md 2.11: INDEX 9 beats DIFF. -/
theorem test_encode_index_first :
    selectChunk ⟨11, 20, 30, 255⟩ ⟨10, 20, 30, 255⟩ ⟨10, 20, 30, 255⟩ = .index 9 := by decide

/-- 95_test_vectors.md 2.8, 2.11: the fallbacks to RGB and RGBA. -/
theorem test_encode_fallbacks :
    selectChunk .opaqueBlack .zero ⟨0, 32, 0, 255⟩ = .rgb 0 32 0
    ∧ selectChunk .opaqueBlack .zero ⟨248, 0, 8, 255⟩ = .rgb 248 0 8
    ∧ selectChunk .opaqueBlack .zero ⟨0, 0, 0, 254⟩ = .rgba 0 0 0 254 := by decide

/-- 95_test_vectors.md 2.12, 2.13: CSR reads. -/
theorem test_csr_reads :
    csrValue 0 State.reset = 0x28 ∧ csrValue 11 State.reset = 0x716F6966 ∧ csrValue 12 State.reset = 0
    ∧ csrValue 9 { State.reset with outCount := 0x1FFFFFFFF } = 0xFFFFFFFF
    ∧ csrValue 10 { State.reset with outCount := 0x1FFFFFFFF } = 1 := by decide

/-- 43_decode_engine.md R187, 70_reset_and_hazards.md R293: an EOI left over from one pass is not taken by the next,
presented before that pass ended or after it, and over an ABORT too. -/
theorem test_leftover_eoi_is_harmless :
    nextOf (·.inTok) (csrWrite 0 0x21 (withEoi (finish (decodeAt 1 4 .zero .dTag)))) = some none
    ∧ nextOf (·.inTok) (runSchedule (finish (decodeAt 1 4 .zero .dTag))
        [.present .eoi, .csrWrite 0 0x02, .csrWrite 0 0x21]) = some none := by decide

/-- 10_state.md R22, 70_reset_and_hazards.md R307: a token presented in IDLE stays presented over an encode START that is
refused and the START of a decode pass, which takes it. -/
theorem test_token_presented_in_idle :
    nextOf (fun s => (s.state, s.inTok)) (runSchedule State.reset [.present (.byte 0x71), .csrWrite 0 0x2D])
      = some (.error, some (.byte 0x71))
    ∧ nextOf (fun s => (s.sub, s.inTok, s.inCount, s.hdrBuf.get 0))
        (runSchedule State.reset [.present (.byte 0x71), .csrWrite 0 0x2D, .csrWrite 0 0x21, .core])
      = some (.dHdr 1, none, 1, 0x71) := by decide

/-- 70_reset_and_hazards.md R306: an ACKed byte is part of the result, also of a pass that reset or ABORT ends. -/
theorem test_acked_byte_stays :
    nextOf (·.outStream) (answer .ack (encodeAt 1 4 .header (.eHdr 0))) = some [0x71]
    ∧ (hardReset (withAns .ack { encodeAt 1 4 .header (.eHdr 0) with outStream := [0x71] })).outStream = [0x71]
    ∧ (abortPass (withAns .ack { encodeAt 1 4 .header (.eHdr 0) with outStream := [0x71] })).outStream = [0x71] := by
  decide

/-- 70_reset_and_hazards.md R307: what is no move of the host. -/
theorem test_no_moves :
    present .eoi (withByte 0 State.reset) = .refused .tokenAlreadyPresented
    ∧ answer .ack State.reset = .refused .answerNotOffered := by constructor <;> rfl

/-! ### States for the witnesses, with the invariant where a statement asks for it -/

/-- A decode pass at a sub-state, with a byte presented and the core's turn next. -/
def coreNext (sub : Sub) (b : Byte) : State :=
  { withByte b (decodeAt 1 4 .zero sub) with tag := 0xFE, events := [.core] }

/-- A CTRL write of 0x41, START and IRQ_EN, is no ABORT. -/
theorem start_is_no_abort : ¬IsAbort (.csrWrite 0 0x41) := by
  rintro ⟨v, h, hv⟩
  cases h
  revert hv
  decide

/-- A write to WIDTH is no command. -/
theorem width_write_is_no_command (s : State) (v : Word) : ¬IsAbort (.csrWrite 2 v) ∧ ¬StartsPass s (.csrWrite 2 v) := by
  constructor
  · rintro ⟨w, h, _⟩; cases h
  · rintro ⟨w, h, _⟩; cases h

/-- The 14th byte of the header of a 1 x 1 image, presented. -/
def lastHeaderByte : State :=
  { withByte 0 (startDecode State.reset) with
    sub := .dHdr 13, inCount := 13, hdrBuf := #v[0x71, 0x6F, 0x69, 0x66, 0, 0, 0, 1, 0, 0, 0, 1, 4, 0] }

/-- The last byte of a 1 x 1 decode pass without a marker, acknowledged. -/
def lastByte : State :=
  { decodeAt 1 3 .opaqueBlack (.dOut .opaqueBlack 1 2) with
    decMarker := .none, outAns := some .ack, outCount := 2, outStream := [0, 0, 0] }

/-- The last byte of a 1 x 1 encode pass, presented. -/
def lastInput : State := { encodeAt 1 3 .body (.eIn 2) with inCount := 2, inTok := some (.byte 0) }

/-- The last marker byte of an empty encode pass, acknowledged. -/
def lastMarkerByte : State :=
  { encodeAt 0 3 .trailer (.eMark 7) with
    outAns := some .ack, outCount := 21, outStream := List.replicate 22 0 }

theorem inv_dTag : Invariant (withByte 0x00 (decodeAt 1 4 .opaqueBlack .dTag)) where
  busy := by decide
  phase := by decide
  idle := by decide
  mode := by decide
  errKind := by decide
  errCause := by decide
  errReal := by decide
  marker := by decide
  done := by decide
  inPass := by decide
  answer := by decide
  outCount := by decide
  cache := fun _ k => .inl (clearCache_get k)
  sub := ⟨⟨rfl, by decide, by decide, by decide, by decide⟩, by decide, by decide⟩

theorem inv_chunkStart : Invariant (decodeAt 62 3 .opaqueBlack .dTag) where
  busy := by decide
  phase := by decide
  idle := by decide
  mode := by decide
  errKind := by decide
  errCause := by decide
  errReal := by decide
  marker := by decide
  done := by decide
  inPass := by decide
  answer := by decide
  outCount := by decide
  cache := fun _ k => .inl (clearCache_get k)
  sub := ⟨⟨rfl, by decide, by decide, by decide, by decide⟩, by decide, by decide⟩

theorem inv_lastHeaderByte : Invariant lastHeaderByte where
  busy := by decide
  phase := by decide
  idle := by decide
  mode := by decide
  errKind := by decide
  errCause := by decide
  errReal := by decide
  marker := by decide
  done := by decide
  inPass := by decide
  answer := by decide
  outCount := by decide
  cache := fun _ k => .inl (clearCache_get k)
  sub := ⟨by decide, by decide, by decide, by decide⟩

theorem inv_lastByte : Invariant lastByte where
  busy := by decide
  phase := by decide
  idle := by decide
  mode := by decide
  errKind := by decide
  errCause := by decide
  errReal := by decide
  marker := by decide
  done := by decide
  inPass := by decide
  answer := by decide
  outCount := by decide
  cache := fun _ k => .inl (clearCache_get k)
  sub := ⟨⟨rfl, by decide, by decide, by decide, by decide⟩, by decide, by decide, by decide, by decide, by decide⟩

theorem inv_lastInput : Invariant lastInput where
  busy := by decide
  phase := by decide
  idle := by decide
  mode := by decide
  errKind := by decide
  errCause := by decide
  errReal := by decide
  marker := by decide
  done := by decide
  inPass := by decide
  answer := by decide
  outCount := by decide
  cache := fun _ k => .inl (clearCache_get k)
  sub := ⟨⟨rfl, by decide, by decide, by decide, by decide⟩, by decide, by decide, by decide, by decide, by decide⟩

theorem inv_lastMarkerByte : Invariant lastMarkerByte where
  busy := by decide
  phase := by decide
  idle := by decide
  mode := by decide
  errKind := by decide
  errCause := by decide
  errReal := by decide
  marker := by decide
  done := by decide
  inPass := by decide
  answer := by decide
  outCount := by decide
  cache := fun _ k => .inl (clearCache_get k)
  sub := ⟨⟨rfl, by decide, by decide, by decide, by decide⟩, by decide, by decide, by decide, by decide⟩

/-! ### Witnesses: for each obligation with hypotheses, a state and operands that meet them, at boundary values -/

theorem witness_StreamElementsRoundTrip :
    (Instr.index 63).wellFormed = true ∧ (Instr.index 63).position ≠ .ctrl
    ∧ (Instr.diff (-2) 1 (-2)).wellFormed = true ∧ (Instr.luma 31 (-8) 7).wellFormed = true
    ∧ (Instr.run 1).wellFormed = true ∧ (Instr.run 62).wellFormed = true := by decide

theorem witness_DecodedElementsReencode :
    decodeStream .body [0xFD, 0x07] = .ok (.run 62, [0x07])
    ∧ decodeStream .header (headerBytes 0x716F6966 1 1 4 0) = .ok (.header 0x716F6966 1 1 4 0, [])
    ∧ decodeStream .trailer markerBytes = .ok (.endMarker, []) := by decide

theorem witness_CommandWordsRoundTrip :
    Instr.abort.position = .ctrl := by decide

theorem witness_FirstByteSelectsKindAndLength :
    (0x3F : Byte).toNat ≤ 0x3F ∧ 0x40 ≤ (0x40 : Byte).toNat ∧ (0x7F : Byte).toNat ≤ 0x7F ∧ 0x80 ≤ (0x80 : Byte).toNat
    ∧ (0xBF : Byte).toNat ≤ 0xBF ∧ 0xC0 ≤ (0xC0 : Byte).toNat ∧ (0xFD : Byte).toNat ≤ 0xFD
    ∧ (0xFE : Byte).toNat = 0xFE ∧ (0xFF : Byte).toNat = 0xFF ∧ [(1 : Byte), 2, 3, 4].length = (kind 0xFF).payloadLen := by
  decide

theorem witness_OperandAssembly :
    (0x3F : Byte).toNat < 0x40 ∧ 0x40 ≤ (0x7F : Byte).toNat ∧ (0x7F : Byte).toNat < 0x80
    ∧ 0x80 ≤ (0xBF : Byte).toNat ∧ (0xBF : Byte).toNat < 0xC0 ∧ 0xC0 ≤ (0xFD : Byte).toNat ∧ (0xFD : Byte).toNat ≤ 0xFD
    ∧ (0x716F6966 : Word).toNat
      = (0x71 : Byte).toNat * 2 ^ 24 + (0x6F : Byte).toNat * 2 ^ 16 + (0x69 : Byte).toNat * 2 ^ 8 + (0x66 : Byte).toNat
    ∧ (0xFF000001 : Word).toNat
      = (0xFF : Byte).toNat * 2 ^ 24 + (0 : Byte).toNat * 2 ^ 16 + (0 : Byte).toNat * 2 ^ 8 + (1 : Byte).toNat := by
  decide

theorem witness_RepeatCoversCount :
    1 ≤ 63 ∧ assembleRepeat 63 = some [.run 62, .run 1] := by decide

theorem witness_RgbChunkEffect :
    (withEoi (decodeAt 1 4 .zero (.dPay .rgb 0))).state = .busy
    ∧ (withEoi (decodeAt 1 4 .zero (.dPay .rgb 0))).sub = .dPay .rgb 0
    ∧ (withEoi (decodeAt 1 4 .zero (.dPay .rgb 0))).inTok = some .eoi := by decide

theorem witness_RgbaChunkEffect :
    (withEoi (decodeAt 1 4 .zero (.dPay .rgba 0))).state = .busy
    ∧ (withEoi (decodeAt 1 4 .zero (.dPay .rgba 0))).sub = .dPay .rgba 0
    ∧ (withEoi (decodeAt 1 4 .zero (.dPay .rgba 0))).inTok = some .eoi := by decide

theorem witness_LumaChunkEffect :
    (withEoi (decodeAt 1 4 .zero (.dPay .luma 0))).state = .busy
    ∧ (withEoi (decodeAt 1 4 .zero (.dPay .luma 0))).sub = .dPay .luma 0
    ∧ (withEoi (decodeAt 1 4 .zero (.dPay .luma 0))).inTok = some .eoi := by decide

theorem witness_RunChunkEffect :
    (decodeAt 62 4 .zero .dTag).pixCount.toNat ≤ (decodeAt 62 4 .zero .dTag).target.toNat
    ∧ (decodeAt 62 4 .zero .dTag).pixCount.toNat + 62 ≤ (decodeAt 62 4 .zero .dTag).target.toNat
    ∧ (decodeAt 61 4 .zero .dTag).target.toNat < (decodeAt 61 4 .zero .dTag).pixCount.toNat + 62 := by decide

theorem witness_UnencodableOperandsStop :
    exec (.index 64) State.reset = .fault .indexBounds ∧ exec (.run 63) State.reset = .fault .reservedRun
    ∧ decodeChunk [0x00] = .ok (.index 0, []) := ⟨rfl, rfl, rfl⟩

/-- Both ends of HEADER, an empty image and one pixel. -/
theorem witness_HeaderAccepted :
    nextOf (fun s => (s.sub, s.phase)) (exec (.header State.reset.magic 0 5 3 1) (startDecode State.reset))
      = some (.dMark 0, .trailer)
    ∧ nextOf (fun s => (s.sub, s.phase)) (exec (.header State.reset.magic 1 1 4 0) (startDecode State.reset))
      = some (.dTag, .body) := by decide

theorem witness_HeaderRejected :
    (0x8E6F6966 : Word) ≠ State.reset.magic ∧ ¬((5 : Byte) = 3 ∨ (5 : Byte) = 4) ∧ ((3 : Byte) = 3 ∨ (3 : Byte) = 4)
    ∧ ¬((2 : Byte) = 0 ∨ (2 : Byte) = 1) := by decide

theorem witness_HeaderByteStep :
    (withByte 0x71 (startDecode State.reset)).state = .busy ∧ (withByte 0x71 (startDecode State.reset)).sub = .dHdr 0
    ∧ (withByte 0x71 (startDecode State.reset)).inTok = some (.byte 0x71)
    ∧ (withEoi { startDecode State.reset with sub := .dHdr 13 }).sub = .dHdr 13
    ∧ (withEoi { startDecode State.reset with sub := .dHdr 13 }).inTok = some .eoi := by decide

theorem witness_HeaderSerializeParse :
    ((3 : Byte) = 3 ∨ (3 : Byte) = 4) ∧ ((1 : Byte) = 0 ∨ (1 : Byte) = 1) ∧ ¬((7 : Byte) = 0 ∨ (7 : Byte) = 1)
    ∧ nextOf (fun s => (s.state, s.width))
        (exec (.header State.reset.magic 7 1 3 1) (startDecode State.reset)) = some (.busy, 7) := by decide

theorem witness_PayloadByteStep :
    (withByte 0xBF (decodeAt 1 4 .zero .dTag)).sub = .dTag ∧ (0x80 ≤ (0xBF : Byte).toNat ∧ (0xBF : Byte).toNat < 0xC0)
    ∧ (withByte 0xFE (decodeAt 1 4 .zero (.dPay .rgba 2))).sub = .dPay .rgba 2
    ∧ (withByte 0xFE (decodeAt 1 4 .zero (.dPay .rgba 2))).inTok = some (.byte 0xFE)
    ∧ (withByte 0xFE (decodeAt 1 4 .zero (.dPay .rgba 2))).state = .busy ∧ (3 : Fin 4).val < PayKind.rgba.len := by decide

theorem witness_PixelByteDelivered :
    lastByte.state = .busy ∧ lastByte.sub = .dOut .opaqueBlack 1 2 ∧ lastByte.channels = 3 ∧ (2 : Fin 4).val + 1 = lastByte.channels.toNat
    ∧ lastByte.outAns = some .ack
    ∧ (withAns .fail (decodeAt 2 4 .zero (.dOut .zero 2 3))).outAns = some .fail
    ∧ (3 : Fin 4).val + 1 = (decodeAt 2 4 .zero (.dOut .zero 2 3)).channels.toNat := by decide

theorem witness_MarkerByteStep :
    (withEoi (decodeAt 1 4 .zero (.dMark 0))).sub = .dMark 0 ∧ (withEoi (decodeAt 1 4 .zero (.dMark 0))).decMarker = .optional
    ∧ ¬((7 : Fin 8).val = 0 ∧ (withEoi (decodeAt 1 4 .zero (.dMark 7))).decMarker = .optional)
    ∧ (withByte 1 (decodeAt 1 4 .zero (.dMark 7))).inTok = some (.byte 1)
    ∧ (withByte 1 (decodeAt 1 4 .zero (.dMark 7))).sub = .dMark 7 := by decide

theorem witness_EndOfInputIsShortRead :
    (withEoi (decodeAt 1 4 .zero .dTag)).state = .busy ∧ (withEoi (decodeAt 1 4 .zero .dTag)).inTok = some .eoi
    ∧ (withEoi (decodeAt 1 4 .zero .dTag)).sub = .dTag ∧ (withEoi (encodeAt 1 4 .body (.eIn 3))).sub = .eIn 3 := by decide

theorem witness_HoldingChangesNothing :
    State.reset.events = [] ∧ State.reset.state ≠ .busy ∧ ({ State.reset with events := [.core] }).events = [.core]
    ∧ offer (decodeAt 1 4 .zero .dTag) = none ∧ (decodeAt 1 4 .zero .dTag).inTok = none
    ∧ (offer (encodeAt 1 4 .header (.eHdr 0))).isSome = true ∧ (encodeAt 1 4 .header (.eHdr 0)).outAns = none := by
  decide

/-- The hypotheses of the clauses for HEADER, a one-byte chunk, a chunk with payload, END and a command. -/
theorem witness_StepRunsDecodedElement :
    (withByte 0xC0 (decodeAt 1 4 .opaqueBlack .dTag)).events = []
    ∧ (withByte 0xC0 (decodeAt 1 4 .opaqueBlack .dTag)).state = .busy
    ∧ (coreNext (.dHdr 13) 1).events = [.core] ∧ (coreNext (.dHdr 13) 1).state = .busy
    ∧ (coreNext (.dHdr 13) 1).inTok = some (.byte 1) ∧ (coreNext (.dHdr 13) 1).sub = .dHdr 13
    ∧ decodeHeader ((coreNext (.dHdr 13) 1).hdrBuf.set 13 1).toList = .ok (.header 0 0 0 0 1, [])
    ∧ (coreNext .dTag 0xC0).sub = .dTag ∧ decodeChunk [0xC0] = .ok (.run 1, [])
    ∧ (coreNext (.dPay .rgb 2) 3).sub = .dPay .rgb 2 ∧ (2 : Fin 4).val + 1 = PayKind.rgb.len
    ∧ kind (coreNext (.dPay .rgb 2) 3).tag = PayKind.rgb.kind
    ∧ decodeChunk ((coreNext (.dPay .rgb 2) 3).tag
        :: ((coreNext (.dPay .rgb 2) 3).pay.set 2 3).toList.take PayKind.rgb.len) = .ok (.rgb 0 0 3, [])
    ∧ (coreNext (.dMark 7) 1).sub = .dMark 7 ∧ decodeMarker [0, 0, 0, 0, 0, 0, 0, 1] = .ok (.endMarker, [])
    ∧ ({ State.reset with events := [.csrWrite 0 0x02] }).events = [.csrWrite 0 0x02]
    ∧ decodeCtrl 0x02 = .ok .abort := by decide

theorem witness_ChunkRunsAsDecodeChunk :
    Invariant (decodeAt 62 3 .opaqueBlack .dTag)
    ∧ (decodeAt 62 3 .opaqueBlack .dTag).state = .busy ∧ (decodeAt 62 3 .opaqueBlack .dTag).sub = .dTag
    ∧ (decodeAt 62 3 .opaqueBlack .dTag).inTok = none ∧ (decodeAt 62 3 .opaqueBlack .dTag).outAns = none
    ∧ (decodeAt 62 3 .opaqueBlack .dTag).channels = 3 ∧ (Instr.run 62).wellFormed = true
    ∧ (decodeAt 62 3 .opaqueBlack .dTag).pixCount.toNat + 62 ≤ (decodeAt 62 3 .opaqueBlack .dTag).target.toNat
    ∧ (decodeChunkRef (.run 62) History.initial).isSome = true :=
  ⟨inv_chunkStart, by decide⟩

/-- The header's last byte, then a tag and a pixel's last byte. -/
theorem witness_DecodePassBudget :
    (startDecode State.reset).sub = .dHdr 0
    ∧ Invariant lastHeaderByte ∧ lastHeaderByte.state = .busy ∧ lastHeaderByte.sub = .dHdr 13
    ∧ lastHeaderByte.inTok ≠ none
    ∧ nextOf (fun s => (s.state, headerTokensLeft s, decodeInputsLeft s, decodeOutputsLeft s))
        (coreStep lastHeaderByte) = some (.busy, 0, 13, 4)
    ∧ Invariant (withByte 0x00 (decodeAt 1 4 .opaqueBlack .dTag))
    ∧ offer (withByte 0x00 (decodeAt 1 4 .opaqueBlack .dTag)) = none
    ∧ nextOf (fun s => (s.state, decodeInputsLeft s, decodeOutputsLeft s))
        (coreStep (withByte 0x00 (decodeAt 1 4 .opaqueBlack .dTag))) = some (.busy, 8, 4)
    ∧ Invariant { lastByte with decMarker := .optional }
    ∧ nextOf (fun s => (s.state, decodeInputsLeft s, decodeOutputsLeft s))
        (coreStep { lastByte with decMarker := .optional }) = some (.busy, 8, 0) :=
  ⟨by decide, inv_lastHeaderByte, by decide, by decide, by decide, by decide, inv_dTag, by decide, by decide,
      { inv_lastByte with
        busy := by decide, phase := by decide, idle := by decide, mode := by decide, done := by decide,
        answer := by decide
        sub := ⟨⟨rfl, by decide, by decide, by decide, by decide⟩, by decide, by decide, by decide, by decide,
          by decide⟩ }, by decide⟩

theorem witness_EncoderFixedBytesDelivered :
    (withAns .ack (encodeAt 1 4 .header (.eHdr 13))).sub = .eHdr 13
    ∧ (withAns .fail (encodeAt 1 4 .header (.eHdr 0))).outAns = some .fail ∧ lastMarkerByte.sub = .eMark 7
    ∧ lastMarkerByte.outAns = some .ack ∧ lastMarkerByte.state = .busy := by decide

theorem witness_EncoderChunkBytesDelivered :
    (withAns .ack (encodeAt 1 4 .body (.eOut 0xA5 [0x88]))).state = .busy
    ∧ (withAns .ack (encodeAt 1 4 .body (.eOut 0xA5 [0x88]))).sub = .eOut 0xA5 [0x88]
    ∧ (withAns .ack (encodeAt 1 4 .body (.eOut 0xA5 [0x88]))).outAns = some .ack
    ∧ (withAns .fail (encodeAt 1 4 .body (.eOut 0xC0 []))).outAns = some .fail := by decide

theorem witness_EncoderInputStep :
    lastInput.state = .busy ∧ lastInput.sub = .eIn 2 ∧ lastInput.inTok = some (.byte 0) ∧ lastInput.channels = 3
    ∧ (2 : Fin 4).val + 1 = lastInput.channels.toNat ∧ (2 : Fin 4).val + 1 < (encodeAt 1 4 .body (.eIn 2)).channels.toNat := by decide

theorem witness_EncodePixelRule :
    State.reset.run.toNat ≤ 61 ∧ ({ State.reset with run := 61 }).run.toNat + 1 = 62
    ∧ sub8s 254 0 = -2 ∧ ((0 : Int) + -2) % 256 = 254 := by decide

theorem witness_PixelListRoundTrip :
    (startEncode { State.reset with width := 2, height := 1, channels := 4 }).prev = .opaqueBlack
    ∧ (startEncode { State.reset with width := 2, height := 1, channels := 4 }).cache = Vector.replicate 64 .zero
    ∧ (startEncode { State.reset with width := 2, height := 1, channels := 4 }).run = 0
    ∧ (startEncode { State.reset with width := 2, height := 1, channels := 4 }).pixCount = 0
    ∧ (startEncode { State.reset with width := 2, height := 1, channels := 4 }).target.toNat = [Pixel.zero, .zero].length := ⟨rfl, rfl, rfl, rfl, by decide⟩

theorem witness_ThreeChannelNeverRgba :
    Invariant lastInput ∧ lastInput.state = .busy ∧ lastInput.sub = .eIn 2 ∧ lastInput.channels = 3
    ∧ lastInput.inTok = some (.byte 0) ∧ (2 : Fin 4).val + 1 = lastInput.channels.toNat :=
  ⟨inv_lastInput, by decide, by decide, by decide, by decide, by decide⟩

theorem witness_ImageRoundTrip :
    State.reset.state ≠ .busy ∧ State.reset.inTok = none ∧ State.reset.outAns = none
    ∧ [(10 : Byte), 20, 30].length = (1 : Word).toNat * (1 : Word).toNat * (3 : Byte).toNat ∧ (2 : BitVec 2) ≠ 3
    ∧ (false = false → (2 : BitVec 2) = 0 ∨ (2 : BitVec 2) = 2) := by decide

theorem witness_EncodePassBudget :
    Invariant lastInput ∧ lastInput.passMode = .encode ∧ offer lastInput = none ∧ lastInput.inTok ≠ none
    ∧ nextOf (fun s => (s.state, encodeStepsLeft s)) (coreStep lastInput) = some (.busy, 9)
    ∧ (encodeAt 1 3 .header (.eHdr 0)).sub = .eHdr 0 ∧ (encodeAt 1 3 .header (.eHdr 0)).pixCount = 0 := ⟨inv_lastInput, by decide, by decide, by decide, by decide, by decide, by decide⟩

/-- StartDecodeEffect, StartWhileBusyIgnored. -/
theorem witness_StartWhenNotBusy :
    State.reset.state ≠ .busy ∧ (encodeAt 1 3 .header (.eHdr 0)).state = .busy := by decide

/-- Both clauses for CHANNELS, legal and not. -/
theorem witness_StartEncodeEffect :
    ({ State.reset with channels := 3 }).state ≠ .busy
    ∧ (({ State.reset with channels := 3 }).channels = 3 ∨ ({ State.reset with channels := 3 }).channels = 4)
    ∧ State.reset.state ≠ .busy ∧ ¬(State.reset.channels = 3 ∨ State.reset.channels = 4) := by decide

theorem witness_CsrWriteEffect :
    (0x03 : Word).getLsbD 1 = true ∧ (0x21 : Word).getLsbD 1 = false ∧ (0x21 : Word).getLsbD 0 = true
    ∧ (0x21 : Word).getLsbD 2 = false ∧ (0x2D : Word).getLsbD 2 = true ∧ (0x70 : Word).getLsbD 0 = false
    ∧ (0x70 : Word).extractLsb' 4 2 = 3#2 ∧ State.reset.state ≠ .busy ∧ (startDecode State.reset).state = .busy := by decide

theorem witness_CsrReadMap :
    ({ State.reset with events := [.csrRead 12] }).events = [.csrRead 12] ∧ 11 < (12 : Fin 64).val := by decide

theorem witness_ConfigurationFixedWhileBusy :
    (withByte 0x00 (decodeAt 1 4 .opaqueBlack .dTag)).state = .busy
    ∧ nextOf (·.state) (step (withByte 0x00 (decodeAt 1 4 .opaqueBlack .dTag))) = some .busy
    ∧ (withByte 0x00 (decodeAt 1 4 .opaqueBlack .dTag)).sub ≠ .dHdr 13
    ∧ lastHeaderByte.sub = .dHdr 13 ∧ ({ lastHeaderByte with events := [.csrWrite 2 7] }).events ≠ []
    ∧ nextOf (fun s => (s.state, s.width)) (step { lastHeaderByte with events := [.csrWrite 2 7] })
      = some (.busy, 0) := by decide

theorem witness_ChannelsHoldTokenAndOffer :
    offer (encodeAt 1 3 .header (.eHdr 0)) = some 0x71
    ∧ nextOf offer (perform (.csrWrite 0 0x41) (encodeAt 1 3 .header (.eHdr 0))) = some (some 0x71)
    ∧ Event.csrWrite 0 0x41 ≠ .core ∧ Event.csrWrite 0 0x41 ≠ .reset ∧ ¬IsAbort (.csrWrite 0 0x41)
    ∧ (withByte 7 State.reset).inTok = some (.byte 7)
    ∧ nextOf (·.inTok) (perform .reset (withByte 7 State.reset)) = some (some (.byte 7))
    ∧ ¬StartsPass (withByte 7 State.reset) .reset ∧ Event.reset ≠ .answer .ack
    ∧ StartsPass (withByte 7 State.reset) (.csrWrite 0 0x21) ∧ (withByte 7 State.reset).inPass = false
    ∧ nextOf (fun s => (s.state, s.inTok, s.inPass)) (perform (.csrWrite 0 0x21) (withByte 7 State.reset))
      = some (.busy, some (.byte 7), true)
    ∧ StartsPass (withEoi (finish lastByte)) (.csrWrite 0 0x21) ∧ (withEoi (finish lastByte)).inPass = true
    ∧ nextOf (fun s => (s.state, s.inTok)) (perform (.csrWrite 0 0x21) (withEoi (finish lastByte))) = some (.busy, none)
    ∧ State.reset.inTok = none ∧ (encodeAt 1 3 .header (.eHdr 0)).outAns = none
    ∧ offer State.reset = none ∧ lastByte.outAns ≠ none :=
  ⟨by decide, by decide, by decide, by decide, start_is_no_abort, by decide, by decide,
    (by rintro ⟨_, h, _⟩; cases h),
    by decide, ⟨0x21, rfl, by decide, by decide, by decide⟩, by decide, by decide,
    ⟨0x21, rfl, by decide, by decide, by decide⟩, by decide, by decide, by decide, by decide, by decide, by decide⟩

theorem witness_HostNeverReachesPassRegisters :
    nextOf (·.irqEn) (perform (.csrWrite 0 0x41) (encodeAt 1 3 .header (.eHdr 0))) = some true
    ∧ Event.csrWrite 0 0x41 ≠ .core ∧ Event.csrWrite 0 0x41 ≠ .reset
    ∧ ¬StartsPass (encodeAt 1 3 .header (.eHdr 0)) (.csrWrite 0 0x41) :=
  ⟨by decide, by decide, by decide, fun ⟨_, _, _, _, h⟩ => h rfl⟩

theorem witness_EndOfPassPersists :
    (raise .shortRead (decodeAt 1 4 .zero .dTag)).state = .error ∧ (finish (decodeAt 1 4 .zero .dTag)).state = .done
    ∧ nextOf (·.width) (perform (.csrWrite 2 7) (raise .shortRead (decodeAt 1 4 .zero .dTag))) = some 7
    ∧ Event.csrWrite 2 7 ≠ .reset ∧ ¬IsAbort (.csrWrite 2 7)
    ∧ ¬StartsPass (raise .shortRead (decodeAt 1 4 .zero .dTag)) (.csrWrite 2 7) :=
  ⟨by decide, by decide, by decide, by decide, (width_write_is_no_command .reset 7).1,
    (width_write_is_no_command _ 7).2⟩

/-- ErrorsPerSubState, ErrorsArePrecise. -/
theorem witness_ErrorsOfSteps :
    (withByte 0xC1 (decodeAt 1 4 .opaqueBlack .dTag)).state = .busy
    ∧ nextOf (fun s => (s.state, s.errCause)) (coreStep (withByte 0xC1 (decodeAt 1 4 .opaqueBlack .dTag)))
      = some (.error, .runOverrun)
    ∧ offer (withByte 0xC1 (decodeAt 1 4 .opaqueBlack .dTag)) = none
    ∧ (withByte 0xC1 (decodeAt 1 4 .opaqueBlack .dTag)).inTok = some (.byte 0xC1)
    ∧ nextOf (fun s => (s.state, s.hdrBuf.get 13)) (coreStep (withByte 2 (decodeAt 1 4 .opaqueBlack (.dHdr 13))))
      = some (.error, 2)
    ∧ (withEoi (encodeAt 1 4 .body (.eIn 3))).inTok = some .eoi
    ∧ nextOf (·.state) (coreStep (withEoi (encodeAt 1 4 .body (.eIn 3)))) = some .error
    ∧ (offer (withAns .fail (encodeAt 1 4 .header (.eHdr 2)))).isSome = true
    ∧ nextOf (·.state) (coreStep (withAns .fail (encodeAt 1 4 .header (.eHdr 2)))) = some .error := by decide

theorem witness_FinishedPassIsWhole :
    Invariant lastByte ∧ lastByte.state = .busy ∧ nextOf (·.state) (coreStep lastByte) = some .done
    ∧ Invariant lastMarkerByte ∧ lastMarkerByte.state = .busy ∧ nextOf (·.state) (coreStep lastMarkerByte) = some .done := ⟨inv_lastByte, by decide, by decide, inv_lastMarkerByte, by decide, by decide⟩

theorem witness_HardwareReset :
    ({ lastByte with events := [.reset] }).events = [.reset] := by decide

theorem witness_StepKeepsInvariant :
    Invariant lastInput ∧ nextOf (·.sub) (step lastInput) = some (.eOut 0xC0 []) := ⟨inv_lastInput, by decide⟩

theorem witness_UnspecifiedNeverRead :
    Invariant (withByte 0x00 (decodeAt 1 4 .opaqueBlack .dTag))
    ∧ Indistinct (withByte 0x00 (decodeAt 1 4 .opaqueBlack .dTag))
        { withByte 0x00 (decodeAt 1 4 .opaqueBlack .dTag) with run := 9, tag := 9 } := ⟨inv_dTag, rfl, rfl, rfl, rfl⟩

end Sys2Proof.Tests
end

section
/-! Channel arithmetic (00_scope.md R8). -/

namespace Sys2Proof.Machine

/-- `add8_sub8s` read in the integers: the signed difference leads from `y` back to `x` modulo 256. -/
theorem add_sub8s_emod (x y : Byte) : ((y.toNat : Int) + sub8s x y) % 256 = x.toNat := by
  rw [← add8_toNat, add8_sub8s]

theorem sub8s_eq_iff (x y : Byte) (d : Int) :
    sub8s x y = d ↔ -128 ≤ d ∧ d ≤ 127 ∧ ((y.toNat : Int) + d) % 256 = x.toNat := by
  constructor
  · rintro rfl
    obtain ⟨lower, upper⟩ := sub8s_bounds x y
    exact ⟨lower, upper, add_sub8s_emod x y⟩
  · rintro ⟨lower, upper, leadsBack⟩
    exact sub8s_unique lower upper leadsBack

/-- Settles O9: `add8_toNat` is the sum modulo 256; the difference leads back within its bounds, and only it does. -/
theorem channelArithmeticWraps : Obligations.ChannelArithmeticWraps :=
  ⟨add8_toNat, sub8s_eq_iff⟩

end Sys2Proof.Machine
end

section
/-! What a result says of its next state, and what the invariant says of a running pass in the middle of a core step. -/

namespace Sys2Proof.Safety

open Sys2Proof.Machine

/-- The next state, where the result has one, satisfies `P`. -/
def NextSatisfies (P : State → Prop) : Result → Prop
  | .next t => P t
  | .fault _ => True
  | .refused _ => True

theorem nextSatisfies_iff {P : State → Prop} {r : Result} : NextSatisfies P r ↔ ∀ t, r = .next t → P t := by
  cases r <;> simp [NextSatisfies]

/-- What the invariant says of a BUSY pass apart from SUB and PHASE, when no answer is waiting. It holds in the middle of
a core step, after the token or the answer is taken, and no write of a buffer or of SUB touches it. -/
structure Running (s : State) : Prop where
  state : s.state = .busy
  mode : s.passMode = s.mode
  errKind : s.errKind = .none
  errCause : s.errCause = .none
  marker : s.markerSeen = false
  inPass : s.inPass = true
  noAnswer : s.outAns = none
  outCount : BitVec.ofNat 64 s.outStream.length = s.outCount
  cache : ∀ k : Fin 64, s.cache.get k = .zero ∨ hash (s.cache.get k) = k

/-! ### Taking the token or the answer -/

section
variable {s : State}

theorem Invariant.errCause_of_not_error (h : Invariant s) (hs : s.state ≠ .error) : s.errCause = .none :=
  not_not.mp fun hc => hs (h.errCause.mpr hc)

theorem Invariant.errKind_of_not_error (h : Invariant s) (hs : s.state ≠ .error) : s.errKind = .none := by
  rw [h.errKind, h.errCause_of_not_error hs]; rfl

theorem Invariant.outAns_of_no_offer (h : Invariant s) (ho : offer s = none) : s.outAns = none :=
  not_not.mp fun ha => by simpa [ho] using h.answer ha

theorem Invariant.sub_of_not_busy (h : Invariant s) (hb : s.state ≠ .busy) : s.sub = .none :=
  not_not.mp fun hs => hb (h.busy.mpr hs)

theorem Invariant.markerSeen_of_busy (h : Invariant s) (hb : s.state = .busy) : s.markerSeen = false :=
  Bool.eq_false_iff.mpr fun hm => by simpa [hb] using (h.marker hm).1

/-- Without its answer, and with OUTCOUNT counting every byte the host has ACKed, a BUSY pass is running. -/
theorem Invariant.running_of_counted (h : Invariant s) (hb : s.state = .busy) {n : Count}
    (hn : s.outCount + (if s.outAns = some .ack then 1 else 0) = n) :
    Running { s with outAns := none, outCount := n } where
  state := hb
  mode := h.mode hb
  errKind := h.errKind_of_not_error (by simp [hb])
  errCause := h.errCause_of_not_error (by simp [hb])
  marker := h.markerSeen_of_busy hb
  inPass := h.inPass hb
  noAnswer := rfl
  outCount := (h.outCount (by simp [hb])).trans hn
  cache := h.cache hb

theorem Invariant.running (h : Invariant s) (hb : s.state = .busy) (ha : s.outAns = none) : Running s := by
  have hr := h.running_of_counted hb (n := s.outCount) (by simp [ha])
  rwa [← ha] at hr

theorem Invariant.running_tokenTaken (h : Invariant s) (hb : s.state = .busy) (ho : offer s = none) :
    Running (tokenTaken s) :=
  { h.running hb (h.outAns_of_no_offer ho) with }

theorem Invariant.running_byteCounted (h : Invariant s) (hb : s.state = .busy) (ha : s.outAns = some .ack) :
    Running (byteCounted s) :=
  h.running_of_counted hb (by simp [ha])

theorem Invariant.running_answerFailed (h : Invariant s) (hb : s.state = .busy) (ha : s.outAns = some .fail) :
    Running { s with outAns := none } :=
  h.running_of_counted hb (by simp [ha])

end

/-! ### What makes the invariant hold again -/

section
variable {s : State}

/-- The pass goes on: PHASE and SUB fit together. -/
theorem Running.invariant (h : Running s) (hs : s.sub ≠ .none) (hp : s.phase = phaseOf s.sub) (hi : SubInv s) :
    Invariant s where
  busy := by simp [h.state, hs]
  phase _ := hp
  idle := by simp [h.state]
  mode _ := h.mode
  errKind := by simp [h.errKind, h.errCause, ErrCause.kind]
  errCause := by simp [h.state, h.errCause]
  errReal := by simp [h.errCause]
  marker := by simp [h.marker]
  done := by simp [h.state]
  inPass _ := h.inPass
  answer := by simp [h.noAnswer]
  outCount _ := by simp [h.outCount, h.noAnswer]
  cache _ := h.cache
  sub := hi

/-- An error ends the pass, or refuses it (60_exceptions.md R262). -/
theorem invariant_raise (hm : s.markerSeen = false) (ha : s.outAns = none)
    (hn : BitVec.ofNat 64 s.outStream.length = s.outCount) {c : ErrCause} (hc : c ≠ .none)
    (hr : c ≠ .reservedRun ∧ c ≠ .indexBounds) : Invariant (raise c s) where
  busy := by simp
  phase := by simp
  idle := by simp
  mode := by simp
  errKind := rfl
  errCause := by simp [hc]
  errReal := hr
  marker := by simp [hm]
  done := by simp
  inPass := by simp
  answer := by simp [ha]
  outCount _ := by simp [hn, ha]
  cache := by simp
  sub := trivial

theorem Running.invariant_raise (h : Running s) {c : ErrCause} (hc : c ≠ .none)
    (hr : c ≠ .reservedRun ∧ c ≠ .indexBounds) : Invariant (raise c s) :=
  Safety.invariant_raise h.marker h.noAnswer h.outCount hc hr

/-- The pass ends at its target, with or without the marker of a decode pass (43_decode_engine.md R181,
44_encode_engine.md R229). -/
theorem Running.invariant_finish (h : Running s) {seen : Bool} (hp : s.phase = .trailer) (ht : s.pixCount = s.target)
    (hm : seen = true → s.passMode = .decode) : Invariant (finish { s with markerSeen := seen }) where
  busy := by simp
  phase := by simp
  idle := by simp
  mode := by simp
  errKind := by simp [h.errKind, h.errCause, ErrCause.kind]
  errCause := by simp [h.errCause]
  errReal := by simp [h.errCause]
  marker hs := ⟨rfl, hm hs⟩
  done _ := ⟨hp, ht⟩
  inPass := by simp
  answer := by simp [h.noAnswer]
  outCount _ := by simp [h.outCount, h.noAnswer]
  cache := by simp
  sub := trivial

theorem Running.invariant_finish_unmarked (h : Running s) (hp : s.phase = .trailer) (ht : s.pixCount = s.target) :
    Invariant (finish s) :=
  h.invariant_finish (seen := s.markerSeen) hp ht (by simp [h.marker])

/-- A pixel written to the slot of its own hash (41_hash_cache.md R127). -/
theorem Running.after_update (h : Running s) (px : Pixel) : Running (update px s) :=
  { h with
    cache := fun k => by
      rw [update_cache, cacheWrite_get]
      split
      · next hk => exact .inr hk
      · exact h.cache k }

end

end Sys2Proof.Safety
end

section
/-! The core's own steps keep the invariant: the decode engine (43_decode_engine.md R172 to R180, R188). -/

namespace Sys2Proof.Safety

open Sys2Proof.Machine

/-! ### Counting -/

theorem count_succ_toNat {c t : Count} (h : c.toNat < t.toNat) : (c + 1).toNat = c.toNat + 1 := by
  bv_omega

theorem count_lt_of_ne {c t : Count} (hle : c.toNat ≤ t.toNat) (hne : c ≠ t) : c.toNat < t.toNat := by
  bv_omega

/-- One more pixel is CH more bytes (43_decode_engine.md R188). -/
theorem bytesOf_succ (s : State) (n : Count) : bytesOf s (n + 1) = bytesOf s n + BitVec.ofNat 64 (channelCount s) := by
  simp [bytesOf, BitVec.add_mul]

theorem count_ofNat_succ {c : Count} {n : Nat} (h : c = BitVec.ofNat 64 n) : c + 1 = BitVec.ofNat 64 (n + 1) := by
  subst h; exact (BitVec.ofNat_add n 1).symm

/-! ### Between two chunks -/

/-- A decode pass that stands at the end of its header or of a chunk. -/
structure AtChunkEnd (s : State) : Prop where
  running : Running s
  body : DecodeBody s
  phase : s.phase = .body
  bytes : s.outCount = bytesOf s s.pixCount

/-- A decode pass that has the last byte of a chunk, with pixels still missing. -/
structure AtChunk (s : State) : Prop extends AtChunkEnd s where
  missing : s.pixCount.toNat < s.target.toNat

section
variable {s : State}

theorem AtChunkEnd.invariant_nextChunk (h : AtChunkEnd s) : Invariant (nextChunk s) := by
  obtain ⟨hr, hd, hp, ho⟩ := h
  rcases nextChunk_cases s with ⟨hn, e⟩ | ⟨ht, hm, e⟩ | ⟨ht, hm, e⟩ <;> rw [e]
  · exact Running.invariant { hr with } nofun hp ⟨{ hd with }, count_lt_of_ne hd.count hn, ho⟩
  · exact Running.invariant_finish_unmarked (s := { s with phase := .trailer }) { hr with } rfl ht
  · exact Running.invariant { hr with } nofun rfl ⟨{ hd with }, ht, ho, hm⟩

/-- The bytes of `n` pixels are to be delivered. -/
theorem AtChunk.invariant_dOut (h : AtChunk s) (px : Pixel) {n : Nat} (h1 : 1 ≤ n) (h62 : n ≤ 62)
    (hn : s.pixCount.toNat + n ≤ s.target.toNat) : Invariant { s with sub := .dOut px n 0 } := by
  obtain ⟨⟨hr, hd, hp, ho⟩, -⟩ := h
  have hch : 0 < channelCount s := by rcases hd.channels with hc | hc <;> simp [channelCount, hc]
  exact Running.invariant { hr with } nofun hp ⟨{ hd with }, h1, h62, hn, hch, ho.trans (BitVec.add_zero _).symm⟩

theorem AtChunk.invariant_complete (h : AtChunk s) (px : Pixel) : Invariant (complete px s) := by
  have hu : AtChunk (update px s) :=
    { running := h.running.after_update px, body := { h.body with }, phase := h.phase, bytes := h.bytes,
      missing := h.missing }
  exact hu.invariant_dOut px (by decide) (by decide) h.missing

theorem AtChunk.keeps_execRun (h : AtChunk s) (n : Nat) : NextSatisfies Invariant (execRun n s) := by
  unfold execRun
  split_ifs with hlen hover
  · trivial
  · exact h.running.invariant_raise (by decide) (by decide)
  · have hleft := h.missing
    exact h.invariant_dOut s.prev (by omega) (by simp only [Config.maxRun] at hlen; omega) (by omega)

/-- Every chunk keeps the invariant (42_chunk_decode.md R142 to R147). -/
theorem AtChunk.keeps_chunkOf (h : AtChunk s) (k : ChunkKind) (b p0 p1 p2 p3 : Byte) :
    NextSatisfies Invariant (exec (chunkOf k b p0 p1 p2 p3) s) := by
  cases k with
  | rgb => exact h.invariant_complete _
  | rgba => exact h.invariant_complete _
  | index =>
    have hslot : bitField b 5 0 < 64 := bitField_lt b 5 0
    show NextSatisfies Invariant (execIndex (bitField b 5 0) s)
    rw [execIndex, dif_pos hslot]
    exact h.invariant_complete _
  | diff => exact h.invariant_complete _
  | luma => exact h.invariant_complete _
  | run => exact h.keeps_execRun _

/-! ### The input sub-states, the token already taken -/

theorem Running.keeps_execHeader (hr : Running s) (hm : s.passMode = .decode) (hpix : s.pixCount = 0)
    (hout : s.outCount = 0) (magic w h : Word) (c cs : Byte) :
    NextSatisfies Invariant (execHeader magic w h c cs s) := by
  unfold execHeader
  split_ifs with hmagic hch hcs
  · exact hr.invariant_raise (by decide) (by decide)
  · exact hr.invariant_raise (by decide) (by decide)
  · exact hr.invariant_raise (by decide) (by decide)
  · have hbody : DecodeBody { acceptHeader w h c cs s with phase := .body } :=
      { mode := hm
        channels := (legalChannels_iff c).mp (by simpa using hch)
        colorspace := (legalColorspace_iff cs).mp (by simpa using hcs)
        target := pixelTarget_toNat w h
        count := by simp [hpix] }
    exact AtChunkEnd.invariant_nextChunk
      { running := { hr with }, body := hbody, phase := rfl, bytes := by simp [bytesOf, hpix, hout] }

theorem Running.keeps_stepDHdr (hr : Running s) {i : Fin 14} (hp : s.phase = .header)
    (hi : s.passMode = .decode ∧ s.pixCount = 0 ∧ s.outCount = 0 ∧ s.inCount = BitVec.ofNat 64 i.val) (t : Token) :
    NextSatisfies Invariant (stepDHdr i t s) := by
  obtain ⟨hm, hpix, hout, hin⟩ := hi
  cases t with
  | eoi => exact hr.invariant_raise (by decide) (by decide)
  | byte b =>
    have hu : Running { countIn s with hdrBuf := s.hdrBuf.set i.val b i.isLt } := { hr with }
    unfold stepDHdr
    dsimp only
    split
    · exact Running.invariant { hu with } nofun hp ⟨hm, hpix, hout, count_ofNat_succ hin⟩
    · exact hu.keeps_execHeader hm hpix hout _ _ _ _ _

theorem AtChunk.keeps_stepDTag (h : AtChunk s) (t : Token) : NextSatisfies Invariant (stepDTag t s) := by
  cases t with
  | eoi => exact h.running.invariant_raise (by decide) (by decide)
  | byte b =>
    obtain ⟨⟨hr, hd, hp, ho⟩, hmiss⟩ := h
    have hu : AtChunk { countIn s with tag := b } := ⟨⟨{ hr with }, { hd with }, hp, ho⟩, hmiss⟩
    have wait (k : PayKind) (hk : kind b = k.kind) :
        Invariant { countIn s with tag := b, sub := .dPay k 0 } :=
      Running.invariant { hr with } nofun hp ⟨{ hd with }, hmiss, ho, by cases k <;> decide, hk⟩
    unfold stepDTag
    dsimp only
    split
    · next hk => exact wait .rgb hk
    · next hk => exact wait .rgba hk
    · next hk => exact wait .luma hk
    · exact hu.keeps_chunkOf .index b 0 0 0 0
    · exact hu.keeps_chunkOf .diff b 0 0 0 0
    · exact hu.keeps_chunkOf .run b 0 0 0 0

theorem AtChunk.keeps_stepDPay (h : AtChunk s) {k : PayKind} {i : Fin 4} (hk : kind s.tag = k.kind) (t : Token) :
    NextSatisfies Invariant (stepDPay k i t s) := by
  cases t with
  | eoi => exact h.running.invariant_raise (by decide) (by decide)
  | byte b =>
    obtain ⟨⟨hr, hd, hp, ho⟩, hmiss⟩ := h
    have hu : AtChunk { countIn s with pay := s.pay.set i.val b i.isLt } := ⟨⟨{ hr with }, { hd with }, hp, ho⟩, hmiss⟩
    unfold stepDPay
    dsimp only
    split
    · next hi => exact Running.invariant { hr with } nofun hp ⟨{ hd with }, hmiss, ho, hi, hk⟩
    · exact hu.keeps_chunkOf _ _ _ _ _ _

theorem Running.keeps_stepDMark (hr : Running s) {i : Fin 8} (hp : s.phase = .trailer)
    (hi : DecodeBody s ∧ s.pixCount = s.target ∧ s.outCount = bytesOf s s.pixCount ∧ s.decMarker ≠ .none) (t : Token) :
    NextSatisfies Invariant (stepDMark i t s) := by
  obtain ⟨hd, ht, ho, hm⟩ := hi
  cases t with
  | eoi =>
    unfold stepDMark
    dsimp only
    split
    · exact hr.invariant_finish_unmarked hp ht
    · exact hr.invariant_raise (by decide) (by decide)
  | byte b =>
    have hu : Running (countIn s) := { hr with }
    unfold stepDMark
    dsimp only
    split_ifs
    · exact hu.invariant_raise (by decide) (by decide)
    · exact Running.invariant { hu with } nofun hp ⟨{ hd with }, ht, ho, hm⟩
    · exact hu.invariant_finish hp ht fun _ => hd.mode

/-! ### The output sub-state, the answer already taken -/

theorem Running.keeps_afterPixelByte (hr : Running s) {n : Nat} {j : Fin 4} (px : Pixel) (hp : s.phase = .body)
    (hd : DecodeBody s) (h1 : 1 ≤ n) (h62 : n ≤ 62) (hn : s.pixCount.toNat + n ≤ s.target.toNat)
    (hj : j.val < channelCount s) (ho : s.outCount = bytesOf s s.pixCount + BitVec.ofNat 64 (j.val + 1)) :
    Invariant (afterPixelByte px n j s) := by
  have hch : channelCount s ≤ 4 := by rcases hd.channels with hc | hc <;> simp [channelCount, hc]
  unfold afterPixelByte
  split
  · next h => exact Running.invariant { hr with } nofun hp ⟨{ hd with }, h1, h62, hn, h.1, ho⟩
  · next h =>
    have hlast : j.val + 1 = channelCount s := by
      unfold channelCount at hj hch ⊢
      omega
    have hpix : (s.pixCount + 1).toNat = s.pixCount.toNat + 1 := count_succ_toNat (t := s.target) (by omega)
    have hcount : (s.pixCount + 1).toNat ≤ s.target.toNat := by omega
    have hend : AtChunkEnd { s with pixCount := s.pixCount + 1 } :=
      { running := { hr with }, body := { hd with count := hcount }, phase := hp
        bytes := by rw [hlast] at ho; exact ho.trans (bytesOf_succ s s.pixCount).symm }
    split
    · exact AtChunk.invariant_dOut ⟨hend, by simp only; omega⟩ px (by omega) (by omega) (by simp only; omega)
    · exact hend.invariant_nextChunk

end

end Sys2Proof.Safety
end

section
/-! The core's own steps keep the invariant: the encode engine (44_encode_engine.md R201 to R229). -/

namespace Sys2Proof.Safety

open Sys2Proof.Machine

/-- `encode_pixel`: the run goes on, the run ends with the pixel, or the pixel gets a chunk of its own
(44_encode_engine.md R203, R204). -/
theorem encodePixel_cases (p : Pixel) (s : State) :
    (s.run + 1 ≠ 62 ∧ s.pixCount ≠ s.target ∧ encodePixel p s = ([], { s with run := s.run + 1 }))
    ∨ encodePixel p s = ([.run (s.run + 1).toNat], { s with run := 0 })
    ∨ encodePixel p s = ((if s.run = 0 then [] else [.run s.run.toNat])
        ++ [selectChunk s.prev (cacheRead s.cache (hash p)) p], update p { s with run := 0 }) := by
  unfold encodePixel
  split
  · split
    · exact .inr (.inl rfl)
    · next hflush =>
      obtain ⟨hmax, hlast⟩ := not_or.mp hflush
      exact .inl ⟨hmax, hlast, rfl⟩
  · exact .inr (.inr rfl)

theorem streamBytes_run (n : Nat) : streamBytes (.run n) = [runByte n] := rfl

/-- A run byte and one chunk are at most six bytes (44_encode_engine.md R217). -/
theorem chunkBytes_run_select_length (r : BitVec 6) (prev slot p : Pixel) :
    (chunkBytes ((if r = 0 then [] else [.run r.toNat]) ++ [selectChunk prev slot p])).length ≤ 6 := by
  obtain ⟨-, -, hlen⟩ := selectChunk_encodable prev slot p
  split <;> simp [chunkBytes, streamBytes_run] <;> omega

/-- An encode pass that has taken a whole pixel, or the header's last answer, with nothing left to emit but `q`. -/
structure AtPixelEnd (s : State) : Prop where
  running : Running s
  pass : EncodePass s
  phase : s.phase = .body
  short : s.run.toNat ≤ 61
  counted : s.run.toNat ≤ s.pixCount.toNat
  flushed : s.pixCount = s.target → s.run = 0
  bytes : s.inCount = bytesOf s s.pixCount

section
variable {s : State}

theorem EncodePass.channelCount_bounds (h : EncodePass s) : 0 < channelCount s ∧ channelCount s ≤ 4 := by
  rcases h.channels with hc | hc <;> simp [channelCount, hc]

theorem AtPixelEnd.invariant_nextPixel (h : AtPixelEnd s) : Invariant (nextPixel s) := by
  obtain ⟨hr, he, hp, hshort, hcounted, hflush, hin⟩ := h
  rcases nextPixel_cases s with ⟨hn, e⟩ | ⟨ht, hm, e⟩ | ⟨ht, hm, e⟩ <;> rw [e]
  · exact Running.invariant { hr with } nofun hp ⟨{ he with }, count_lt_of_ne he.count hn, hshort, hcounted,
      he.channelCount_bounds.1, hin.trans (BitVec.add_zero _).symm⟩
  · exact Running.invariant { hr with } nofun rfl ⟨{ he with }, ht, hflush ht, hm, hin⟩
  · exact Running.invariant_finish_unmarked (s := { s with phase := .trailer }) { hr with } rfl ht

theorem AtPixelEnd.invariant_emit (h : AtPixelEnd s) {q : List Byte} (hlen : q.length ≤ 6) (hq : q ≠ [] → s.run = 0) :
    Invariant (emit q s) := by
  cases q with
  | nil => exact h.invariant_nextPixel
  | cons b q =>
    have hrun := hq nofun
    obtain ⟨hr, he, hp, -, -, -, hin⟩ := h
    exact Running.invariant { hr with } nofun hp ⟨{ he with }, hrun, Nat.le_of_succ_le_succ hlen, hin⟩

/-! ### The input sub-state, the token already taken -/

/-- A whole pixel is taken: RUN stays short, PREV of a 3-channel pass keeps alpha 255 (44_encode_engine.md R209, R226). -/
theorem Running.invariant_takePixel (hr : Running s) (he : EncodePass s) (hp : s.phase = .body)
    (hmiss : s.pixCount.toNat < s.target.toNat) (hshort : s.run.toNat ≤ 61) (hcounted : s.run.toNat ≤ s.pixCount.toNat)
    (hin : s.inCount = bytesOf s (s.pixCount + 1)) {p : Pixel} (ha : s.channels = 3 → p.a = 255) :
    Invariant (takePixel p s) := by
  have hpix := count_succ_toNat hmiss
  have hcount : (s.pixCount + 1).toNat ≤ s.target.toNat := by omega
  have ended : AtPixelEnd { s with pixCount := s.pixCount + 1, run := 0 } :=
    { running := { hr with }, pass := { he with count := hcount }, phase := hp, short := by simp, counted := by simp
      flushed := fun _ => rfl, bytes := hin }
  unfold takePixel
  rcases encodePixel_cases p { s with pixCount := s.pixCount + 1 } with ⟨hmax, hlast, e⟩ | e | e <;> rw [e]
  · have hrun := run_succ_toNat hshort
    have hne : s.run.toNat + 1 ≠ 62 := mt (run_succ_eq_max hshort).mpr hmax
    exact AtPixelEnd.invariant_nextPixel
      { running := { hr with }, pass := { he with count := hcount }, phase := hp
        short := by simp only; omega
        counted := by simp only; omega
        flushed := fun h => absurd h hlast
        bytes := hin }
  · exact ended.invariant_emit (by simp [chunkBytes, streamBytes_run]) fun _ => rfl
  · have updated : AtPixelEnd (update p { s with pixCount := s.pixCount + 1, run := 0 }) :=
      { ended with running := ended.running.after_update p, pass := { ended.pass with alpha := ha } }
    exact updated.invariant_emit (chunkBytes_run_select_length _ _ _ _) fun _ => rfl

theorem Running.keeps_stepEIn (hr : Running s) {i : Fin 4} (hp : s.phase = .body) (he : EncodePass s)
    (hmiss : s.pixCount.toNat < s.target.toNat) (hshort : s.run.toNat ≤ 61) (hcounted : s.run.toNat ≤ s.pixCount.toNat)
    (hi : i.val < channelCount s) (hin : s.inCount = bytesOf s s.pixCount + BitVec.ofNat 64 i.val) (t : Token) :
    NextSatisfies Invariant (stepEIn i t s) := by
  cases t with
  | eoi => exact hr.invariant_raise (by decide) (by decide)
  | byte b =>
    have hu : Running { countIn s with pin := s.pin.set i.val b i.isLt } := { hr with }
    have hnext : s.inCount + 1 = bytesOf s s.pixCount + BitVec.ofNat 64 (i.val + 1) := by
      rw [hin, BitVec.add_assoc, count_ofNat_succ rfl]
    unfold stepEIn
    dsimp only
    split
    · next h => exact Running.invariant { hu with } nofun hp ⟨{ he with }, hmiss, hshort, hcounted, h.1, hnext⟩
    · next h =>
      have hch := he.channelCount_bounds.2
      have hlast : i.val + 1 = channelCount s := by
        unfold channelCount at hi hch ⊢
        rw [countIn_channels] at h
        omega
      rw [hlast, ← bytesOf_succ] at hnext
      exact hu.invariant_takePixel { he with } hp hmiss hshort hcounted hnext fun h3 => by
        simp only [countIn_channels] at h3
        simp [inputPixel, h3]

/-! ### The output sub-states, the answer already taken -/

theorem Running.invariant_afterHeaderByte (hr : Running s) {j : Fin 14} (hp : s.phase = .header) (he : EncodePass s)
    (hpix : s.pixCount = 0) (hrun : s.run = 0) (hin : s.inCount = 0) (ho : s.outCount = BitVec.ofNat 64 (j.val + 1)) :
    Invariant (afterHeaderByte j s) := by
  unfold afterHeaderByte
  split
  · exact Running.invariant { hr with } nofun hp ⟨{ he with }, hpix, hrun, hin, ho⟩
  · exact AtPixelEnd.invariant_nextPixel
      { running := { hr with }, pass := { he with }, phase := rfl, short := by simp [hrun], counted := by simp [hrun]
        flushed := fun _ => hrun, bytes := by simp [bytesOf, hpix, hin] }

theorem Running.invariant_afterMarkerByte (hr : Running s) {j : Fin 8} (hp : s.phase = .trailer)
    (hi : EncodePass s ∧ s.pixCount = s.target ∧ s.run = 0 ∧ s.encMarker = true ∧ s.inCount = bytesOf s s.pixCount) :
    Invariant (afterMarkerByte j s) := by
  obtain ⟨he, ht, hrun, hm, hin⟩ := hi
  unfold afterMarkerByte
  split
  · exact Running.invariant { hr with } nofun hp ⟨{ he with }, ht, hrun, hm, hin⟩
  · exact hr.invariant_finish_unmarked hp ht

end

end Sys2Proof.Safety
end

section
/-! The core's own step: when it holds, and that it keeps the invariant whatever it takes. -/

namespace Sys2Proof.Safety

open Sys2Proof.Machine

section
variable {s : State}

theorem busy_of_offer {b : Byte} (h : offer s = some b) : s.state = .busy := by
  by_contra hb; simp [offer, hb] at h

/-- An input sub-state holds without a token (43_decode_engine.md R191). -/
theorem coreStep_no_token (ho : offer s = none) (ht : s.inTok = none) : coreStep s = .next s := by
  by_cases hb : s.state = .busy
  · cases hs : s.sub <;> simp [offer, hb, hs] at ho <;> simp [coreStep, hb, hs, withToken, ht]
  · exact coreStep_not_busy hb

/-- An output sub-state holds without an answer (43_decode_engine.md R191). -/
theorem coreStep_no_answer (ho : offer s ≠ none) (ha : s.outAns = none) : coreStep s = .next s := by
  by_cases hb : s.state = .busy
  · cases hs : s.sub <;> simp [offer, hb, hs] at ho <;> simp [coreStep, hb, hs, withAnswer, ha]
  · exact coreStep_not_busy hb

/-- The core takes a token (43_decode_engine.md R172 to R176, 44_encode_engine.md R202). -/
theorem Invariant.keeps_coreStep_token (h : Invariant s) (hb : s.state = .busy) (ho : offer s = none) {t : Token}
    (ht : s.inTok = some t) : NextSatisfies Invariant (coreStep s) := by
  have hr := h.running_tokenTaken hb ho
  have hp := h.phase hb
  have hi := h.sub
  have hne := h.busy.mp hb
  unfold SubInv at hi
  cases hs : s.sub <;> simp only [hs] at hp hi
  case none => exact absurd hs hne
  case dHdr i =>
    rw [coreStep_dHdr hb hs ht]
    exact hr.keeps_stepDHdr hp hi t
  case dTag =>
    obtain ⟨hd, hmiss, hbytes⟩ := hi
    have hc : AtChunk (tokenTaken s) := ⟨⟨hr, { hd with }, hp, hbytes⟩, hmiss⟩
    rw [coreStep_dTag hb hs ht]
    exact hc.keeps_stepDTag t
  case dPay k i =>
    obtain ⟨hd, hmiss, hbytes, -, hk⟩ := hi
    have hc : AtChunk (tokenTaken s) := ⟨⟨hr, { hd with }, hp, hbytes⟩, hmiss⟩
    rw [coreStep_dPay hb hs ht]
    exact hc.keeps_stepDPay hk t
  case dMark i =>
    obtain ⟨hd, hrest⟩ := hi
    rw [coreStep_dMark hb hs ht]
    exact hr.keeps_stepDMark hp ⟨{ hd with }, hrest⟩ t
  case eIn i =>
    obtain ⟨he, hmiss, hshort, hcounted, hlt, hin⟩ := hi
    rw [coreStep_eIn hb hs ht]
    exact hr.keeps_stepEIn hp { he with } hmiss hshort hcounted hlt hin t
  case dOut | eHdr | eOut | eMark => simp [offer, hb, hs] at ho

/-- The core takes an ACK (43_decode_engine.md R175, 44_encode_engine.md R201, R217, R228). -/
theorem Invariant.keeps_coreStep_ack (h : Invariant s) {b : Byte} (ho : offer s = some b) (ha : s.outAns = some .ack) :
    NextSatisfies Invariant (coreStep s) := by
  have hb := busy_of_offer ho
  have hr := h.running_byteCounted hb ha
  have hp := h.phase hb
  have hi := h.sub
  unfold SubInv at hi
  cases hs : s.sub <;> simp only [hs] at hp hi
  case dOut px n j =>
    obtain ⟨hd, h1, h62, hn, hj, hout⟩ := hi
    rw [coreStep_dOut hb hs ha]
    refine hr.keeps_afterPixelByte px hp { hd with } h1 h62 hn hj ?_
    show s.outCount + 1 = _
    rw [hout, BitVec.add_assoc, count_ofNat_succ rfl]; rfl
  case eHdr j =>
    obtain ⟨he, hpix, hrun, hin, hout⟩ := hi
    rw [coreStep_eHdr hb hs ha]
    exact hr.invariant_afterHeaderByte hp { he with } hpix hrun hin (count_ofNat_succ hout)
  case eOut c q =>
    obtain ⟨he, hrun, hlen, hin⟩ := hi
    have hend : AtPixelEnd (byteCounted s) :=
      { running := hr, pass := { he with }, phase := hp, short := by simp [byteCounted, hrun]
        counted := by simp [byteCounted, hrun], flushed := fun _ => hrun, bytes := hin }
    rw [coreStep_eOut hb hs ha]
    exact hend.invariant_emit (by omega) fun _ => hrun
  case eMark j =>
    obtain ⟨he, hrest⟩ := hi
    rw [coreStep_eMark hb hs ha]
    exact hr.invariant_afterMarkerByte hp ⟨{ he with }, hrest⟩
  case none | dHdr | dTag | dPay | dMark | eIn => simp [offer, hb, hs] at ho

theorem Invariant.keeps_coreStep (h : Invariant s) : NextSatisfies Invariant (coreStep s) := by
  by_cases hb : s.state = .busy
  · cases ho : offer s with
    | none =>
      cases ht : s.inTok with
      | none => rw [coreStep_no_token ho ht]; exact h
      | some t => exact h.keeps_coreStep_token hb ho ht
    | some b =>
      cases ha : s.outAns with
      | none => rw [coreStep_no_answer (by simp [ho]) ha]; exact h
      | some a =>
        cases a with
        | ack => exact h.keeps_coreStep_ack ho ha
        | fail =>
          rw [coreStep_fail ho ha]
          exact (h.running_answerFailed hb ha).invariant_raise (by decide) (by decide)
  · rw [coreStep_not_busy hb]; exact h

end

end Sys2Proof.Safety
end

section
/-! What one element of the total order of events can do, said once, and which registers the core's own step never
writes. -/

namespace Sys2Proof.Safety

open Sys2Proof.Machine

/-- What an event that is a move leads to: one case for each kind of host action, the CTRL writes told apart by what they
command (20_memory.md R66, 70_reset_and_hazards.md R307). -/
inductive EventEffect (s : State) : Event → State → Prop
  /-- The core's turn. -/
  | core {t : State} (h : coreStep s = .next t) : EventEffect s .core t
  /-- A token is presented on an empty IN. -/
  | present (k : Token) (h : s.inTok = none) :
    EventEffect s (.present k) { s with inTok := some k, inPass := presentedToPass s }
  /-- An offered byte is ACKed. -/
  | ack {b : Byte} (ho : offer s = some b) (ha : s.outAns = none) :
    EventEffect s (.answer .ack) { s with outAns := some .ack, outStream := s.outStream ++ [b] }
  /-- An offered byte is answered FAIL. -/
  | fail {b : Byte} (ho : offer s = some b) (ha : s.outAns = none) :
    EventEffect s (.answer .fail) { s with outAns := some .fail }
  /-- A CSR is read. -/
  | read (w : Fin 64) : EventEffect s (.csrRead w) { s with csrData := some (csrValue w s) }
  /-- A CSR write that is no command and reaches at most IRQ_EN. -/
  | irqEn {w : Fin 64} {v : Word} (iq : Bool) (hs : ¬StartsPass s (.csrWrite w v)) (ha : ¬IsAbort (.csrWrite w v)) :
    EventEffect s (.csrWrite w v) { s with irqEn := iq }
  /-- A CSR write that is no command and sets configuration registers, outside BUSY. -/
  | config {w : Fin 64} {v : Word} (m : PassMode) (em : Bool) (dm : DecMarker) (iq : Bool) (wd ht : Word) (c cs : Byte)
    (hb : s.state ≠ .busy) (hs : ¬StartsPass s (.csrWrite w v)) (ha : ¬IsAbort (.csrWrite w v)) :
    EventEffect s (.csrWrite w v)
      { s with mode := m, encMarker := em, decMarker := dm, irqEn := iq, width := wd, height := ht, channels := c,
               colorspace := cs }
  /-- ABORT. -/
  | abort {v : Word} (h : IsAbort (.csrWrite 0 v)) : EventEffect s (.csrWrite 0 v) (abortPass s)
  /-- START of a decode pass, outside BUSY. -/
  | startDecode {v : Word} (em : Bool) (dm : BitVec 2) (iq : Bool) (h : StartsPass s (.csrWrite 0 v)) :
    EventEffect s (.csrWrite 0 v) (startDecode (storeCtrl .decode em dm iq s))
  /-- START of an encode pass, outside BUSY, which may be refused. -/
  | startEncode {v : Word} (em : Bool) (dm : BitVec 2) (iq : Bool) (h : StartsPass s (.csrWrite 0 v)) :
    EventEffect s (.csrWrite 0 v) (startEncode (storeCtrl .encode em dm iq s))
  /-- Hardware reset. -/
  | reset : EventEffect s .reset (hardReset s)

section
variable {s : State} {w : Fin 64} {v : Word}

/-- A START begins a pass outside BUSY only (45_host_commands.md R246). -/
theorem StartsPass.not_busy {e : Event} (h : StartsPass s e) : s.state ≠ .busy := by
  obtain ⟨v, -, -, -, hb⟩ := h
  exact hb

/-- ABORT wins over START (45_host_commands.md R241). -/
theorem IsAbort.not_startsPass {e : Event} (h : IsAbort e) : ¬StartsPass s e := by
  rintro ⟨v, rfl, hbit, -⟩
  obtain ⟨u, hu, habort⟩ := h
  cases hu
  exact Bool.false_ne_true (hbit.symm.trans habort)

theorem isAbort_iff : IsAbort (.csrWrite 0 v) ↔ v.getLsbD 1 = true := by simp [IsAbort]

theorem startsPass_iff :
    StartsPass s (.csrWrite 0 v) ↔ v.getLsbD 1 = false ∧ v.getLsbD 0 = true ∧ s.state ≠ .busy := by
  simp [StartsPass]

/-- Only CTRL takes commands (45_host_commands.md R241). -/
theorem not_isAbort_of_offset (hw : w ≠ 0) : ¬IsAbort (.csrWrite w v) := by simp [IsAbort, hw]

theorem not_startsPass_of_offset (hw : w ≠ 0) : ¬StartsPass s (.csrWrite w v) := by simp [StartsPass, hw]

/-- A CTRL write that is no START and no ABORT stores its fields (45_host_commands.md R241, R242). -/
theorem storeCtrl_effect (m : PassMode) (em : Bool) (dm : BitVec 2) (iq : Bool) (hs : ¬StartsPass s (.csrWrite w v))
    (ha : ¬IsAbort (.csrWrite w v)) : EventEffect s (.csrWrite w v) (storeCtrl m em dm iq s) := by
  unfold storeCtrl
  split
  · exact .irqEn iq hs ha
  · next hb => exact .config m em (writeDecMarker s.decMarker dm) iq s.width s.height s.channels s.colorspace hb hs ha

theorem writeCtrl_effect (v : Word) (s : State) : NextSatisfies (EventEffect s (.csrWrite 0 v)) (writeCtrl v s) := by
  by_cases hab : v.getLsbD 1 = true
  · simp only [writeCtrl, decodeCtrl, hab, if_true]
    exact .abort (isAbort_iff.mpr hab)
  · have hna : ¬IsAbort (.csrWrite 0 v) := mt isAbort_iff.mp hab
    by_cases hst : v.getLsbD 0 = true
    · by_cases hb : s.state = .busy
      · have hns : ¬StartsPass s (.csrWrite 0 v) := fun h => h.not_busy hb
        cases hm : v.getLsbD 2 <;>
          simp only [writeCtrl, decodeCtrl, hab, hst, hm, exec, execStartDecode, execStartEncode, hb, if_true] <;>
          exact storeCtrl_effect _ _ _ _ hns hna
      · have hs : StartsPass s (.csrWrite 0 v) := startsPass_iff.mpr ⟨Bool.eq_false_iff.mpr hab, hst, hb⟩
        cases hm : v.getLsbD 2
        · simp only [writeCtrl, decodeCtrl, hab, hst, hm, exec, execStartDecode, hb, if_true, if_false]
          exact .startDecode _ _ _ hs
        · simp only [writeCtrl, decodeCtrl, hab, hst, hm, exec, execStartEncode, hb, if_true, if_false]
          exact .startEncode _ _ _ hs
    · have hns : ¬StartsPass s (.csrWrite 0 v) := fun h => hst (startsPass_iff.mp h).2.1
      simp only [writeCtrl, decodeCtrl, hab, hst]
      exact storeCtrl_effect _ _ _ _ hns hna

theorem csrWrite_effect (w : Fin 64) (v : Word) (s : State) :
    NextSatisfies (EventEffect s (.csrWrite w v)) (csrWrite w v s) := by
  by_cases hw : w = 0
  · subst hw; exact writeCtrl_effect v s
  · have hs : ¬StartsPass s (.csrWrite w v) := not_startsPass_of_offset hw
    have ha : ¬IsAbort (.csrWrite w v) := not_isAbort_of_offset hw
    have same : EventEffect s (.csrWrite w v) s := .irqEn s.irqEn hs ha
    have configured (wd ht : Word) (c cs : Byte) (hb : s.state ≠ .busy) : EventEffect s (.csrWrite w v)
        { s with width := wd, height := ht, channels := c, colorspace := cs } :=
      .config s.mode s.encMarker s.decMarker s.irqEn wd ht c cs hb hs ha
    unfold csrWrite whenNotBusy
    split
    · next h0 => exact absurd (Fin.ext h0) hw
    · split
      · exact same
      · next hb => exact configured v s.height s.channels s.colorspace hb
    · split
      · exact same
      · next hb => exact configured s.width v s.channels s.colorspace hb
    · split
      · exact same
      · next hb => exact configured s.width s.height _ _ hb
    · exact same

/-- Every event does what its case says, or is no move. -/
theorem perform_effect (e : Event) (s : State) : NextSatisfies (EventEffect s e) (perform e s) := by
  cases e with
  | core => exact nextSatisfies_iff.mpr fun t h => .core h
  | present k =>
    rcases present_cases k s with ⟨h, e⟩ | ⟨-, e⟩ <;> rw [perform, e]
    · exact .present k h
    · trivial
  | answer a =>
    rcases answer_cases a s with ⟨b, ho, ha, ⟨rfl, e⟩ | ⟨rfl, e⟩⟩ | ⟨-, e⟩ <;> rw [perform, e]
    · exact .ack ho ha
    · exact .fail ho ha
    · trivial
  | csrRead w => exact .read w
  | csrWrite w v => exact csrWrite_effect w v s
  | reset => exact .reset

theorem eventEffect_of_perform {e : Event} {t : State} (h : perform e s = .next t) : EventEffect s e t :=
  nextSatisfies_iff.mp (perform_effect e s) t h

end

end Sys2Proof.Safety
end

section
/-! The registers that the core's own step never writes. -/

namespace Sys2Proof.Safety

open Sys2Proof.Machine

/-- The registers, and the host's side of the ports, that only the host's actions write. -/
structure HostWritten where
  mode : PassMode
  encMarker : Bool
  decMarker : DecMarker
  irqEn : Bool
  passMode : PassMode
  magic : Word
  inPass : Bool
  outStream : List Byte
  csrData : Option Word
  events : List Event

/-- What a state holds of them. -/
def hostWritten (s : State) : HostWritten :=
  ⟨s.mode, s.encMarker, s.decMarker, s.irqEn, s.passMode, s.magic, s.inPass, s.outStream, s.csrData, s.events⟩

/-- The result's next state, if any, has the `hostWritten` registers of `s`. -/
abbrev KeepsHostWritten (s : State) (r : Result) : Prop := NextSatisfies (fun t => hostWritten t = hostWritten s) r

section
variable (s : State)

@[simp] theorem hostWritten_raise (c : ErrCause) : hostWritten (raise c s) = hostWritten s := rfl
@[simp] theorem hostWritten_finish : hostWritten (finish s) = hostWritten s := rfl
@[simp] theorem hostWritten_complete (px : Pixel) : hostWritten (complete px s) = hostWritten s := rfl
@[simp] theorem hostWritten_update (px : Pixel) : hostWritten (update px s) = hostWritten s := rfl
@[simp] theorem hostWritten_nextChunk : hostWritten (nextChunk s) = hostWritten s := by simp [hostWritten]
@[simp] theorem hostWritten_nextPixel : hostWritten (nextPixel s) = hostWritten s := by simp [hostWritten]
@[simp] theorem hostWritten_emit (q : List Byte) : hostWritten (emit q s) = hostWritten s := by simp [hostWritten]

/-- No stream element writes them (42_chunk_decode.md R141 to R148, 40_header.md R100). -/
theorem exec_keepsHostWritten {i : Instr} (hi : i.position ≠ .ctrl) : KeepsHostWritten s (exec i s) := by
  cases i with
  | header m w h c cs =>
    show KeepsHostWritten s (execHeader m w h c cs s)
    unfold execHeader
    split_ifs
    · rfl
    · rfl
    · rfl
    · exact hostWritten_nextChunk _
  | rgb r g b => rfl
  | rgba r g b a => rfl
  | index k =>
    show KeepsHostWritten s (execIndex k s)
    unfold execIndex
    split
    · rfl
    · trivial
  | diff dr dg db => rfl
  | luma dg drg dbg => rfl
  | run n =>
    show KeepsHostWritten s (execRun n s)
    unfold execRun
    split_ifs
    · trivial
    · rfl
    · rfl
  | endMarker => rfl
  | startDecode em dm iq => exact absurd rfl hi
  | startEncode em dm iq => exact absurd rfl hi
  | abort => exact absurd rfl hi

theorem chunkOf_position (k : ChunkKind) (b p0 p1 p2 p3 : Byte) : (chunkOf k b p0 p1 p2 p3).position = .body := by
  cases k <;> rfl

theorem exec_chunkOf_keepsHostWritten (k : ChunkKind) (b p0 p1 p2 p3 : Byte) :
    KeepsHostWritten s (exec (chunkOf k b p0 p1 p2 p3) s) :=
  exec_keepsHostWritten s (by rw [chunkOf_position]; nofun)

/-! ### The input sub-states -/

theorem stepDHdr_keepsHostWritten (i : Fin 14) (t : Token) : KeepsHostWritten s (stepDHdr i t s) := by
  unfold stepDHdr
  split
  · rfl
  · dsimp only
    split
    · rfl
    · exact exec_keepsHostWritten { countIn s with hdrBuf := _ } nofun

theorem stepDTag_keepsHostWritten (t : Token) : KeepsHostWritten s (stepDTag t s) := by
  unfold stepDTag
  split
  · rfl
  · next b =>
    dsimp only
    split
    · rfl
    · rfl
    · rfl
    all_goals exact exec_chunkOf_keepsHostWritten { countIn s with tag := b } _ _ _ _ _ _

theorem stepDPay_keepsHostWritten (k : PayKind) (i : Fin 4) (t : Token) : KeepsHostWritten s (stepDPay k i t s) := by
  unfold stepDPay
  split
  · rfl
  · dsimp only
    split
    · rfl
    · exact exec_chunkOf_keepsHostWritten { countIn s with pay := _ } _ _ _ _ _ _

theorem stepDMark_keepsHostWritten (i : Fin 8) (t : Token) : KeepsHostWritten s (stepDMark i t s) := by
  unfold stepDMark
  split
  · split <;> rfl
  · dsimp only
    split_ifs <;> rfl

theorem hostWritten_takePixel (p : Pixel) : hostWritten (takePixel p s) = hostWritten s := by
  unfold takePixel
  rcases encodePixel_cases p { s with pixCount := s.pixCount + 1 } with ⟨-, -, e⟩ | e | e <;>
    rw [e] <;> exact hostWritten_emit _ _

theorem stepEIn_keepsHostWritten (i : Fin 4) (t : Token) : KeepsHostWritten s (stepEIn i t s) := by
  unfold stepEIn
  split
  · rfl
  · dsimp only
    split
    · rfl
    · exact hostWritten_takePixel _ _

/-! ### The output sub-states -/

theorem hostWritten_afterPixelByte (px : Pixel) (n : Nat) (j : Fin 4) :
    hostWritten (afterPixelByte px n j s) = hostWritten s := by
  unfold afterPixelByte
  split_ifs
  · rfl
  · rfl
  · exact hostWritten_nextChunk _

theorem hostWritten_afterHeaderByte (j : Fin 14) : hostWritten (afterHeaderByte j s) = hostWritten s := by
  unfold afterHeaderByte
  split
  · rfl
  · exact hostWritten_nextPixel _

theorem hostWritten_afterMarkerByte (j : Fin 8) : hostWritten (afterMarkerByte j s) = hostWritten s := by
  unfold afterMarkerByte
  split <;> rfl

/-! ### The step -/

theorem withToken_keepsHostWritten {f : Token → State → Result} (hf : ∀ t u, KeepsHostWritten u (f t u)) :
    KeepsHostWritten s (withToken f s) := by
  rcases withToken_cases f s with ⟨-, e⟩ | ⟨t, -, e⟩ <;> rw [e]
  · rfl
  · exact hf t { s with inTok := none }

theorem withAnswer_keepsHostWritten {k : State → State} (hk : ∀ u, hostWritten (k u) = hostWritten u) :
    KeepsHostWritten s (withAnswer k s) := by
  rcases withAnswer_cases k s with ⟨-, e⟩ | ⟨-, e⟩ | ⟨-, e⟩ <;> rw [e]
  · rfl
  · rfl
  · exact hk _

theorem coreStep_keepsHostWritten : KeepsHostWritten s (coreStep s) := by
  unfold coreStep
  split
  · split
    · rfl
    · exact withToken_keepsHostWritten s fun t u => stepDHdr_keepsHostWritten u _ t
    · exact withToken_keepsHostWritten s fun t u => stepDTag_keepsHostWritten u t
    · exact withToken_keepsHostWritten s fun t u => stepDPay_keepsHostWritten u _ _ t
    · exact withAnswer_keepsHostWritten s fun u => hostWritten_afterPixelByte u _ _ _
    · exact withToken_keepsHostWritten s fun t u => stepDMark_keepsHostWritten u _ t
    · exact withAnswer_keepsHostWritten s fun u => hostWritten_afterHeaderByte u _
    · exact withToken_keepsHostWritten s fun t u => stepEIn_keepsHostWritten u _ t
    · exact withAnswer_keepsHostWritten s fun u => hostWritten_emit u _
    · exact withAnswer_keepsHostWritten s fun u => hostWritten_afterMarkerByte u _
  · rfl

end

theorem hostWritten_of_coreStep {s t : State} (h : coreStep s = .next t) : hostWritten t = hostWritten s :=
  nextSatisfies_iff.mp (coreStep_keepsHostWritten s) t h

theorem magic_of_coreStep {s t : State} (h : coreStep s = .next t) : t.magic = s.magic :=
  congrArg HostWritten.magic (hostWritten_of_coreStep h)

theorem outStream_of_coreStep {s t : State} (h : coreStep s = .next t) : t.outStream = s.outStream :=
  congrArg HostWritten.outStream (hostWritten_of_coreStep h)

end Sys2Proof.Safety
end

section
/-! Every event keeps the invariant, so every step does. -/

namespace Sys2Proof.Safety

open Sys2Proof.Machine

section
variable {s : State}

theorem subInv_of_none (h : s.sub = .none) : SubInv s := by simp [SubInv, h]

/-- What a sub-state implies says nothing of IRQ_EN, the two ports, the CSR value and the events. -/
theorem SubInv.ports (h : SubInv s) (iq : Bool) (tok : Option Token) (ip : Bool) (ans : Option Answer)
    (out : List Byte) (csr : Option Word) (ev : List Event) :
    SubInv { s with irqEn := iq, inTok := tok, inPass := ip, outAns := ans, outStream := out, csrData := csr,
                    events := ev } := by
  unfold SubInv at h ⊢
  cases hs : s.sub <;> simp only [hs] at h ⊢
  case dHdr => exact h
  all_goals
    obtain ⟨hpass, hrest⟩ := h
    exact ⟨{ hpass with }, hrest⟩

/-- IRQ_EN, the CSR value, the token on IN and the events are free; the note beside the token, the answer and the OUT
stream have to fit the pass. -/
theorem Invariant.ports (h : Invariant s) {iq : Bool} {tok : Option Token} {ip : Bool} {ans : Option Answer}
    {out : List Byte} {csr : Option Word} {ev : List Event} (hip : s.state = .busy → ip = true)
    (hans : ans ≠ none → (offer s).isSome)
    (hout : s.state ≠ .idle → BitVec.ofNat 64 out.length = s.outCount + (if ans = some .ack then 1 else 0)) :
    Invariant { s with irqEn := iq, inTok := tok, inPass := ip, outAns := ans, outStream := out, csrData := csr,
                       events := ev } :=
  { h with inPass := hip, answer := hans, outCount := hout, sub := h.sub.ports iq tok ip ans out csr ev }

/-- The configuration may be anything outside BUSY (45_host_commands.md R242). -/
theorem Invariant.config (h : Invariant s) (hb : s.state ≠ .busy) (m : PassMode) (em : Bool) (dm : DecMarker)
    (iq : Bool) (wd ht : Word) (c cs : Byte) :
    Invariant { s with mode := m, encMarker := em, decMarker := dm, irqEn := iq, width := wd, height := ht,
                       channels := c, colorspace := cs } :=
  { h with
    mode := fun hbusy => absurd hbusy hb
    answer := fun ha => absurd (h.outAns_of_no_offer (by simp [offer, hb])) ha
    sub := subInv_of_none (h.sub_of_not_busy hb) }

/-- ABORT and reset end in IDLE, with nothing reported, offered or answered (45_host_commands.md R245,
70_reset_and_hazards.md R290). -/
theorem invariant_of_idle (hst : s.state = .idle) (hp : s.phase = .none) (hk : s.errKind = .none)
    (hc : s.errCause = .none) (hm : s.markerSeen = false) (hs : s.sub = .none) (ha : s.outAns = none) : Invariant s where
  busy := by simp [hst, hs]
  phase := by simp [hst]
  idle _ := hp
  mode := by simp [hst]
  errKind := by simp [hk, hc, ErrCause.kind]
  errCause := by simp [hst, hc]
  errReal := by simp [hc]
  marker := by simp [hm]
  done := by simp [hst]
  inPass := by simp [hst]
  answer := by simp [ha]
  outCount := by simp [hst]
  cache := by simp [hst]
  sub := subInv_of_none hs

theorem invariant_abortPass (s : State) : Invariant (abortPass s) := invariant_of_idle rfl rfl rfl rfl rfl rfl rfl

theorem invariant_hardReset (s : State) : Invariant (hardReset s) := invariant_of_idle rfl rfl rfl rfl rfl rfl rfl

/-- A decode pass starts (43_decode_engine.md R171). -/
theorem invariant_startDecode (hm : s.mode = .decode) (ha : s.outAns = none) : Invariant (startDecode s) := by
  have hr : Running (startDecode s) :=
    { state := rfl, mode := hm.symm, errKind := rfl, errCause := rfl, marker := rfl, inPass := rfl, noAnswer := ha
      outCount := rfl, cache := fun k => .inl (clearCache_get k) }
  exact hr.invariant nofun rfl ⟨rfl, rfl, rfl, rfl⟩

/-- An encode pass starts, or is refused (44_encode_engine.md R200). -/
theorem invariant_startEncode (hm : s.mode = .encode) (ha : s.outAns = none) : Invariant (startEncode s) := by
  unfold startEncode
  split
  · next hch =>
    refine Running.invariant ?_ nofun rfl ⟨?_, rfl, rfl, rfl, rfl⟩
    · exact { state := rfl, mode := hm.symm, errKind := rfl, errCause := rfl, marker := rfl, inPass := rfl
              noAnswer := ha, outCount := rfl, cache := fun k => .inl (clearCache_get k) }
    · exact { mode := rfl, channels := (legalChannels_iff _).mp hch, target := pixelTarget_toNat s.width s.height
              count := by simp, alpha := fun _ => rfl }
  · exact invariant_raise (s := beginPass .encode s) rfl ha rfl (by decide) (by decide)

theorem storeCtrl_mode_of_not_busy (hb : s.state ≠ .busy) (m : PassMode) (em : Bool) (dm : BitVec 2) (iq : Bool) :
    (storeCtrl m em dm iq s).mode = m := by
  simp [storeCtrl, hb]

theorem Invariant.presentedToPass_of_busy (h : Invariant s) (hb : s.state = .busy) : presentedToPass s = true := by
  simp [presentedToPass, hb, h.errCause_of_not_error]

theorem Invariant.eventEffect (h : Invariant s) {e : Event} {t : State} (he : EventEffect s e t) : Invariant t := by
  have noAnswer (hb : s.state ≠ .busy) : s.outAns = none := h.outAns_of_no_offer (by simp [offer, hb])
  cases he with
  | core hc => exact nextSatisfies_iff.mp h.keeps_coreStep t hc
  | present k _ => exact h.ports h.presentedToPass_of_busy h.answer h.outCount
  | ack ho ha =>
    refine h.ports h.inPass (fun _ => by simp [ho]) fun hi => ?_
    have hcount : s.outCount = BitVec.ofNat 64 s.outStream.length := by simpa [ha] using (h.outCount hi).symm
    simpa using (count_ofNat_succ hcount).symm
  | fail ho ha =>
    refine h.ports h.inPass (fun _ => by simp [ho]) fun hi => ?_
    simpa [ha] using h.outCount hi
  | read w => exact h.ports h.inPass h.answer h.outCount
  | irqEn iq _ _ => exact h.ports h.inPass h.answer h.outCount
  | config m em dm iq wd ht c cs hb _ _ => exact h.config hb m em dm iq wd ht c cs
  | abort _ => exact invariant_abortPass s
  | startDecode em dm iq hs =>
    exact invariant_startDecode (storeCtrl_mode_of_not_busy hs.not_busy _ _ _ _) (by simp [noAnswer hs.not_busy])
  | startEncode em dm iq hs =>
    exact invariant_startEncode (storeCtrl_mode_of_not_busy hs.not_busy _ _ _ _) (by simp [noAnswer hs.not_busy])
  | reset => exact invariant_hardReset s

end

/-- A step is the core's own, or an event taken off the list. -/
theorem step_cases {s t : State} (h : step s = .next t) :
    (s.events = [] ∧ coreStep s = .next t)
    ∨ ∃ e rest, s.events = e :: rest ∧ EventEffect { s with events := rest } e t := by
  unfold step at h
  split at h
  · next hev => exact .inl ⟨hev, h⟩
  · next e rest hev => exact .inr ⟨e, rest, hev, eventEffect_of_perform h⟩

/-- Settles O58: the core's step by its sub-state and what it takes, every host action by its effect. -/
theorem stepKeepsInvariant : Obligations.StepKeepsInvariant := by
  intro s t h hstep
  rcases step_cases hstep with ⟨-, hc⟩ | ⟨e, rest, -, he⟩
  · exact nextSatisfies_iff.mp h.keeps_coreStep t hc
  · have hrest : Invariant { s with events := rest } := h.ports h.inPass h.answer h.outCount
    exact hrest.eventEffect he

/-- Settles O59: a hardware reset leaves the state after reset as it is, and ends in the invariant in any state. -/
theorem resetHasInvariant : Obligations.ResetHasInvariant := invariant_hardReset State.reset

end Sys2Proof.Safety
end

section
/-! The whole-machine rules that follow from what each event can do. -/

namespace Sys2Proof.Safety

open Sys2Proof.Machine

theorem startEncode_magic (s : State) : (startEncode s).magic = s.magic := by
  unfold startEncode
  split <;> rfl

theorem EventEffect.magic {s t : State} {e : Event} (he : EventEffect s e t) : t.magic = s.magic := by
  cases he with
  | core hc => exact magic_of_coreStep hc
  | startDecode em dm iq _ => simp
  | startEncode em dm iq _ => rw [startEncode_magic, storeCtrl_magic]
  | _ => rfl

/-- Settles O56: the core never writes MAGIC, and every host action keeps it. -/
theorem magicIsConstant : Obligations.MagicIsConstant := by
  intro s t h
  rcases step_cases h with ⟨-, hc⟩ | ⟨e, rest, -, he⟩
  · exact magic_of_coreStep hc
  · exact he.magic

/-- Settles O51: only START, reset and the core's turn lead to a state that differs in these registers. -/
theorem hostNeverReachesPassRegisters : Obligations.HostNeverReachesPassRegisters := by
  intro s t e h hcore hreset hstart
  cases eventEffect_of_perform h with
  | core _ => exact absurd rfl hcore
  | reset => exact absurd rfl hreset
  | startDecode em dm iq hs => exact absurd hs hstart
  | startEncode em dm iq hs => exact absurd hs hstart
  | _ => exact ⟨rfl, rfl, rfl, rfl, rfl, rfl, rfl, rfl⟩

/-- Settles O52: outside BUSY the core holds and nothing is offered, so no other event reaches the report. -/
theorem endOfPassPersists : Obligations.EndOfPassPersists := by
  intro s t e hend h hreset habort hstart
  have hb : s.state ≠ .busy := by rcases hend with hs | hs <;> simp [hs]
  have noOffer {b : Byte} : offer s ≠ some b := mt busy_of_offer hb
  cases eventEffect_of_perform h with
  | core hc =>
    obtain rfl : s = t := by simpa [coreStep_not_busy hb] using hc
    simp
  | ack ho _ => exact absurd ho noOffer
  | reset => exact absurd rfl hreset
  | abort ha => exact absurd ha habort
  | startDecode em dm iq hs => exact absurd hs hstart
  | startEncode em dm iq hs => exact absurd hs hstart
  | _ => exact ⟨rfl, rfl, rfl, rfl, rfl, rfl, rfl, rfl, rfl, rfl, nofun⟩

/-! ### The channels -/

section
variable {s t : State} {e : Event}

/-- A refused encode START leaves IN as it is, any other opens it (44_encode_engine.md R200). -/
theorem startEncode_channels (s : State) :
    ((startEncode s).state = .busy ∧ (startEncode s).inTok = (if s.inPass then none else s.inTok)
      ∧ (startEncode s).inPass = true)
    ∨ ((startEncode s).state = .error ∧ (startEncode s).inTok = s.inTok ∧ (startEncode s).inPass = s.inPass) := by
  unfold startEncode
  split
  · exact .inl ⟨rfl, rfl, rfl⟩
  · exact .inr ⟨rfl, rfl, rfl⟩

/-- Only ABORT, reset and the core withdraw an offer (10_state.md R23, 70_reset_and_hazards.md R306). -/
theorem EventEffect.offer_kept (he : EventEffect s e t) {b : Byte} (ho : offer s = some b) (hcore : e ≠ .core)
    (hreset : e ≠ .reset) (habort : ¬IsAbort e) : offer t = some b := by
  have hb := busy_of_offer ho
  cases he with
  | core _ => exact absurd rfl hcore
  | reset => exact absurd rfl hreset
  | abort ha => exact absurd ha habort
  | config m em dm iq wd ht c cs hnb _ _ => exact absurd hb hnb
  | startDecode em dm iq hs => exact absurd hb hs.not_busy
  | startEncode em dm iq hs => exact absurd hb hs.not_busy
  | _ => exact ho

/-- A presented token stays, but one left over when the next pass becomes BUSY (10_state.md R22, 43_decode_engine.md
R187). -/
theorem EventEffect.token_kept (he : EventEffect s e t) {k : Token} (hk : s.inTok = some k) (hcore : e ≠ .core)
    (hstart : ¬(StartsPass s e ∧ t.state = .busy ∧ s.inPass = true)) :
    t.inTok = some k ∧ t.inPass = (s.inPass || (s.state != .busy && t.state == .busy)) := by
  cases he with
  | core _ => exact absurd rfl hcore
  | present _ hnone => simp [hk] at hnone
  | startDecode em dm iq hs =>
    have hfresh : s.inPass = false := Bool.eq_false_iff.mpr fun hp => hstart ⟨hs, rfl, hp⟩
    simp [hfresh, hk, hs.not_busy]
  | startEncode em dm iq hs =>
    rcases startEncode_channels (storeCtrl .encode em dm iq s) with ⟨hst, htok, hpass⟩ | ⟨hst, htok, hpass⟩
    · have hfresh : s.inPass = false := Bool.eq_false_iff.mpr fun hp => hstart ⟨hs, hst, hp⟩
      simp [hst, htok, hpass, hfresh, hk, hs.not_busy]
    · simp [hst, htok, hpass, hk]
  | _ => simp [hk]

/-- A token left over is gone when the next pass becomes BUSY (43_decode_engine.md R187). -/
theorem EventEffect.token_dropped (he : EventEffect s e t) (hs : StartsPass s e) (hb : t.state = .busy)
    (hp : s.inPass = true) : t.inTok = none := by
  cases he with
  | irqEn _ hns _ => exact absurd hs hns
  | config _ _ _ _ _ _ _ _ _ hns _ => exact absurd hs hns
  | startDecode em dm iq _ => simp [hp]
  | startEncode em dm iq _ =>
    rcases startEncode_channels (storeCtrl .encode em dm iq s) with ⟨-, htok, -⟩ | ⟨hst, -, -⟩
    · simp [htok, hp]
    · simp [hst] at hb
  | abort ha => exact absurd hs ha.not_startsPass
  | _ => exact absurd hs (by simp [StartsPass])

/-- Only an ACK and a START that begins a pass write the OUT stream (70_reset_and_hazards.md R306). -/
theorem EventEffect.outStream_kept (he : EventEffect s e t) (hack : e ≠ .answer .ack) (hs : ¬StartsPass s e) :
    t.outStream = s.outStream := by
  cases he with
  | core hc => exact outStream_of_coreStep hc
  | ack _ _ => exact absurd rfl hack
  | startDecode em dm iq hstart => exact absurd hstart hs
  | startEncode em dm iq hstart => exact absurd hstart hs
  | _ => rfl

end

/-- Settles O50: the four rules of what stays, from the effect of each event; then the moves and the refusals of the two
channels themselves. -/
theorem channelsHoldTokenAndOffer : Obligations.ChannelsHoldTokenAndOffer := by
  refine ⟨fun s t e b ho h => (eventEffect_of_perform h).offer_kept ho,
    fun s t e k hk h => (eventEffect_of_perform h).token_kept hk,
    fun s t e hs h => (eventEffect_of_perform h).token_dropped hs,
    fun s t e h => (eventEffect_of_perform h).outStream_kept,
    fun s k hk => ⟨presentedToPass s, by simp [presentedToPass], by simp [perform, present, hk]⟩,
    fun s k hk => ?_, fun s b ho ha => ⟨by simp [perform, answer, ho, ha], by simp [perform, answer, ho, ha]⟩,
    fun s a h => ?_⟩
  · rcases present_cases k s with ⟨hnone, -⟩ | ⟨-, e⟩
    · exact absurd hnone hk
    · exact e
  · rcases answer_cases a s with ⟨b, ho, ha, -⟩ | ⟨-, e⟩
    · simp [ho, ha] at h
    · exact e

end Sys2Proof.Safety
end

section
/-! The two control and status words, bit by bit, and the CTRL words of the commands. -/

namespace Sys2Proof.Machine

open Sys2Proof.Safety

/-- A field of a word, in arithmetic on the word's value. -/
theorem field_toNat (w : Word) (lo len : Nat) : (w.extractLsb' lo len).toNat = w.toNat / 2 ^ lo % 2 ^ len := by
  rw [BitVec.extractLsb'_toNat, Nat.shiftRight_eq_div_pow]

/-- A field that is 0 as a number reads 0. -/
theorem field_eq_zero {w : Word} {lo len : Nat} (h : w.toNat / 2 ^ lo % 2 ^ len = 0) : w.extractLsb' lo len = 0 :=
  BitVec.eq_of_toNat_eq (by rw [field_toNat, h]; simp)

/-- A bit of a word, in arithmetic on the word's value. -/
theorem bit_eq {w : Word} {i : Nat} {b : Bool} (h : w.toNat / 2 ^ i % 2 = b.toNat) : w.getLsbD i = b := by
  rw [BitVec.getLsbD, Nat.testBit_eq_decide_div_mod_eq, h]
  cases b <;> rfl

/-- MODE and PASS_MODE read 1 for an encode pass (10_state.md R37, R45). -/
theorem PassMode.code_eq_toNat (m : PassMode) : m.code = (decide (m = .encode)).toNat := by cases m <;> rfl

/-- Settles O47: STATUS is the sum of its fields, so each is read back by division. -/
theorem statusWordLayout : Obligations.StatusWordLayout := by
  intro s
  have sum := statusWord_toNat s
  have hstate := s.state.code_lt
  have hphase := s.phase.code_lt
  have hkind := s.errKind.code_lt
  have hcause := s.errCause.code_lt
  have hseen := Bool.toNat_le s.markerSeen
  have hirq := Bool.toNat_le (irq s)
  have hmode := s.passMode.code_lt
  have irqBit : (statusWord s).getLsbD 13 = irq s := bit_eq (by rw [sum]; omega)
  have modeBit : (statusWord s).getLsbD 14 = decide (s.passMode = .encode) :=
    bit_eq (by rw [sum, ← PassMode.code_eq_toNat]; omega)
  exact ⟨by rw [field_toNat, sum]; omega, by rw [field_toNat, sum]; omega, by rw [field_toNat, sum]; omega,
    field_eq_zero (by rw [sum]; omega), by rw [field_toNat, sum]; omega, bit_eq (by rw [sum]; omega),
    by rw [irqBit]; exact irq_iff s, irq_iff s, by rw [modeBit]; exact decide_eq_true_iff,
    field_eq_zero (by rw [sum]; omega), by decide⟩

/-- Settles O48: CTRL is the sum of its fields, so each is read back by division. -/
theorem ctrlWordLayout : Obligations.CtrlWordLayout := by
  intro s
  have sum := ctrlWord_toNat s
  have hmode := s.mode.code_lt
  have hdec := s.decMarker.code_lt
  have henc := Bool.toNat_le s.encMarker
  have hirq := Bool.toNat_le s.irqEn
  have modeBit : (ctrlWord s).getLsbD 2 = decide (s.mode = .encode) :=
    bit_eq (by rw [sum, ← PassMode.code_eq_toNat]; omega)
  have decField : ((ctrlWord s).extractLsb' 4 2).toNat = s.decMarker.code := by rw [field_toNat, sum]; omega
  have never3 : (ctrlWord s).extractLsb' 4 2 ≠ 3 := fun h => by
    rw [h] at decField
    change 3 = s.decMarker.code at decField
    omega
  exact ⟨field_eq_zero (by rw [sum]; omega), by rw [modeBit]; exact decide_eq_true_iff, bit_eq (by rw [sum]; omega),
    decField, by decide, never3, bit_eq (by rw [sum]; omega), field_eq_zero (by rw [sum]; omega)⟩

/-! ### Commands -/

theorem decodeCtrl_startDecode : ∀ (em : Bool) (dm : BitVec 2) (iq : Bool),
    decodeCtrl (ctrlFields true false false em dm iq) = .ok (.startDecode em dm iq) := by decide

theorem decodeCtrl_startEncode : ∀ (em : Bool) (dm : BitVec 2) (iq : Bool),
    decodeCtrl (ctrlFields true false true em dm iq) = .ok (.startEncode em dm iq) := by decide

theorem encode_decodes_of_ctrl {i : Instr} (hi : i.position = .ctrl) :
    ∃ w, encode i = .ctrlWord w ∧ decodeCtrl w = .ok i := by
  cases i with
  | startDecode em dm iq => exact ⟨_, rfl, decodeCtrl_startDecode em dm iq⟩
  | startEncode em dm iq => exact ⟨_, rfl, decodeCtrl_startEncode em dm iq⟩
  | abort => exact ⟨_, rfl, rfl⟩
  | _ => cases hi

/-- The bits that CTRL has are the lowest seven (10_state.md R36). -/
theorem getLsbD_and_ctrlMask (v : Word) {i : Nat} (hi : i < 7) : (v &&& 0x7F).getLsbD i = v.getLsbD i := by
  have hmask : ∀ j : Fin 7, (0x7F : Word).getLsbD j.val = true := by decide
  rw [BitVec.getLsbD_and, hmask ⟨i, hi⟩, Bool.and_true]

theorem decMarker_and_ctrlMask (v : Word) : (v &&& 0x7F).extractLsb' 4 2 = v.extractLsb' 4 2 := by
  refine BitVec.eq_of_getLsbD_eq fun i hi => ?_
  rw [BitVec.getLsbD_extractLsb', BitVec.getLsbD_extractLsb', getLsbD_and_ctrlMask v (by omega)]

/-- Settles O3: the decoder reads no bit of CTRL above the sixth, and each command back from its fields. -/
theorem commandWordsRoundTrip : Obligations.CommandWordsRoundTrip := by
  refine ⟨fun i hi => encode_decodes_of_ctrl hi, fun v => ?_⟩
  have low (i : Nat) (hi : i < 7) := getLsbD_and_ctrlMask v hi
  unfold decodeCtrl
  rw [low 0 (by decide), low 1 (by decide), low 2 (by decide), low 3 (by decide), low 6 (by decide),
    decMarker_and_ctrlMask]

end Sys2Proof.Machine
end

section
/-! What the decoder reads for each kind of chunk, in arithmetic on the bytes (30_encoding.md R83 to R93). -/

namespace Sys2Proof

/-! ### The first byte (R83) -/

/-- `kind_ranges` as one chain of tests. -/
theorem kind_eq (b : Byte) :
    kind b = if b.toNat < 0x40 then .index else if b.toNat < 0x80 then .diff else if b.toNat < 0xC0 then .luma
      else if b.toNat < 0xFE then .run else if b.toNat < 0xFF then .rgb else .rgba := by
  revert b; decide

theorem kind_eq_index {b : Byte} (hi : b.toNat < 0x40) : kind b = .index := by
  rw [kind_eq, if_pos hi]

theorem kind_eq_diff {b : Byte} (lo : 0x40 ≤ b.toNat) (hi : b.toNat < 0x80) : kind b = .diff := by
  rw [kind_eq, if_neg (by omega), if_pos hi]

theorem kind_eq_luma {b : Byte} (lo : 0x80 ≤ b.toNat) (hi : b.toNat < 0xC0) : kind b = .luma := by
  rw [kind_eq, if_neg (by omega), if_neg (by omega), if_pos hi]

theorem kind_eq_run {b : Byte} (lo : 0xC0 ≤ b.toNat) (hi : b.toNat < 0xFE) : kind b = .run := by
  rw [kind_eq, if_neg (by omega), if_neg (by omega), if_neg (by omega), if_pos hi]

/-! ### One chunk (R84 to R89, R93) -/

theorem decodeChunk_rgb (r g b : Byte) (rest : List Byte) :
    decodeChunk (0xFE :: r :: g :: b :: rest) = .ok (.rgb r g b, rest) := rfl

theorem decodeChunk_rgba (r g b a : Byte) (rest : List Byte) :
    decodeChunk (0xFF :: r :: g :: b :: a :: rest) = .ok (.rgba r g b a, rest) := rfl

theorem decodeChunk_index {b : Byte} (rest : List Byte) (hi : b.toNat < 0x40) :
    decodeChunk (b :: rest) = .ok (.index b.toNat, rest) := by
  simp only [decodeChunk, kind_eq_index hi, chunkOf, bitField, Except.ok.injEq, Prod.mk.injEq,
    Instr.index.injEq, and_true]
  omega

theorem decodeChunk_diff {b : Byte} (rest : List Byte) (lo : 0x40 ≤ b.toNat) (hi : b.toNat < 0x80) :
    decodeChunk (b :: rest) = .ok (.diff ((b.toNat - 0x40 : Int) / 16 - 2) ((b.toNat : Int) / 4 % 4 - 2)
      ((b.toNat : Int) % 4 - 2), rest) := by
  simp only [decodeChunk, kind_eq_diff lo hi, chunkOf, bitField, Except.ok.injEq, Prod.mk.injEq,
    Instr.diff.injEq, and_true]
  omega

theorem decodeChunk_luma {b : Byte} (c : Byte) (rest : List Byte) (lo : 0x80 ≤ b.toNat) (hi : b.toNat < 0xC0) :
    decodeChunk (b :: c :: rest) = .ok (.luma ((b.toNat : Int) - 0x80 - 32) ((c.toNat : Int) / 16 - 8)
      ((c.toNat : Int) % 16 - 8), rest) := by
  simp only [decodeChunk, kind_eq_luma lo hi, chunkOf, bitField, Except.ok.injEq, Prod.mk.injEq,
    Instr.luma.injEq, and_true]
  omega

theorem decodeChunk_luma_truncated {b : Byte} (lo : 0x80 ≤ b.toNat) (hi : b.toNat < 0xC0) :
    decodeChunk [b] = .error .truncated := by
  simp [decodeChunk, kind_eq_luma lo hi]

theorem decodeChunk_run {b : Byte} (rest : List Byte) (lo : 0xC0 ≤ b.toNat) (hi : b.toNat < 0xFE) :
    decodeChunk (b :: rest) = .ok (.run (b.toNat - 0xC0 + 1), rest) := by
  simp only [decodeChunk, kind_eq_run lo hi, chunkOf, bitField, Except.ok.injEq, Prod.mk.injEq,
    Instr.run.injEq, and_true]
  omega

/-! ### The payload (R92) -/

theorem decodeChunk_takes_payload {b : Byte} {payload : List Byte} (rest : List Byte)
    (len : payload.length = (kind b).payloadLen) : ∃ i, decodeChunk (b :: (payload ++ rest)) = .ok (i, rest) := by
  rcases kind_ranges b with ⟨hi, k⟩ | ⟨lo, hi, k⟩ | ⟨lo, hi, k⟩ | ⟨lo, hi, k⟩ | ⟨rfl, k⟩ | ⟨rfl, k⟩ <;> rw [k] at len
  · match payload, len with
    | [], _ => exact ⟨_, decodeChunk_index rest hi⟩
  · match payload, len with
    | [], _ => exact ⟨_, decodeChunk_diff rest lo hi⟩
  · match payload, len with
    | [c], _ => exact ⟨_, decodeChunk_luma c rest lo hi⟩
  · match payload, len with
    | [], _ => exact ⟨_, decodeChunk_run rest lo hi⟩
  · match payload, len with
    | [r, g, b], _ => exact ⟨_, decodeChunk_rgb r g b rest⟩
  · match payload, len with
    | [r, g, b, a], _ => exact ⟨_, decodeChunk_rgba r g b a rest⟩

/-- Settles O4: the six ranges partition the bytes, and each kind's arm of the decoder takes its payload, whatever it
holds. -/
theorem firstByteSelectsKindAndLength : Obligations.FirstByteSelectsKindAndLength := by
  refine ⟨fun b => ⟨fun h => ?_, fun h => ?_, fun h => ?_, fun h => ?_, fun h => ?_, fun h => ?_⟩,
    fun b payload rest => decodeChunk_takes_payload rest⟩
  · rw [kind_eq_index (by omega)]; decide
  · rw [kind_eq_diff (by omega) (by omega)]; decide
  · rw [kind_eq_luma (by omega) (by omega)]; decide
  · rw [kind_eq_run (by omega) (by omega)]; decide
  · obtain rfl : b = 0xFE := BitVec.eq_of_toNat_eq h
    decide
  · obtain rfl : b = 0xFF := BitVec.eq_of_toNat_eq h
    decide

end Sys2Proof
end

section
/-! Every stream element is written as the bytes that decode to it, and those only (30_encoding.md R80 to R94). -/

namespace Sys2Proof

open Sys2Proof.Machine

/-- A byte rebuilt from its value. -/
theorem byteOf_eq {b : Byte} {n : Nat} (h : n = b.toNat) : byteOf n = b := by
  rw [byteOf, h, BitVec.ofNat_toNat, BitVec.setWidth_eq]

/-! ### The header (R81, 40_header.md R109) -/

/-- Big-endian assembly, in arithmetic on the word's value. -/
theorem be32_eq {w : Word} {b0 b1 b2 b3 : Byte}
    (h : w.toNat = b0.toNat * 2 ^ 24 + b1.toNat * 2 ^ 16 + b2.toNat * 2 ^ 8 + b3.toNat) : be32 b0 b1 b2 b3 = w := by
  rw [be32, ← h, BitVec.ofNat_toNat, BitVec.setWidth_eq]

theorem beBytes_be32 (b0 b1 b2 b3 : Byte) : beBytes (be32 b0 b1 b2 b3) = [b0, b1, b2, b3] := by
  obtain ⟨h0, h1, h2, h3⟩ := beByte_be32 b0 b1 b2 b3
  rw [beBytes, h0, h1, h2, h3]

theorem decodeHeader_headerBytes (m w h : Word) (c cs : Byte) (rest : List Byte) :
    decodeHeader (headerBytes m w h c cs ++ rest) = .ok (.header m w h c cs, rest) := by
  simp [headerBytes, beBytes, decodeHeader, be32_beBytes]

/-- Settles O5: a lemma for each kind of chunk; a header word is `be32` of its bytes, which `beBytes` gives back. -/
theorem operandAssembly : Obligations.OperandAssembly := by
  refine ⟨decodeChunk_rgb, decodeChunk_rgba, fun _ => decodeChunk_index, fun _ => decodeChunk_diff,
    fun _ => decodeChunk_luma, fun b rest lo hi => decodeChunk_run rest lo (by omega), ?_⟩
  intro m0 m1 m2 m3 w0 w1 w2 w3 h0 h1 h2 h3 c cs rest m w h hm hw hh
  obtain rfl := be32_eq hm
  obtain rfl := be32_eq hw
  obtain rfl := be32_eq hh
  have bytes : headerBytes (be32 m0 m1 m2 m3) (be32 w0 w1 w2 w3) (be32 h0 h1 h2 h3) c cs
      = [m0, m1, m2, m3, w0, w1, w2, w3, h0, h1, h2, h3, c, cs] := by
    simp [headerBytes, beBytes_be32]
  exact ⟨rfl, bytes, bytes⟩

/-! ### Chunks (R84 to R90, R97) -/

theorem Instr.wellFormed_diff_iff (dr dg db : Int) :
    (Instr.diff dr dg db).wellFormed = true ↔ (-2 ≤ dr ∧ dr ≤ 1) ∧ (-2 ≤ dg ∧ dg ≤ 1) ∧ -2 ≤ db ∧ db ≤ 1 := by
  simp only [Instr.wellFormed, Bool.and_eq_true, inRange_iff, and_assoc]

theorem Instr.wellFormed_luma_iff (dg drg dbg : Int) :
    (Instr.luma dg drg dbg).wellFormed = true ↔ (-32 ≤ dg ∧ dg ≤ 31) ∧ (-8 ≤ drg ∧ drg ≤ 7) ∧ -8 ≤ dbg ∧ dbg ≤ 7 := by
  simp only [Instr.wellFormed, Bool.and_eq_true, inRange_iff, and_assoc]

theorem Instr.wellFormed_run_iff (n : Nat) : (Instr.run n).wellFormed = true ↔ 1 ≤ n ∧ n ≤ 62 := by
  simp only [Instr.wellFormed, Bool.and_eq_true, decide_eq_true_eq]

theorem decodeChunk_indexBytes {k : Nat} (rest : List Byte) (hk : k < 64) :
    decodeChunk (indexBytes k ++ rest) = .ok (.index k, rest) := by
  have value : (byteOf k).toNat = k := byteOf_toNat (by omega)
  simp [indexBytes, decodeChunk_index, value, hk]

theorem decodeChunk_diffBytes {dr dg db : Int} (rest : List Byte) (hr : -2 ≤ dr ∧ dr ≤ 1) (hg : -2 ≤ dg ∧ dg ≤ 1)
    (hb : -2 ≤ db ∧ db ≤ 1) : decodeChunk (diffBytes dr dg db ++ rest) = .ok (.diff dr dg db, rest) := by
  rw [diffBytes, List.singleton_append]
  have value := byteOf_toNat (n := 0x40 + 16 * (dr + 2).toNat + 4 * (dg + 2).toNat + (db + 2).toNat) (by omega)
  rw [decodeChunk_diff rest (by omega) (by omega), value]
  simp only [Except.ok.injEq, Prod.mk.injEq, Instr.diff.injEq, and_true]
  omega

theorem decodeChunk_lumaBytes {dg drg dbg : Int} (rest : List Byte) (hg : -32 ≤ dg ∧ dg ≤ 31)
    (hrg : -8 ≤ drg ∧ drg ≤ 7) (hbg : -8 ≤ dbg ∧ dbg ≤ 7) :
    decodeChunk (lumaBytes dg drg dbg ++ rest) = .ok (.luma dg drg dbg, rest) := by
  have tag := byteOf_toNat (n := 0x80 + (dg + 32).toNat) (by omega)
  have second := byteOf_toNat (n := 16 * (drg + 8).toNat + (dbg + 8).toNat) (by omega)
  rw [lumaBytes, List.cons_append, List.singleton_append, decodeChunk_luma _ rest (by omega) (by omega), tag, second]
  simp only [Except.ok.injEq, Prod.mk.injEq, Instr.luma.injEq, and_true]
  omega

theorem decodeChunk_runByte {n : Nat} (rest : List Byte) (hn : 1 ≤ n ∧ n ≤ 62) :
    decodeChunk (runByte n :: rest) = .ok (.run n, rest) := by
  have value : (runByte n).toNat = 0xC0 + (n - 1) := byteOf_toNat (by omega)
  rw [decodeChunk_run rest (by omega) (by omega), value, show 0xC0 + (n - 1) - 0xC0 + 1 = n by omega]

/-- Settles O1: one lemma for each kind of element that its bytes are read back, its operands in their ranges. -/
theorem streamElementsRoundTrip : Obligations.StreamElementsRoundTrip := by
  intro i rest wf pos
  cases i with
  | header m w h c cs => exact decodeHeader_headerBytes m w h c cs rest
  | rgb r g b => exact decodeChunk_rgb r g b rest
  | rgba r g b a => exact decodeChunk_rgba r g b a rest
  | index k => exact decodeChunk_indexBytes rest (of_decide_eq_true wf)
  | diff dr dg db =>
    obtain ⟨hr, hg, hb⟩ := (Instr.wellFormed_diff_iff dr dg db).mp wf
    exact decodeChunk_diffBytes rest hr hg hb
  | luma dg drg dbg =>
    obtain ⟨hg, hrg, hbg⟩ := (Instr.wellFormed_luma_iff dg drg dbg).mp wf
    exact decodeChunk_lumaBytes rest hg hrg hbg
  | run n => exact decodeChunk_runByte rest ((Instr.wellFormed_run_iff n).mp wf)
  | endMarker => rfl
  | startDecode => exact absurd rfl pos
  | startEncode => exact absurd rfl pos
  | abort => exact absurd rfl pos

/-! ### From the bytes to the element and back (R92, R94) -/

/-- `i` is well formed, belongs at `p`, and is written as exactly the bytes that `l` has before `rest`. -/
def ReadsBack (p : Position) (l rest : List Byte) (i : Instr) : Prop :=
  i.wellFormed = true ∧ i.position = p ∧ streamBytes i ++ rest = l

theorem decodeHeader_readsBack {l rest : List Byte} {i : Instr} (h : decodeHeader l = .ok (i, rest)) :
    ReadsBack .header l rest i := by
  unfold decodeHeader at h
  split at h
  · cases h
    exact ⟨rfl, rfl, by simp [streamBytes, headerBytes, beBytes_be32]⟩
  · cases h

theorem decodeMarker_go_eq {ms l rest : List Byte} {i : Instr} (h : decodeMarker.go ms l = .ok (i, rest)) :
    i = .endMarker ∧ ms ++ rest = l := by
  induction ms generalizing l with
  | nil => cases h; exact ⟨rfl, rfl⟩
  | cons m ms ih =>
    cases l with
    | nil => cases h
    | cons b l =>
      simp only [decodeMarker.go] at h
      split at h
      case isTrue hb =>
        obtain ⟨hi, hl⟩ := ih h
        exact ⟨hi, by rw [hb, List.cons_append, hl]⟩
      case isFalse => cases h

theorem decodeMarker_readsBack {l rest : List Byte} {i : Instr} (h : decodeMarker l = .ok (i, rest)) :
    ReadsBack .trailer l rest i := by
  obtain ⟨rfl, hl⟩ := decodeMarker_go_eq h
  exact ⟨rfl, rfl, hl⟩

theorem index_readsBack {b : Byte} (rest : List Byte) (hi : b.toNat < 0x40) :
    ReadsBack .body (b :: rest) rest (.index b.toNat) :=
  ⟨decide_eq_true hi, rfl, by rw [streamBytes, indexBytes, byteOf_eq rfl]; rfl⟩

theorem diff_readsBack {b : Byte} (rest : List Byte) (lo : 0x40 ≤ b.toNat) (hi : b.toNat < 0x80) :
    ReadsBack .body (b :: rest) rest (.diff ((b.toNat - 0x40 : Int) / 16 - 2) ((b.toNat : Int) / 4 % 4 - 2)
      ((b.toNat : Int) % 4 - 2)) := by
  refine ⟨(Instr.wellFormed_diff_iff _ _ _).mpr (by omega), rfl, ?_⟩
  rw [streamBytes, diffBytes, byteOf_eq (by omega : _ = b.toNat)]
  rfl

theorem luma_readsBack {b : Byte} (c : Byte) (rest : List Byte) (lo : 0x80 ≤ b.toNat) (hi : b.toNat < 0xC0) :
    ReadsBack .body (b :: c :: rest) rest (.luma ((b.toNat : Int) - 0x80 - 32) ((c.toNat : Int) / 16 - 8)
      ((c.toNat : Int) % 16 - 8)) := by
  have hc := c.isLt
  refine ⟨(Instr.wellFormed_luma_iff _ _ _).mpr (by omega), rfl, ?_⟩
  rw [streamBytes, lumaBytes, byteOf_eq (by omega : _ = b.toNat), byteOf_eq (by omega : _ = c.toNat)]
  rfl

theorem run_readsBack {b : Byte} (rest : List Byte) (lo : 0xC0 ≤ b.toNat) (hi : b.toNat < 0xFE) :
    ReadsBack .body (b :: rest) rest (.run (b.toNat - 0xC0 + 1)) := by
  refine ⟨(Instr.wellFormed_run_iff _).mpr (by omega), rfl, ?_⟩
  rw [streamBytes, runByte, byteOf_eq (by omega : _ = b.toNat)]
  rfl

theorem decodeChunk_readsBack {l rest : List Byte} {i : Instr} (h : decodeChunk l = .ok (i, rest)) :
    ReadsBack .body l rest i := by
  cases l with
  | nil => cases h
  | cons b l =>
    rcases kind_ranges b with ⟨hi, -⟩ | ⟨lo, hi, -⟩ | ⟨lo, hi, -⟩ | ⟨lo, hi, -⟩ | ⟨rfl, -⟩ | ⟨rfl, -⟩
    · cases (decodeChunk_index l hi).symm.trans h
      exact index_readsBack _ hi
    · cases (decodeChunk_diff l lo hi).symm.trans h
      exact diff_readsBack _ lo hi
    · cases l with
      | nil => cases (decodeChunk_luma_truncated lo hi).symm.trans h
      | cons c l =>
        cases (decodeChunk_luma c l lo hi).symm.trans h
        exact luma_readsBack c _ lo hi
    · cases (decodeChunk_run l lo hi).symm.trans h
      exact run_readsBack _ lo hi
    · match l, h with
      | _ :: _ :: _ :: _, rfl => exact ⟨rfl, rfl, rfl⟩
    · match l, h with
      | _ :: _ :: _ :: _ :: _, rfl => exact ⟨rfl, rfl, rfl⟩

/-- Settles O2: position by position, the element read is written as the bytes it was read from. -/
theorem decodedElementsReencode : Obligations.DecodedElementsReencode := by
  intro p l rest i h
  cases p with
  | header => exact decodeHeader_readsBack h
  | body => exact decodeChunk_readsBack h
  | trailer => exact decodeMarker_readsBack h
  | ctrl => cases h

/-- Settles O6: each word is decoded by evaluation. -/
theorem writtenWordsDecode : Obligations.WrittenWordsDecode := by
  unfold Obligations.WrittenWordsDecode
  decide

end Sys2Proof
end

section
/-! The pseudo-instruction REPEAT (30_encoding.md R98). -/

namespace Sys2Proof.Safety

open Sys2Proof.Machine

theorem assembleRepeat_cases {n : Nat} (hn : 1 ≤ n) :
    (n % 62 = 0 ∧ assembleRepeat n = some (List.replicate (n / 62) (.run 62)))
    ∨ (1 ≤ n % 62 ∧ assembleRepeat n = some (List.replicate (n / 62) (.run 62) ++ [.run (n % 62)])) := by
  rw [assembleRepeat, if_neg (by omega)]
  by_cases hr : n % 62 = 0
  · exact .inl ⟨hr, by rw [if_pos hr, List.append_nil]⟩
  · exact .inr ⟨by omega, by rw [if_neg hr]⟩

theorem decodeChunksRef_run (k : Nat) (h : History) :
    decodeChunksRef [.run k] h = some (List.replicate k h.1, h) := by
  simp [decodeChunksRef, decodeChunkRef]

theorem decodeChunksRef_replicate_run (q k : Nat) (h : History) :
    decodeChunksRef (List.replicate q (.run k)) h = some (List.replicate (k * q) h.1, h) := by
  induction q with
  | zero => rfl
  | succ q ih =>
    rw [List.replicate_succ', decodeChunksRef_append ih (decodeChunksRef_run k h), List.replicate_append_replicate,
      Nat.mul_succ]

/-- Settles O7: the runs of 62 cover the multiple of 62, and the last run, if there is one, the remainder. -/
theorem repeatCoversCount : Obligations.RepeatCoversCount := by
  intro n hn
  have covered := Nat.div_add_mod n 62
  have lt := Nat.mod_lt n (by decide : 0 < 62)
  rcases assembleRepeat_cases hn with ⟨exact62, e⟩ | ⟨pos, e⟩
  · refine ⟨_, e, fun i hi => ?_, fun i hi => ?_, fun h => ?_⟩
    · obtain rfl := List.eq_of_mem_replicate hi
      exact ⟨rfl, 62, rfl⟩
    · exact List.eq_of_mem_replicate (List.mem_of_mem_dropLast hi)
    · rw [decodeChunksRef_replicate_run, show 62 * (n / 62) = n by omega]
  · refine ⟨_, e, fun i hi => ?_, fun i hi => ?_, fun h => ?_⟩
    · rcases List.mem_append.mp hi with hi | hi
      · obtain rfl := List.eq_of_mem_replicate hi
        exact ⟨rfl, 62, rfl⟩
      · obtain rfl := List.mem_singleton.mp hi
        exact ⟨(Instr.wellFormed_run_iff _).mpr (by omega), _, rfl⟩
    · rw [List.dropLast_concat] at hi
      exact List.eq_of_mem_replicate hi
    · rw [decodeChunksRef_append (decodeChunksRef_replicate_run _ _ h) (decodeChunksRef_run _ h),
        List.replicate_append_replicate, covered]

end Sys2Proof.Safety
end

section
/-! The header of a decode pass: the checks, the latch, and the bytes that lead to them (40_header.md,
43_decode_engine.md R172). -/

namespace Sys2Proof.Safety

open Sys2Proof.Machine

/-! ### HEADER by the first check that fails (40_header.md R102) -/

section
variable {s : State} {m w h : Word} {c cs : Byte}

theorem exec_header_badMagic (hm : m ≠ s.magic) :
    exec (.header m w h c cs) s = .next (raise .badMagic s) := by
  simp [exec, execHeader, hm]

theorem exec_header_badChannels (hc : ¬(c = 3 ∨ c = 4)) :
    exec (.header s.magic w h c cs) s = .next (raise .badChannels s) := by
  simp [exec, execHeader, mt (legalChannels_iff c).mp hc]

theorem exec_header_badColorspace (hc : c = 3 ∨ c = 4) (hcs : ¬(cs = 0 ∨ cs = 1)) :
    exec (.header s.magic w h c cs) s = .next (raise .badColorspace s) := by
  simp [exec, execHeader, (legalChannels_iff c).mpr hc, mt (legalColorspace_iff cs).mp hcs]

theorem exec_header_accepted (hc : c = 3 ∨ c = 4) (hcs : cs = 0 ∨ cs = 1) :
    exec (.header s.magic w h c cs) s = .next (nextChunk { acceptHeader w h c cs s with phase := .body }) := by
  simp [exec, execHeader, (legalChannels_iff c).mpr hc, (legalColorspace_iff cs).mpr hcs]

end

/-! ### One byte of the header (43_decode_engine.md R172, 40_header.md R101) -/

section
variable {s : State} {i : Fin 14} {b : Byte}

theorem stepDHdr_byte_of_lt (h : i.val + 1 < 14) :
    stepDHdr i (.byte b) (tokenTaken s)
      = .next { byteTaken s with hdrBuf := s.hdrBuf.set i.val b, sub := .dHdr ⟨i.val + 1, h⟩ } :=
  dif_pos h

theorem stepDHdr_byte_last (h : i.val = 13) :
    stepDHdr i (.byte b) (tokenTaken s)
      = exec (bufferedHeader (s.hdrBuf.set i.val b)) { byteTaken s with hdrBuf := s.hdrBuf.set i.val b } :=
  dif_neg (by omega)

end

/-- Settles O20: the 14 bytes decode to the HEADER they were written from, which the magic and the channels let pass, so
that the colorspace decides between the latch and BAD_COLORSPACE. -/
theorem headerSerializeParse : Obligations.HeaderSerializeParse := by
  intro s w h c cs hc
  have parsed : decodeHeader (headerBytes s.magic w h c cs) = .ok (.header s.magic w h c cs, []) := by
    simpa using decodeHeader_headerBytes s.magic w h c cs []
  refine ⟨_, parsed, fun hcs => ?_, fun hcs => exec_header_badColorspace hc hcs⟩
  exact ⟨_, _, exec_header_accepted hc hcs, rfl, nextChunk_spec _, by simp⟩

/-- Settles O17: the latched state is the one `nextChunk` goes on from, and no product of two words overflows TARGET. -/
theorem headerAccepted : Obligations.HeaderAccepted := by
  intro s w h c cs hc hcs
  exact ⟨_, _, exec_header_accepted hc hcs, rfl, pixelTarget_toNat w h, nextChunk_spec _⟩

/-- Settles O18: one lemma for each check, the checks before it having passed. -/
theorem headerRejected : Obligations.HeaderRejected := by
  refine fun s m w h c cs => ⟨exec_header_badMagic, ?_, ?_⟩
  · rintro rfl hc
    exact exec_header_badChannels hc
  · rintro rfl hc hcs
    exact exec_header_badColorspace hc hcs

/-- Settles O19: the step is that of D_HDR with its token, and the full HDRBUF decodes to the HEADER that is run. -/
theorem headerByteStep : Obligations.HeaderByteStep := by
  refine fun s i hb hs => ⟨fun ht => coreStep_dHdr hb hs ht, fun b ht => ⟨fun h => ?_, fun h => ?_⟩⟩
  · exact (coreStep_dHdr hb hs ht).trans (stepDHdr_byte_of_lt h)
  · exact ⟨_, decodeHeader_toList _, (coreStep_dHdr hb hs ht).trans (stepDHdr_byte_last h)⟩

end Sys2Proof.Safety
end

section
/-! The hash (41_hash_cache.md R120). -/

namespace Sys2Proof.Machine

/-- Settles O8: the first form is the definition; in 6 bits each product and sum is a remainder modulo 64, and a sum of
remainders leaves the remainder of the sum. -/
theorem hashIsSumModulo64 : Obligations.HashIsSumModulo64 := by
  refine fun p => ⟨hash_val p, ?_⟩
  rw [hash_val]
  simp only [BitVec.toNat_add, BitVec.toNat_mul, BitVec.toNat_setWidth, BitVec.reduceToNat]
  omega

end Sys2Proof.Machine
end

section
/-! The decoder keeps the encoder's PREV and cache (41_hash_cache.md R129). -/

namespace Sys2Proof.Safety

open Sys2Proof.Machine

section
variable {p : Pixel} {s : State}

/-! ### The three ways of `encode_pixel` (44_encode_engine.md R203, R204) -/

theorem encodePixel_prev_flush (h : s.run + 1 = 62 ∨ s.pixCount = s.target) :
    encodePixel s.prev s = ([.run (s.run + 1).toNat], { s with run := 0 }) := by
  rw [encodePixel, if_pos rfl, if_pos h]

theorem encodePixel_prev_pending (h : ¬(s.run + 1 = 62 ∨ s.pixCount = s.target)) :
    encodePixel s.prev s = ([], { s with run := s.run + 1 }) := by
  rw [encodePixel, if_pos rfl, if_neg h]

theorem encodePixel_of_ne_prev (h : p ≠ s.prev) :
    encodePixel p s = ((if s.run = 0 then [] else [.run s.run.toNat])
      ++ [selectChunk s.prev (cacheRead s.cache (hash p)) p], update p { s with run := 0 }) := by
  rw [encodePixel, if_neg h]

end

/-! ### What the decoder makes of the chunks -/

/-- A pending run decodes to its pixels, whether it is flushed by a chunk or is empty and needs none. -/
theorem decodeChunksRef_pendingRun (r : BitVec 6) (h : History) :
    decodeChunksRef (if r = 0 then [] else [.run r.toNat]) h = some (List.replicate r.toNat h.1, h) := by
  split
  · next hr => simp [hr, decodeChunksRef]
  · exact decodeChunksRef_run r.toNat h

theorem decodeChunksRef_selectChunk (prev : Pixel) (c : Vector Pixel 64) (p : Pixel) :
    decodeChunksRef [selectChunk prev (cacheRead c (hash p)) p] (prev, c) = some ([p], (p, cacheWrite c p)) := by
  simp [decodeChunksRef, decode_selectChunk]

/-- Settles O37: a pixel equal to PREV makes the run one longer, flushed or still pending; any other decodes after the
pending run as the pixel of its chunk. -/
theorem encoderDecoderLockStep : Obligations.EncoderDecoderLockStep := by
  intro s p hshort
  by_cases hp : p = s.prev
  · subst hp
    have longer : List.replicate s.run.toNat s.prev ++ [s.prev] = List.replicate (s.run + 1).toNat s.prev := by
      rw [run_succ_toNat hshort, List.replicate_succ']
    by_cases hflush : s.run + 1 = 62 ∨ s.pixCount = s.target
    · rw [encodePixel_prev_flush hflush]
      exact ⟨_, decodeChunksRef_run _ _, longer.trans (List.append_nil _).symm⟩
    · rw [encodePixel_prev_pending hflush]
      exact ⟨[], rfl, longer⟩
  · rw [encodePixel_of_ne_prev hp]
    exact ⟨_, decodeChunksRef_append (decodeChunksRef_pendingRun s.run _) (decodeChunksRef_selectChunk _ _ p), by simp⟩

end Sys2Proof.Safety
end

section
/-! What each chunk does to the state, and where it stops short (42_chunk_decode.md R142 to R149). -/

namespace Sys2Proof.Safety

open Sys2Proof.Machine

/-! ### The meaning of each chunk -/

section
variable {s : State}

theorem exec_rgb (r g b : Byte) : exec (.rgb r g b) s = .next (complete ⟨r, g, b, s.prev.a⟩ s) := rfl

theorem exec_rgba (r g b a : Byte) : exec (.rgba r g b a) s = .next (complete ⟨r, g, b, a⟩ s) := rfl

theorem exec_index {k : Nat} (hk : k < 64) : exec (.index k) s = .next (complete (s.cache.get ⟨k, hk⟩) s) :=
  dif_pos hk

theorem exec_diff (dr dg db : Int) : exec (.diff dr dg db) s = .next (complete (diffPixel s.prev dr dg db) s) := rfl

theorem exec_luma (dg drg dbg : Int) : exec (.luma dg drg dbg) s = .next (complete (lumaPixel s.prev dg drg dbg) s) :=
  rfl

/-- Past the length check, which every encodable run passes (42_chunk_decode.md R149). -/
theorem exec_run {n : Nat} (h1 : 1 ≤ n) (h62 : n ≤ 62) :
    exec (.run n) s = if s.target.toNat - s.pixCount.toNat < n then .next (raise .runOverrun s)
      else .next { s with sub := .dOut s.prev n 0 } :=
  if_neg (by simp only [Config.maxRun]; omega)

theorem exec_run_fits {n : Nat} (h1 : 1 ≤ n) (h62 : n ≤ 62) (hn : s.pixCount.toNat + n ≤ s.target.toNat) :
    exec (.run n) s = .next { s with sub := .dOut s.prev n 0 } := by
  rw [exec_run h1 h62, if_neg (by omega)]

theorem exec_run_overrun {n : Nat} (h1 : 1 ≤ n) (h62 : n ≤ 62) (hc : s.pixCount.toNat ≤ s.target.toNat)
    (hn : s.target.toNat < s.pixCount.toNat + n) :
    exec (.run n) s = .next (inError .formatError .runOverrun s) := by
  rw [exec_run h1 h62, if_pos (by omega)]; rfl

/-- EOI in the place of a payload byte (43_decode_engine.md R183). -/
theorem coreStep_dPay_eoi {k : PayKind} {i : Fin 4} (hb : s.state = .busy) (hs : s.sub = .dPay k i)
    (ht : s.inTok = some .eoi) : coreStep s = .next (inError .ioError .shortRead (tokenTaken s)) :=
  coreStep_dPay hb hs ht

end

/-! ### The statements -/

/-- Settles O10: the RGB arm of the decoder, `complete` on the pixel with PREV's alpha, and EOI in D_PAY. -/
theorem rgbChunkEffect : Obligations.RgbChunkEffect :=
  ⟨fun _ r g b rest => ⟨decodeChunk_rgb r g b rest, _, exec_rgb r g b, complete_pixelCompleted _ _⟩,
    fun _ _ => coreStep_dPay_eoi⟩

/-- Settles O11: as RGB, but all four channels come from the payload. -/
theorem rgbaChunkEffect : Obligations.RgbaChunkEffect :=
  ⟨fun _ r g b a rest => ⟨decodeChunk_rgba r g b a rest, _, exec_rgba r g b a, complete_pixelCompleted _ _⟩,
    fun _ _ => coreStep_dPay_eoi⟩

/-- Settles O12: a 6-bit slot passes the bounds check, and its pixel is completed. -/
theorem indexChunkEffect : Obligations.IndexChunkEffect :=
  fun _ k rest => ⟨decodeChunk_indexBytes rest k.isLt, _, exec_index k.isLt, complete_pixelCompleted _ _⟩

/-- Settles O13: the byte is the encoder's for deltas in -2 .. 1, and each channel is an `add8`. -/
theorem diffChunkEffect : Obligations.DiffChunkEffect := by
  intro s fr fg fb rest
  have decoded := decodeChunk_diffBytes (dr := fr.val - 2) (dg := fg.val - 2) (db := fb.val - 2) rest
    (by omega) (by omega) (by omega)
  simp only [diffBytes, Int.sub_add_cancel, Int.toNat_natCast] at decoded
  exact ⟨decoded, _, _, exec_diff _ _ _, complete_pixelCompleted _ _, add8_toNat _ _, add8_toNat _ _, add8_toNat _ _,
    rfl⟩

/-- Settles O14: the two bytes are the encoder's for deltas in range, and each channel is an `add8`; EOI in D_PAY. -/
theorem lumaChunkEffect : Obligations.LumaChunkEffect := by
  refine ⟨fun s gf rgf bgf rest => ?_, fun _ _ => coreStep_dPay_eoi⟩
  have decoded := decodeChunk_lumaBytes (dg := gf.val - 32) (drg := rgf.val - 8) (dbg := bgf.val - 8) rest
    (by omega) (by omega) (by omega)
  simp only [lumaBytes, Int.sub_add_cancel, Int.toNat_natCast] at decoded
  exact ⟨decoded, _, _, exec_luma _ _ _, complete_pixelCompleted _ _, add8_toNat _ _, add8_toNat _ _, add8_toNat _ _,
    rfl⟩

/-- Settles O15: with PIXCOUNT at most TARGET the core's test by the remaining count is the one by the sum. -/
theorem runChunkEffect : Obligations.RunChunkEffect :=
  fun _ _ rest h1 h62 hc =>
    ⟨decodeChunk_runByte rest ⟨h1, h62⟩, exec_run_fits h1 h62, exec_run_overrun h1 h62 hc⟩

/-- Settles O24: `finish` writes STATE and SUB only. -/
theorem endMarkerEffect : Obligations.EndMarkerEffect := fun _ => rfl

end Sys2Proof.Safety
end

section
/-! A schedule, event by event: a byte presented and taken, a byte offered and ACKed (20_memory.md R66). -/

namespace Sys2Proof.Safety

open Sys2Proof.Machine

section
variable {s t : State} {es : List Event}

/-! ### One event -/

theorem runSchedule_nil (s : State) : runSchedule s [] = .next { s with events := [] } := rfl

theorem run_succ_of_step (h : step s = .next t) (k : Nat) : core.run (k + 1) s = core.run k t := by
  have first : core.step s = .next t := h
  simp only [Host.Core.run, first]

/-- The first event performed; the state that goes on has the other events to come. -/
theorem runSchedule_cons {e : Event} (h : perform e { s with events := es } = .next { t with events := es }) :
    runSchedule s (e :: es) = runSchedule t es :=
  run_succ_of_step (s := { s with events := e :: es }) h es.length

/-! ### A byte presented and taken -/

theorem feedBytes_cons (b : Byte) (l : List Byte) :
    feedBytes (b :: l) = .present (.byte b) :: .core :: feedBytes l := rfl

/-- The running pass takes a token presented on an empty IN, and notes it as its own, which IN's note says already. -/
theorem Running.present (h : Running s) (ht : s.inTok = none) (k : Token) :
    present k s = .next { s with inTok := some k } := by
  have noted : presentedToPass s = s.inPass := by simp [presentedToPass, h.state, h.errCause, h.inPass]
  rcases present_cases k s with ⟨-, e⟩ | ⟨hne, -⟩
  · rw [e, noted]
  · exact absurd ht hne

/-- `s` at the core's turn with a byte presented on IN, and `es` to come after it. -/
def byteOnIn (b : Byte) (es : List Event) (s : State) : State := { s with inTok := some (.byte b), events := es }

theorem Running.feedByte (h : Running s) (ht : s.inTok = none) {b : Byte} {l : List Byte}
    (hc : coreStep (byteOnIn b (feedBytes l ++ es) s) = .next { t with events := feedBytes l ++ es }) :
    runSchedule s (feedBytes (b :: l) ++ es) = runSchedule t (feedBytes l ++ es) := by
  have here : Running { s with events := .core :: (feedBytes l ++ es) } := { h with }
  calc runSchedule s (feedBytes (b :: l) ++ es)
      = runSchedule { s with inTok := some (.byte b) } (.core :: (feedBytes l ++ es)) :=
        runSchedule_cons (here.present ht (.byte b))
    _ = runSchedule t (feedBytes l ++ es) := runSchedule_cons hc

/-! ### The bytes of a chunk (43_decode_engine.md R173, R174) -/

/-- The first byte of a chunk with a payload is stored. -/
theorem Running.feedTag (h : Running s) (hs : s.sub = .dTag) (ht : s.inTok = none) {b : Byte} (l : List Byte)
    {k : PayKind} (hk : kind b = k.kind) :
    runSchedule s (feedBytes (b :: l) ++ es)
      = runSchedule { byteTaken s with tag := b, sub := .dPay k 0 } (feedBytes l ++ es) := by
  have step := coreStep_dTag (s := byteOnIn b (feedBytes l ++ es) s) h.state hs rfl
  refine h.feedByte ht (step.trans ?_)
  cases k <;> simp only [stepDTag, hk, PayKind.kind] <;> rfl

/-- A payload byte before the last is stored. -/
theorem Running.feedPayloadByte (h : Running s) {k : PayKind} {i : Fin 4} (hs : s.sub = .dPay k i) (ht : s.inTok = none)
    (b : Byte) (l : List Byte) (hi : i.val + 1 < k.len) (hj : i.val + 1 < 4) :
    runSchedule s (feedBytes (b :: l) ++ es)
      = runSchedule { byteTaken s with pay := s.pay.set i.val b, sub := .dPay k ⟨i.val + 1, hj⟩ }
          (feedBytes l ++ es) :=
  have step := coreStep_dPay (s := byteOnIn b (feedBytes l ++ es) s) h.state hs rfl
  h.feedByte ht (step.trans (dif_pos hi))

/-- The last payload byte runs the chunk. -/
theorem Running.feedLastPayloadByte (h : Running s) {k : PayKind} {i : Fin 4} (hs : s.sub = .dPay k i)
    (ht : s.inTok = none) {b : Byte} (hi : i.val + 1 = k.len)
    (hx : exec (bufferedChunk k s.tag (s.pay.set i.val b))
        { byteTaken s with pay := s.pay.set i.val b, events := es } = .next { t with events := es }) :
    runSchedule s (feedBytes [b] ++ es) = runSchedule t es :=
  have step := coreStep_dPay (s := byteOnIn b es s) h.state hs rfl
  have last : ¬i.val + 1 < k.len := by omega
  h.feedByte (l := []) ht (step.trans ((dif_neg last).trans hx))

end

end Sys2Proof.Safety
end

section
/-! The bytes of one chunk, presented one by one, run it (43_decode_engine.md R173, R174). -/

namespace Sys2Proof.Safety

open Sys2Proof.Machine

section
variable {s t : State} {es : List Event}

/-- `s` with the bytes consumed and counted. -/
def bytesTaken (l : List Byte) (s : State) : State :=
  { s with inTok := none, inCount := s.inCount + BitVec.ofNat 64 l.length }

theorem bytesTaken_cons (b : Byte) (l : List Byte) (s : State) :
    bytesTaken (b :: l) s = bytesTaken l (byteTaken s) := by
  simp [bytesTaken, byteTaken, Nat.add_comm l.length, BitVec.ofNat_add, BitVec.add_assoc]

/-- A tag byte without a payload runs its chunk at once. -/
theorem stepDTag_byte_of_noPayload {b : Byte} (hk : (kind b).payloadLen = 0) :
    stepDTag (.byte b) s = exec (chunkOf (kind b) b 0 0 0 0) { countIn s with tag := b } := by
  cases h : kind b <;> simp_all [stepDTag, ChunkKind.payloadLen]

theorem Running.feedOneByte (h : Running s) (hs : s.sub = .dTag) (ht : s.inTok = none) {b : Byte}
    (hk : (kind b).payloadLen = 0)
    (hx : exec (chunkOf (kind b) b 0 0 0 0) { byteTaken s with tag := b, events := es }
      = .next { t with events := es }) :
    runSchedule s (feedBytes [b] ++ es) = runSchedule t es :=
  have step := coreStep_dTag (s := byteOnIn b es s) h.state hs rfl
  h.feedByte (l := []) ht (step.trans ((stepDTag_byte_of_noPayload hk).trans hx))

/-! ### The payload (30_encoding.md R84, R85, R88) -/

/-- PAY with the bytes stored from place `i` on. -/
def storeBytes (pay : Vector Byte 4) (i : Nat) : List Byte → Vector Byte 4
  | [] => pay
  | b :: l => if h : i < 4 then storeBytes (pay.set i b h) (i + 1) l else pay

theorem storeBytes_cons (pay : Vector Byte 4) (i : Fin 4) (b : Byte) (l : List Byte) :
    storeBytes pay i.val (b :: l) = storeBytes (pay.set i.val b) (i.val + 1) l :=
  dif_pos i.isLt

theorem bufferedChunk_luma (tag : Byte) (pay : Vector Byte 4) (p0 : Byte) :
    bufferedChunk .luma tag (storeBytes pay 0 [p0]) = chunkOf .luma tag p0 0 0 0 := by
  simp [storeBytes, bufferedChunk, PayKind.kind, chunkOf, Vector.get_eq_getElem]

theorem bufferedChunk_rgb (tag : Byte) (pay : Vector Byte 4) (p0 p1 p2 : Byte) :
    bufferedChunk .rgb tag (storeBytes pay 0 [p0, p1, p2]) = chunkOf .rgb tag p0 p1 p2 0 := by
  simp [storeBytes, bufferedChunk, PayKind.kind, chunkOf, Vector.get_eq_getElem]

theorem bufferedChunk_rgba (tag : Byte) (pay : Vector Byte 4) (p0 p1 p2 p3 : Byte) :
    bufferedChunk .rgba tag (storeBytes pay 0 [p0, p1, p2, p3]) = chunkOf .rgba tag p0 p1 p2 p3 := by
  simp [storeBytes, bufferedChunk, PayKind.kind, chunkOf, Vector.get_eq_getElem]

/-- The payload bytes that are missing, stored in their places, run the chunk. -/
theorem Running.feedPayload (h : Running s) {k : PayKind} {i : Fin 4} (hs : s.sub = .dPay k i) (ht : s.inTok = none)
    {l : List Byte} (hne : l ≠ []) (hlen : i.val + l.length = k.len) :
    ∃ sub, ∀ es t,
      exec (bufferedChunk k s.tag (storeBytes s.pay i.val l))
        { bytesTaken l s with pay := storeBytes s.pay i.val l, sub := sub, events := es }
        = .next { t with events := es } →
      runSchedule s (feedBytes l ++ es) = runSchedule t es := by
  induction l generalizing s i with
  | nil => exact absurd rfl hne
  | cons b l ih =>
    rw [storeBytes_cons]
    cases l with
    | nil => exact ⟨s.sub, fun es t hx => h.feedLastPayloadByte hs ht hlen hx⟩
    | cons c l =>
      simp only [List.length_cons] at hlen
      have hlt : i.val + 1 < 4 := by have := k.len_le; omega
      obtain ⟨sub, hrun⟩ := ih
        (s := { byteTaken s with pay := s.pay.set i.val b, sub := .dPay k ⟨i.val + 1, hlt⟩ }) { h with } rfl rfl
        nofun (by simp only [List.length_cons]; omega)
      rw [bytesTaken_cons]
      exact ⟨sub, fun es t hx => (h.feedPayloadByte hs ht b _ (by omega) hlt).trans (hrun es t hx)⟩

/-! ### The whole chunk -/

/-- `s` after the fetch of the bytes `l`, which leaves `tag`, `pay` and `sub`. -/
def fetched (l : List Byte) (tag : Byte) (pay : Vector Byte 4) (sub : Sub) (s : State) : State :=
  { bytesTaken l s with tag := tag, pay := pay, sub := sub }

/-- Fed the bytes `l`, the core fetches them and runs `i`. -/
def FedRuns (s : State) (l : List Byte) (i : Instr) : Prop :=
  ∃ tag pay sub, ∀ es t,
    exec i { fetched l tag pay sub s with events := es } = .next { t with events := es } →
    runSchedule s (feedBytes l ++ es) = runSchedule t es

theorem Running.fedRuns_oneByte (h : Running s) (hs : s.sub = .dTag) (ht : s.inTok = none) {b : Byte}
    (hk : (kind b).payloadLen = 0) : FedRuns s [b] (chunkOf (kind b) b 0 0 0 0) :=
  ⟨b, s.pay, s.sub, fun _ _ hx => h.feedOneByte hs ht hk hx⟩

theorem Running.fedRuns_payload (h : Running s) (hs : s.sub = .dTag) (ht : s.inTok = none) {b : Byte} {l : List Byte}
    {k : PayKind} (hk : kind b = k.kind) (hlen : l.length = k.len) :
    FedRuns s (b :: l) (bufferedChunk k b (storeBytes s.pay 0 l)) := by
  have hne : l ≠ [] := by rintro rfl; cases k <;> cases hlen
  obtain ⟨sub, hrun⟩ := Running.feedPayload (s := { byteTaken s with tag := b, sub := .dPay k 0 }) { h with } rfl rfl
    hne ((Nat.zero_add _).trans hlen)
  simp only [FedRuns, fetched, bytesTaken_cons]
  exact ⟨b, _, sub, fun es t hx => (h.feedTag hs ht l hk).trans (hrun es t hx)⟩

/-- One case for each arm of the decoder that reads a chunk. -/
theorem Running.fedRuns (h : Running s) (hs : s.sub = .dTag) (ht : s.inTok = none) {l : List Byte} {i : Instr}
    (hl : decodeChunk l = .ok (i, [])) : FedRuns s l i := by
  unfold decodeChunk at hl
  split at hl
  · cases hl
  next b rest =>
  have oneByte (hk : (kind b).payloadLen = 0) := h.fedRuns_oneByte hs ht hk
  split at hl <;> cases hl
  case _ p0 p1 p2 hk =>
    rw [← bufferedChunk_rgb b s.pay]
    exact h.fedRuns_payload hs ht hk rfl
  case _ p0 p1 p2 p3 hk =>
    rw [← bufferedChunk_rgba b s.pay]
    exact h.fedRuns_payload hs ht hk rfl
  case _ p0 hk =>
    rw [← bufferedChunk_luma b s.pay]
    exact h.fedRuns_payload hs ht hk rfl
  all_goals
    next hk =>
    rw [hk] at oneByte
    exact oneByte rfl

end

end Sys2Proof.Safety
end

section
/-! The pixels of one chunk, ACKed byte by byte, are delivered (43_decode_engine.md R175, R178). -/

namespace Sys2Proof.Safety

open Sys2Proof.Machine

section
variable {s : State} {px : Pixel} {n : Nat} {j : Fin 4}

/-! ### The parts of the state that the delivery writes -/

/-- `s` in another sub-state. -/
def withSub (x : Sub) (s : State) : State := { s with sub := x }

/-- `s` with `n` more pixels counted. -/
def pixelsCounted (n : Nat) (s : State) : State := { s with pixCount := s.pixCount + BitVec.ofNat 64 n }

/-- `s` with the bytes ACKed and counted. -/
def bytesDelivered (l : List Byte) (s : State) : State :=
  { s with outAns := none, outCount := s.outCount + BitVec.ofNat 64 l.length, outStream := s.outStream ++ l }

theorem pixelsCounted_withSub (x : Sub) : pixelsCounted n (withSub x s) = withSub x (pixelsCounted n s) := rfl

theorem bytesDelivered_withSub (l : List Byte) (x : Sub) :
    bytesDelivered l (withSub x s) = withSub x (bytesDelivered l s) := rfl

theorem bytesDelivered_pixelsCounted (l : List Byte) :
    bytesDelivered l (pixelsCounted n s) = pixelsCounted n (bytesDelivered l s) := rfl

theorem pixelsCounted_pixelsCounted (m : Nat) : pixelsCounted m (pixelsCounted n s) = pixelsCounted (n + m) s := by
  simp [pixelsCounted, BitVec.ofNat_add, BitVec.add_assoc]

theorem bytesDelivered_bytesDelivered (l l' : List Byte) :
    bytesDelivered l' (bytesDelivered l s) = bytesDelivered (l ++ l') s := by
  simp [bytesDelivered, BitVec.ofNat_add, BitVec.add_assoc]

/-! ### The end of a byte, of a pixel and of a chunk -/

theorem nextChunk_withSub (x : Sub) : nextChunk (withSub x s) = nextChunk s := by
  unfold nextChunk finishBody finish withSub
  split
  · cases h : s.decMarker <;> simp
  · rfl

theorem nextChunk_withEvents (s : State) (es : List Event) :
    nextChunk { s with events := es } = { nextChunk s with events := es } := by
  unfold nextChunk finishBody finish
  split
  · cases h : s.decMarker <;> simp
  · rfl

/-- The end of a pixel: the next of the chunk, or what follows the chunk. -/
def afterPixel (px : Pixel) (n : Nat) (s : State) : State :=
  if 1 < n then withSub (.dOut px (n - 1) 0) (pixelsCounted 1 s) else nextChunk (pixelsCounted 1 s)

theorem afterPixel_one : afterPixel px 1 s = nextChunk (pixelsCounted 1 s) := rfl

theorem afterPixel_succ (hn : 1 ≤ n) : afterPixel px (n + 1) s = withSub (.dOut px n 0) (pixelsCounted 1 s) :=
  if_pos (by omega)

theorem afterPixel_withSub (x : Sub) : afterPixel px n (withSub x s) = afterPixel px n s := by
  unfold afterPixel
  split
  · rfl
  · rw [pixelsCounted_withSub, nextChunk_withSub]

theorem afterPixelByte_inner (h : j.val + 1 < s.channels.toNat) (h4 : j.val + 1 < 4) :
    afterPixelByte px n j s = withSub (.dOut px n ⟨j.val + 1, h4⟩) s :=
  dif_pos ⟨h, h4⟩

theorem afterPixelByte_last (h : j.val + 1 = s.channels.toNat) : afterPixelByte px n j s = afterPixel px n s :=
  dif_neg (by omega)

theorem afterPixelByte_withEvents (s : State) (es : List Event) :
    afterPixelByte px n j { s with events := es } = { afterPixelByte px n j s with events := es } := by
  unfold afterPixelByte
  split
  · rfl
  · split
    · rfl
    · exact nextChunk_withEvents { s with pixCount := s.pixCount + 1 } es

/-! ### One byte -/

theorem ackBytes_succ_append (m : Nat) (es : List Event) :
    ackBytes (m + 1) ++ es = .answer .ack :: .core :: (ackBytes m ++ es) := by
  simp [ackBytes, List.replicate_succ]

theorem ackBytes_add (a b : Nat) : ackBytes (a + b) = ackBytes a ++ ackBytes b := by
  rw [ackBytes, ← List.replicate_append_replicate, List.flatten_append]; rfl

theorem answer_ack {b : Byte} (ho : offer s = some b) (ha : s.outAns = none) :
    answer .ack s = .next { s with outAns := some .ack, outStream := s.outStream ++ [b] } := by
  simp [answer, ho, ha]

theorem offer_dOut (hb : s.state = .busy) (hs : s.sub = .dOut px n j) : offer s = some (chan px j) := by
  simp [offer, hb, hs]

theorem runSchedule_ackByte (hb : s.state = .busy) (hs : s.sub = .dOut px n j) (ha : s.outAns = none) (m : Nat)
    (es : List Event) :
    runSchedule s (ackBytes (m + 1) ++ es)
      = runSchedule (afterPixelByte px n j (bytesDelivered [chan px j] s)) (ackBytes m ++ es) := by
  rw [ackBytes_succ_append]
  generalize ackBytes m ++ es = es
  have acked := answer_ack (s := { s with events := .core :: es }) (offer_dOut hb hs) ha
  calc runSchedule s (.answer .ack :: .core :: es)
      = runSchedule { s with outAns := some .ack, outStream := s.outStream ++ [chan px j] } (.core :: es) :=
        runSchedule_cons acked
    _ = runSchedule (afterPixelByte px n j (bytesDelivered [chan px j] s)) es := by
        refine runSchedule_cons ?_
        rw [← afterPixelByte_withEvents]
        exact coreStep_dOut
          (s := { s with outAns := some .ack, outStream := s.outStream ++ [chan px j], events := es }) hb hs rfl

/-! ### One pixel -/

theorem length_pixelBytes {ch : Byte} (hch : ch = 3 ∨ ch = 4) (p : Pixel) : (pixelBytes ch p).length = ch.toNat := by
  rcases hch with rfl | rfl <;> rfl

theorem pixelBytes_getElem? {ch : Byte} (hch : ch = 3 ∨ ch = 4) (p : Pixel) (h : j.val < ch.toNat) :
    (pixelBytes ch p)[j.val]? = some (chan p j) := by
  rcases hch with rfl | rfl <;> revert j <;> simp [Fin.forall_fin_succ, pixelBytes, chan]

theorem pixelBytes_drop {ch : Byte} (hch : ch = 3 ∨ ch = 4) (p : Pixel) (h : j.val < ch.toNat) :
    (pixelBytes ch p).drop j.val = [chan p j] ++ (pixelBytes ch p).drop (j.val + 1) := by
  obtain ⟨hlt, hget⟩ := List.getElem?_eq_some_iff.mp (pixelBytes_getElem? hch p h)
  rw [List.drop_eq_getElem_cons hlt, hget]; rfl

/-- The bytes of a pixel from byte `j` on. -/
theorem runSchedule_ackPixelFrom (hb : s.state = .busy) (hs : s.sub = .dOut px n j) (ha : s.outAns = none)
    (hch : s.channels = 3 ∨ s.channels = 4) {m : Nat} (hm : j.val + (m + 1) = s.channels.toNat) (es : List Event) :
    runSchedule s (ackBytes (m + 1) ++ es)
      = runSchedule (afterPixel px n (bytesDelivered ((pixelBytes s.channels px).drop j.val) s)) es := by
  have hle : s.channels.toNat ≤ 4 := by rcases hch with h | h <;> simp [h]
  induction m generalizing s j with
  | zero =>
    have bytes : (pixelBytes s.channels px).drop j.val = [chan px j] := by
      rw [pixelBytes_drop hch px (by omega), List.drop_of_length_le (by rw [length_pixelBytes hch]; omega)]; rfl
    rw [runSchedule_ackByte hb hs ha, afterPixelByte_last (s := bytesDelivered _ s) hm, bytes]; rfl
  | succ m ih =>
    have hlt : j.val + 1 < s.channels.toNat := by omega
    have h4 : j.val + 1 < 4 := by omega
    have rest := ih (s := withSub (.dOut px n ⟨j.val + 1, h4⟩) (bytesDelivered [chan px j] s)) hb rfl rfl hch
      (by show j.val + 1 + (m + 1) = s.channels.toNat; omega) hle
    rw [runSchedule_ackByte hb hs ha, afterPixelByte_inner (s := bytesDelivered _ s) hlt h4, rest,
      bytesDelivered_withSub, afterPixel_withSub, bytesDelivered_bytesDelivered,
      pixelBytes_drop hch px (j := j) (by omega)]
    rfl

theorem runSchedule_ackPixel (hb : s.state = .busy) (hs : s.sub = .dOut px n 0) (ha : s.outAns = none)
    (hch : s.channels = 3 ∨ s.channels = 4) (es : List Event) :
    runSchedule s (ackBytes s.channels.toNat ++ es)
      = runSchedule (afterPixel px n (bytesDelivered (pixelBytes s.channels px) s)) es := by
  obtain ⟨m, hm⟩ : ∃ m, s.channels.toNat = m + 1 := by rcases hch with h | h <;> simp [h]
  rw [hm]
  exact runSchedule_ackPixelFrom hb hs ha hch (by simp [hm]) es

/-! ### All pixels of the chunk -/

theorem runSchedule_ackPixels (hb : s.state = .busy) (hs : s.sub = .dOut px n 0) (ha : s.outAns = none)
    (hch : s.channels = 3 ∨ s.channels = 4) (hn : 1 ≤ n) :
    runSchedule s (ackBytes (n * s.channels.toNat))
      = runSchedule (nextChunk (pixelsCounted n
          (bytesDelivered ((List.replicate n px).flatMap (pixelBytes s.channels)) s))) [] := by
  induction n, hn using Nat.le_induction generalizing s with
  | base =>
    rw [Nat.one_mul, ← List.append_nil (ackBytes _), runSchedule_ackPixel hb hs ha hch, afterPixel_one]
    simp
  | succ n hn ih =>
    have rest := ih (s := withSub (.dOut px n 0) (pixelsCounted 1 (bytesDelivered (pixelBytes s.channels px) s)))
      hb rfl rfl hch
    rw [Nat.add_comm n, Nat.add_mul, Nat.one_mul, ackBytes_add, runSchedule_ackPixel hb hs ha hch, Nat.add_comm 1,
      afterPixel_succ hn]
    refine rest.trans ?_
    rw [bytesDelivered_withSub, pixelsCounted_withSub, nextChunk_withSub, bytesDelivered_pixelsCounted,
      pixelsCounted_pixelsCounted, bytesDelivered_bytesDelivered, Nat.add_comm 1, List.replicate_succ,
      List.flatMap_cons]
    rfl

end

end Sys2Proof.Safety
end

section
/-! A chunk in one piece and a chunk byte by byte (42_chunk_decode.md R150, 43_decode_engine.md R189). -/

namespace Sys2Proof.Safety

open Sys2Proof.Machine

section
variable {s : State} {i : Instr} {out : List Pixel} {h : History}

theorem position_of_decodeChunkRef {h₀ : History} (href : decodeChunkRef i h₀ = some (out, h)) :
    i.position = .body := by
  cases i with
  | rgb | rgba | index | diff | luma | run => rfl
  | header | endMarker | startDecode | startEncode | abort => cases href

theorem decodeChunk_streamBytes (wf : i.wellFormed = true) (pos : i.position = .body) :
    decodeChunk (streamBytes i) = .ok (i, []) := by
  have decoded := streamElementsRoundTrip i [] wf (by simp [pos])
  rwa [List.append_nil, pos] at decoded

/-- `s` after a chunk that leaves the history `h` and puts out `px` `n` times: the delivery is next. -/
def toDeliver (h : History) (px : Pixel) (n : Nat) (s : State) : State :=
  { s with prev := h.1, cache := h.2, sub := .dOut px n 0 }

/-- A chunk that fits has one pixel, which it puts out once or, as a run, several times: PREV and the cache are as
DecodeChunk leaves them, and the delivery is next. -/
theorem exec_eq_decodeChunkRef (wf : i.wellFormed = true)
    (href : decodeChunkRef i (s.prev, s.cache) = some (out, h))
    (fits : s.pixCount.toNat + out.length ≤ s.target.toNat) :
    ∃ px n, 1 ≤ n ∧ out = List.replicate n px ∧ exec i s = .next (toDeliver h px n s) := by
  cases i with
  | rgb | rgba | diff | luma =>
    cases href
    exact ⟨_, 1, le_rfl, rfl, rfl⟩
  | index k =>
    have hk : k < 64 := of_decide_eq_true wf
    rw [decodeChunkRef, dif_pos hk] at href
    cases href
    exact ⟨_, 1, le_rfl, rfl, exec_index hk⟩
  | run n =>
    obtain ⟨h1, h62⟩ := (Instr.wellFormed_run_iff n).mp wf
    cases href
    rw [List.length_replicate] at fits
    exact ⟨_, n, h1, rfl, exec_run_fits h1 h62 fits⟩
  | header | endMarker | startDecode | startEncode | abort => cases href

/-- Byte by byte: the bytes are fetched, the chunk leaves its history and its pixel to be delivered, and the ACKs
deliver the pixel as often as the chunk has it. -/
theorem Running.runsChunk (hr : Running s) (hs : s.sub = .dTag) (ht : s.inTok = none)
    (hch : s.channels = 3 ∨ s.channels = 4) (wf : i.wellFormed = true)
    (href : decodeChunkRef i (s.prev, s.cache) = some (out, h))
    (fits : s.pixCount.toNat + out.length ≤ s.target.toNat) :
    ∃ tag pay sub px, runSchedule s (feedBytes (streamBytes i) ++ ackBytes (out.length * s.channels.toNat))
      = .next (nextChunk { pixelsCounted out.length (bytesDelivered (out.flatMap (pixelBytes s.channels))
          (toDeliver h px out.length (fetched (streamBytes i) tag pay sub s))) with events := [] }) := by
  have decoded := decodeChunk_streamBytes wf (position_of_decodeChunkRef href)
  obtain ⟨tag, pay, sub, fed⟩ := hr.fedRuns hs ht decoded
  obtain ⟨px, n, hn, rfl, ran⟩ := exec_eq_decodeChunkRef
    (s := { fetched (streamBytes i) tag pay sub s with events := ackBytes (out.length * s.channels.toNat) })
    wf href fits
  rw [List.length_replicate] at ran ⊢
  have delivered := runSchedule_ackPixels (s := toDeliver h px n (fetched (streamBytes i) tag pay sub s)) hr.state rfl
    hr.noAnswer hch hn
  refine ⟨tag, pay, sub, px, (fed _ (toDeliver h px n (fetched (streamBytes i) tag pay sub s)) ran).trans ?_⟩
  rw [nextChunk_withEvents]
  exact delivered

end

/-- Settles O28: the run of the chunk ends in `nextChunk` of the state that the statement describes, IN being empty and
no answer waiting there as at the start. -/
theorem chunkRunsAsDecodeChunk : Obligations.ChunkRunsAsDecodeChunk := by
  intro s i out h inv hb hs ht ha hch wf href fits
  obtain ⟨tag, pay, sub, px, run⟩ := (inv.running hb ha).runsChunk hs ht hch wf href fits
  refine ⟨_, _, run, ?_, nextChunk_spec _⟩
  have bytes : (out.flatMap (pixelBytes s.channels)).length = out.length * s.channels.toNat := by
    simp [List.length_flatMap, length_pixelBytes hch]
  simp only [pixelsCounted, bytesDelivered, toDeliver, fetched, bytesTaken, bytes, ht, ha]

end Sys2Proof.Safety
end

section
/-! The decode engine step by step: what each token and each answer does (43_decode_engine.md R170 to R178, R183,
R191). -/

namespace Sys2Proof.Safety

open Sys2Proof.Machine

/-! ### One byte of a chunk and of the marker (43_decode_engine.md R173, R174, R176) -/

section
variable {s : State} {b : Byte}

/-- The first byte of a chunk with a payload. -/
theorem stepDTag_byte_of_payload {k : PayKind} (hk : kind b = k.kind) :
    stepDTag (.byte b) (tokenTaken s) = .next { byteTaken s with tag := b, sub := .dPay k 0 } := by
  cases k <;> simp only [stepDTag, hk, PayKind.kind] <;> rfl

/-- A payload byte before the last. -/
theorem stepDPay_byte_of_lt {k : PayKind} {i j : Fin 4} (hj : j.val = i.val + 1) (h : j.val < k.len) :
    stepDPay k i (.byte b) (tokenTaken s) = .next { byteTaken s with pay := s.pay.set i.val b, sub := .dPay k j } := by
  obtain ⟨j, hlt⟩ := j
  obtain rfl : j = i.val + 1 := hj
  exact dif_pos h

/-- The last payload byte. -/
theorem stepDPay_byte_last {k : PayKind} {i : Fin 4} (h : ¬i.val + 1 < k.len) :
    stepDPay k i (.byte b) (tokenTaken s)
      = exec (bufferedChunk k s.tag (s.pay.set i.val b)) { byteTaken s with pay := s.pay.set i.val b } :=
  dif_neg h

theorem stepDMark_eoi_finishes {i : Fin 8} (h : i.val = 0 ∧ s.decMarker = .optional) :
    stepDMark i .eoi (tokenTaken s) = .next (finish (tokenTaken s)) :=
  if_pos h

theorem stepDMark_eoi_short {i : Fin 8} (h : ¬(i.val = 0 ∧ s.decMarker = .optional)) :
    stepDMark i .eoi (tokenTaken s) = .next (raise .shortRead (tokenTaken s)) :=
  if_neg h

theorem stepDMark_byte_bad {i : Fin 8} (h : b ≠ Config.markerByte i) :
    stepDMark i (.byte b) (tokenTaken s) = .next (raise .badEndMarker (byteTaken s)) :=
  if_pos h

theorem stepDMark_byte_of_lt {i : Fin 8} (hb : b = Config.markerByte i) (h : i.val + 1 < 8) :
    stepDMark i (.byte b) (tokenTaken s) = .next { byteTaken s with sub := .dMark ⟨i.val + 1, h⟩ } :=
  (if_neg (not_not.mpr hb)).trans (dif_pos h)

theorem stepDMark_byte_last {i : Fin 8} (hb : b = Config.markerByte i) (h : ¬i.val + 1 < 8) :
    stepDMark i (.byte b) (tokenTaken s) = exec .endMarker (byteTaken s) :=
  (if_neg (not_not.mpr hb)).trans (dif_neg h)

end

/-! ### What the decoder reads of one element -/

/-- A chunk that is one byte is a kind without payload. -/
theorem decodeChunk_singleton {b : Byte} {i : Instr} (h : decodeChunk [b] = .ok (i, [])) :
    (kind b).payloadLen = 0 ∧ i = chunkOf (kind b) b 0 0 0 0 := by
  cases hk : kind b <;> simp only [decodeChunk, hk] at h <;> cases h <;> exact ⟨rfl, rfl⟩

/-- TAG and the bytes of PAY that its kind has are the chunk the core runs (30_encoding.md R92). -/
theorem decodeChunk_buffered {k : PayKind} {tag : Byte} (hk : kind tag = k.kind) (p : Vector Byte 4) :
    decodeChunk (tag :: p.toList.take k.len) = .ok (bufferedChunk k tag p, []) := by
  obtain ⟨⟨l⟩, h⟩ := p
  simp only [List.size_toArray] at h
  match l, h with
  | [_, _, _, _], _ => cases k <;> simp only [decodeChunk, hk, PayKind.kind] <;> rfl

/-- The marker's last byte decides (42_chunk_decode.md R148). -/
theorem decodeMarker_lastByte {b : Byte} {i : Instr} (h : decodeMarker [0, 0, 0, 0, 0, 0, 0, b] = .ok (i, [])) :
    b = 0x01 ∧ i = .endMarker := by
  have compared : decodeMarker [0, 0, 0, 0, 0, 0, 0, b]
      = if b = 0x01 then .ok (.endMarker, []) else .error .notMarker := rfl
  rw [compared] at h
  split at h
  · next hb => cases h; exact ⟨hb, rfl⟩
  · cases h

/-! ### The core's turn -/

section
variable {s : State}

/-- The core's turn, listed in the events or after them, is its own step (20_memory.md R66). -/
theorem step_of_coreTurn {rest : List Event} (h : (s.events = [] ∧ rest = []) ∨ s.events = .core :: rest) :
    step s = coreStep { s with events := rest } := by
  rcases h with ⟨hev, rfl⟩ | hev
  · calc step s = coreStep s := by simp only [step, hev]
      _ = coreStep { s with events := [] } := by rw [← hev]
  · simp only [step, hev, perform]

/-- A CTRL write that is listed next and carries a command runs it (45_host_commands.md R241). -/
theorem step_of_command {v : Word} {i : Instr} {rest : List Event} (hev : s.events = .csrWrite 0 v :: rest)
    (hv : decodeCtrl v = .ok i) : step s = exec i { s with events := rest } := by
  calc step s = writeCtrl v { s with events := rest } := by simp only [step, hev]; rfl
    _ = exec i { s with events := rest } := by simp only [writeCtrl, hv]

/-- Without the token or the answer it waits for, and outside BUSY, the core holds (43_decode_engine.md R191). -/
theorem coreStep_holds
    (h : s.state ≠ .busy ∨ (offer s = none ∧ s.inTok = none) ∨ ((offer s).isSome = true ∧ s.outAns = none)) :
    coreStep s = .next s := by
  rcases h with hb | ⟨ho, ht⟩ | ⟨ho, ha⟩
  · exact coreStep_not_busy hb
  · exact coreStep_no_token ho ht
  · exact coreStep_no_answer (Option.isSome_iff_ne_none.mp ho) ha

end

/-! ### START of a decode pass (45_host_commands.md R241, R243) -/

/-- Outside BUSY the fields of the write are stored (45_host_commands.md R242). -/
theorem storeCtrl_of_not_busy {s : State} (hb : s.state ≠ .busy) (m : PassMode) (em : Bool) (dm : BitVec 2)
    (iq : Bool) :
    storeCtrl m em dm iq s
      = { s with mode := m, encMarker := em, decMarker := writeDecMarker s.decMarker dm, irqEn := iq } :=
  if_neg hb

theorem exec_startDecode_of_not_busy {s : State} (hb : s.state ≠ .busy) (em : Bool) (dm : BitVec 2) (iq : Bool) :
    exec (.startDecode em dm iq) s
      = .next (startDecode { s with
          mode := .decode, encMarker := em, decMarker := writeDecMarker s.decMarker dm, irqEn := iq }) := by
  rw [← storeCtrl_of_not_busy hb]
  exact if_neg hb

/-! ### The statements -/

/-- Settles O21: the tag byte's kind has a payload, and a payload byte before the last is stored. -/
theorem payloadByteStep : Obligations.PayloadByteStep := by
  refine ⟨fun s b hb hs ht => ⟨?_, ?_, fun h => ?_⟩, fun s k i j b hb hs ht hj h => ?_⟩
  · rintro rfl
    exact (coreStep_dTag hb hs ht).trans (stepDTag_byte_of_payload (k := .rgb) rfl)
  · rintro rfl
    exact (coreStep_dTag hb hs ht).trans (stepDTag_byte_of_payload (k := .rgba) rfl)
  · exact (coreStep_dTag hb hs ht).trans (stepDTag_byte_of_payload (k := .luma) (kind_eq_luma h.1 h.2))
  · exact (coreStep_dPay hb hs ht).trans (stepDPay_byte_of_lt hj h)

/-- Settles O22: the ACKed byte is an inner one, the last of a pixel of the chunk, or the last of the chunk. -/
theorem pixelByteDelivered : Obligations.PixelByteDelivered := by
  intro s px n j hb hs hch hj hn
  have ho : offer s = some (chan px j) := offer_dOut hb hs
  refine ⟨chan_eq_channelByte px j ▸ ho, coreStep_fail ho, fun ha => ⟨_, coreStep_dOut hb hs ha, ?_, ?_, ?_⟩⟩
  · exact fun h4 hlt => afterPixelByte_inner (s := byteCounted s) hlt h4
  · intro hlast h2
    obtain ⟨m, rfl⟩ := Nat.exists_eq_add_of_le' h2
    exact (afterPixelByte_last (s := byteCounted s) hlast).trans (afterPixel_succ (by omega))
  · rintro hlast rfl
    rw [afterPixelByte_last (s := byteCounted s) hlast, afterPixel_one]
    exact nextChunk_spec _

/-- Settles O23: the step in D_MARK by its token and by the byte that END_MARKER has at its place. -/
theorem markerByteStep : Obligations.MarkerByteStep := by
  intro s i hb hs
  refine ⟨fun ht h0 hm => ?_, fun ht h => ?_, fun b ht => ⟨fun hne => ?_, ?_, ?_⟩⟩
  · exact (coreStep_dMark hb hs ht).trans (stepDMark_eoi_finishes ⟨h0, hm⟩)
  · exact (coreStep_dMark hb hs ht).trans (stepDMark_eoi_short h)
  · rw [← markerByte_eq] at hne
    exact (coreStep_dMark hb hs ht).trans (stepDMark_byte_bad hne)
  · rintro rfl h
    have matching : 0x00 = Config.markerByte i := by rw [markerByte_eq, if_neg (by omega)]
    exact (coreStep_dMark hb hs ht).trans (stepDMark_byte_of_lt matching h)
  · rintro rfl h7
    have matching : 0x01 = Config.markerByte i := by rw [markerByte_eq, if_pos h7]
    exact (coreStep_dMark hb hs ht).trans (stepDMark_byte_last matching (by omega))

/-- Settles O25: EOI raises SHORT_READ in each of the four sub-states. -/
theorem endOfInputIsShortRead : Obligations.EndOfInputIsShortRead := by
  rintro s hb ht (hs | ⟨i, hs⟩ | ⟨k, i, hs⟩ | ⟨i, hs⟩)
  · exact coreStep_dTag hb hs ht
  · exact coreStep_dHdr hb hs ht
  · exact coreStep_dPay hb hs ht
  · exact coreStep_eIn hb hs ht

/-- Settles O26: neither the offer nor the ports depend on the events, so the core holds at a listed turn too. -/
theorem holdingChangesNothing : Obligations.HoldingChangesNothing := by
  refine fun s h => ⟨coreStep_holds h, fun hev => ?_, fun rest hev => ?_⟩
  · simp only [step, hev, coreStep_holds h]
  · exact (step_of_coreTurn (.inr hev)).trans (coreStep_holds (s := { s with events := rest }) h)

/-- Settles O27: the buffered bytes decode to one instruction only, which the step's last byte runs. -/
theorem stepRunsDecodedElement : Obligations.StepRunsDecodedElement := by
  refine fun s i rest => ⟨fun b hev hb ht => ?_, fun v => step_of_command⟩
  rw [step_of_coreTurn hev]
  refine ⟨fun hs hdec => ?_, fun hs hdec => ?_, fun k j hs hj hk hdec => ?_, fun hs hdec => ?_⟩
  · cases (decodeHeader_toList _).symm.trans hdec
    exact (coreStep_dHdr (s := { s with events := rest }) hb hs ht).trans (stepDHdr_byte_last rfl)
  · obtain ⟨hk, rfl⟩ := decodeChunk_singleton hdec
    exact (coreStep_dTag (s := { s with events := rest }) hb hs ht).trans (stepDTag_byte_of_noPayload hk)
  · cases (decodeChunk_buffered hk _).symm.trans hdec
    exact (coreStep_dPay (s := { s with events := rest }) hb hs ht).trans (stepDPay_byte_last (by omega))
  · obtain ⟨rfl, rfl⟩ := decodeMarker_lastByte hdec
    exact (coreStep_dMark (s := { s with events := rest }) hb hs ht).trans (stepDMark_byte_last rfl (by decide))

/-- Settles O41: START outside BUSY, and DEC_MARKER by its four values. -/
theorem startDecodeEffect : Obligations.StartDecodeEffect := by
  intro s em dm iq hb
  refine ⟨_, exec_startDecode_of_not_busy hb em dm iq, rfl, clearCache_get, ?_, ?_, ?_, ?_⟩ <;> rintro rfl <;> rfl

end Sys2Proof.Safety
end

section
/-! What one step of the core can do, said once (43_decode_engine.md R170 to R176, 44_encode_engine.md R201 to R228). -/

namespace Sys2Proof.Safety

open Sys2Proof.Machine

/-- What the core's turn leads to: it holds, or it takes the token or the answer that its sub-state waits for. One case
for each way on of each sub-state. -/
inductive CoreEffect (s : State) : State → Prop
  /-- Nothing to take, or no pass runs. -/
  | held (h : s.state ≠ .busy ∨ s.sub = .none ∨ (offer s = none ∧ s.inTok = none)
      ∨ (offer s ≠ none ∧ s.outAns = none)) : CoreEffect s s
  /-- EOI in the place of a byte. -/
  | shortRead (ho : offer s = none) (ht : s.inTok = some .eoi) : CoreEffect s (raise .shortRead (tokenTaken s))
  /-- FAIL. -/
  | writeFail (ho : offer s ≠ none) (ha : s.outAns = some .fail) :
    CoreEffect s (raise .writeFail { s with outAns := none })
  /-- D_HDR(i), before the last byte. -/
  | headerByte {i : Fin 14} {b : Byte} (hs : s.sub = .dHdr i) (ht : s.inTok = some (.byte b)) (h : i.val + 1 < 14) :
    CoreEffect s { byteTaken s with hdrBuf := s.hdrBuf.set i.val b, sub := .dHdr ⟨i.val + 1, h⟩ }
  /-- The last header byte, the header being rejected. -/
  | headerRejected {b : Byte} {c : ErrCause} (hs : s.sub = .dHdr 13) (ht : s.inTok = some (.byte b))
    (hc : c ∈ [ErrCause.badMagic, .badChannels, .badColorspace]) :
    CoreEffect s (raise c { byteTaken s with hdrBuf := s.hdrBuf.set 13 b })
  /-- The last header byte, the header being accepted. -/
  | headerAccepted {b : Byte} {w h : Word} {c cs : Byte} (hs : s.sub = .dHdr 13) (ht : s.inTok = some (.byte b))
    (hc : c = 3 ∨ c = 4) (hcs : cs = 0 ∨ cs = 1) :
    CoreEffect s (nextChunk
      { acceptHeader w h c cs { byteTaken s with hdrBuf := s.hdrBuf.set 13 b } with phase := .body })
  /-- D_TAG: a chunk with a payload. -/
  | tag {b : Byte} {k : PayKind} (hs : s.sub = .dTag) (ht : s.inTok = some (.byte b)) (hk : kind b = k.kind) :
    CoreEffect s { byteTaken s with tag := b, sub := .dPay k 0 }
  /-- D_TAG: a chunk of one byte, whose pixel is to be delivered `n` times. -/
  | oneByteChunk {b : Byte} {h : History} {px : Pixel} {n : Nat} (hs : s.sub = .dTag) (ht : s.inTok = some (.byte b))
    (h1 : 1 ≤ n) (hn : n = 1 ∨ n ≤ pixelsLeft s) : CoreEffect s (toDeliver h px n { byteTaken s with tag := b })
  /-- D_TAG: a run of more pixels than remain. -/
  | overrun {b : Byte} (hs : s.sub = .dTag) (ht : s.inTok = some (.byte b)) :
    CoreEffect s (raise .runOverrun { byteTaken s with tag := b })
  /-- D_PAY(k, i), before the last byte. -/
  | payload {k : PayKind} {i : Fin 4} {b : Byte} (hs : s.sub = .dPay k i) (ht : s.inTok = some (.byte b))
    (h : i.val + 1 < k.len) (h4 : i.val + 1 < 4) :
    CoreEffect s { byteTaken s with pay := s.pay.set i.val b, sub := .dPay k ⟨i.val + 1, h4⟩ }
  /-- The last payload byte: the chunk's pixel is to be delivered. -/
  | payloadChunk {k : PayKind} {i : Fin 4} {b : Byte} {h : History} {px : Pixel} (hs : s.sub = .dPay k i)
    (ht : s.inTok = some (.byte b)) (hi : ¬i.val + 1 < k.len) :
    CoreEffect s (toDeliver h px 1 { byteTaken s with pay := s.pay.set i.val b })
  /-- D_OUT(px, n, j), before the pixel's last byte. -/
  | pixelByte {px : Pixel} {n : Nat} {j : Fin 4} (hs : s.sub = .dOut px n j) (ha : s.outAns = some .ack)
    (h : j.val + 1 < s.channels.toNat) (h4 : j.val + 1 < 4) :
    CoreEffect s (withSub (.dOut px n ⟨j.val + 1, h4⟩) (byteCounted s))
  /-- The pixel's last byte, with another pixel of the chunk to come. -/
  | pixelDone {px : Pixel} {n : Nat} {j : Fin 4} (hs : s.sub = .dOut px n j) (ha : s.outAns = some .ack)
    (h : ¬(j.val + 1 < s.channels.toNat ∧ j.val + 1 < 4)) (hn : 1 < n) :
    CoreEffect s (withSub (.dOut px (n - 1) 0) (pixelsCounted 1 (byteCounted s)))
  /-- The last byte of the chunk's last pixel. -/
  | chunkDone {px : Pixel} {n : Nat} {j : Fin 4} (hs : s.sub = .dOut px n j) (ha : s.outAns = some .ack)
    (h : ¬(j.val + 1 < s.channels.toNat ∧ j.val + 1 < 4)) (hn : ¬1 < n) :
    CoreEffect s (nextChunk (pixelsCounted 1 (byteCounted s)))
  /-- EOI in the place of an optional marker. -/
  | markerOmitted {i : Fin 8} (hs : s.sub = .dMark i) (ht : s.inTok = some .eoi)
    (h : i.val = 0 ∧ s.decMarker = .optional) : CoreEffect s (finish (tokenTaken s))
  /-- D_MARK(i): a byte that differs. -/
  | markerBad {i : Fin 8} {b : Byte} (hs : s.sub = .dMark i) (ht : s.inTok = some (.byte b))
    (h : b ≠ Config.markerByte i) : CoreEffect s (raise .badEndMarker (byteTaken s))
  /-- D_MARK(i), before the last byte. -/
  | markerByte {i : Fin 8} (hs : s.sub = .dMark i) (ht : s.inTok = some (.byte (Config.markerByte i)))
    (h : i.val + 1 < 8) : CoreEffect s { byteTaken s with sub := .dMark ⟨i.val + 1, h⟩ }
  /-- The whole marker is there. -/
  | markerSeen {i : Fin 8} (hs : s.sub = .dMark i) (ht : s.inTok = some (.byte (Config.markerByte i)))
    (h : ¬i.val + 1 < 8) : CoreEffect s (finish { byteTaken s with markerSeen := true })
  /-- E_HDR(j), before the last byte. -/
  | headerOut {j : Fin 14} (hs : s.sub = .eHdr j) (ha : s.outAns = some .ack) (h : j.val + 1 < 14) :
    CoreEffect s { byteCounted s with sub := .eHdr ⟨j.val + 1, h⟩ }
  /-- The whole header is delivered. -/
  | headerOutDone {j : Fin 14} (hs : s.sub = .eHdr j) (ha : s.outAns = some .ack) (h : ¬j.val + 1 < 14) :
    CoreEffect s (nextPixel { byteCounted s with phase := .body })
  /-- E_IN(i), before the pixel's last byte. -/
  | inputByte {i : Fin 4} {b : Byte} (hs : s.sub = .eIn i) (ht : s.inTok = some (.byte b))
    (h : i.val + 1 < s.channels.toNat) (h4 : i.val + 1 < 4) :
    CoreEffect s { byteTaken s with pin := s.pin.set i.val b, sub := .eIn ⟨i.val + 1, h4⟩ }
  /-- The input pixel is whole. -/
  | inputDone {i : Fin 4} {b : Byte} (hs : s.sub = .eIn i) (ht : s.inTok = some (.byte b))
    (h : ¬(i.val + 1 < s.channels.toNat ∧ i.val + 1 < 4)) :
    CoreEffect s (takePixel (inputPixel s.channels (s.pin.set i.val b)) { byteTaken s with pin := s.pin.set i.val b })
  /-- E_OUT. -/
  | chunkByte {b : Byte} {q : List Byte} (hs : s.sub = .eOut b q) (ha : s.outAns = some .ack) :
    CoreEffect s (emit q (byteCounted s))
  /-- E_MARK(j), before the last byte. -/
  | markerOut {j : Fin 8} (hs : s.sub = .eMark j) (ha : s.outAns = some .ack) (h : j.val + 1 < 8) :
    CoreEffect s { byteCounted s with sub := .eMark ⟨j.val + 1, h⟩ }
  /-- The whole marker is delivered. -/
  | markerOutDone {j : Fin 8} (hs : s.sub = .eMark j) (ha : s.outAns = some .ack) (h : ¬j.val + 1 < 8) :
    CoreEffect s (finish (byteCounted s))

/-- The result's next state, if any, is one of these. -/
abbrev HasCoreEffect (s : State) (r : Result) : Prop := NextSatisfies (CoreEffect s) r

section
variable {s : State}

/-! ### The input sub-states -/

theorem stepDHdr_effect {i : Fin 14} {t : Token} (hs : s.sub = .dHdr i) (ht : s.inTok = some t) :
    HasCoreEffect s (stepDHdr i t (tokenTaken s)) := by
  cases t with
  | eoi => exact .shortRead (by simp [offer, hs]) ht
  | byte b =>
    by_cases h : i.val + 1 < 14
    · rw [stepDHdr_byte_of_lt h]
      exact .headerByte hs ht h
    · obtain rfl : i = 13 := by omega
      rw [stepDHdr_byte_last rfl]
      show NextSatisfies _ (execHeader _ _ _ _ _ _)
      unfold execHeader
      split_ifs with hm hc hcs
      · exact .headerRejected hs ht (by decide)
      · exact .headerRejected hs ht (by decide)
      · exact .headerRejected hs ht (by decide)
      · exact .headerAccepted hs ht ((legalChannels_iff _).mp (by simpa using hc))
          ((legalColorspace_iff _).mp (by simpa using hcs))

/-- A chunk of one byte (42_chunk_decode.md R144, R145, R147). -/
theorem exec_oneByteChunk_effect {b : Byte} (hs : s.sub = .dTag) (ht : s.inTok = some (.byte b))
    (hk : (kind b).payloadLen = 0) :
    HasCoreEffect s (exec (chunkOf (kind b) b 0 0 0 0) { byteTaken s with tag := b }) := by
  have delivers (px : Pixel) : HasCoreEffect s (.next (complete px { byteTaken s with tag := b })) :=
    .oneByteChunk (h := (px, cacheWrite s.cache px)) hs ht le_rfl (.inl rfl)
  cases hkind : kind b with
  | rgb | rgba | luma => rw [hkind] at hk; cases hk
  | index =>
    rw [chunkOf, exec_index (bitField_lt b 5 0)]
    exact delivers _
  | diff => exact delivers _
  | run =>
    show NextSatisfies _ (execRun _ _)
    unfold execRun
    split_ifs with hlen hover
    · trivial
    · exact .overrun hs ht
    · exact .oneByteChunk (h := (s.prev, s.cache)) hs ht (by omega) (.inr (Nat.le_of_not_lt hover))

theorem stepDTag_effect {t : Token} (hs : s.sub = .dTag) (ht : s.inTok = some t) :
    HasCoreEffect s (stepDTag t (tokenTaken s)) := by
  cases t with
  | eoi => exact .shortRead (by simp [offer, hs]) ht
  | byte b =>
    have waits {k : PayKind} (hk : kind b = k.kind) : HasCoreEffect s (stepDTag (.byte b) (tokenTaken s)) := by
      rw [stepDTag_byte_of_payload hk]
      exact .tag hs ht hk
    have runs (hk : (kind b).payloadLen = 0) : HasCoreEffect s (stepDTag (.byte b) (tokenTaken s)) := by
      rw [stepDTag_byte_of_noPayload hk]
      exact exec_oneByteChunk_effect hs ht hk
    cases hk : kind b with
    | rgb => exact waits (k := .rgb) hk
    | rgba => exact waits (k := .rgba) hk
    | luma => exact waits (k := .luma) hk
    | index | diff | run => exact runs (by rw [hk]; rfl)

/-- A chunk with a payload (42_chunk_decode.md R142, R143, R146). -/
theorem exec_bufferedChunk (k : PayKind) (tag : Byte) (p : Vector Byte 4) :
    ∃ px, exec (bufferedChunk k tag p) s = .next (complete px s) := by
  cases k <;> exact ⟨_, rfl⟩

theorem stepDPay_effect {k : PayKind} {i : Fin 4} {t : Token} (hs : s.sub = .dPay k i) (ht : s.inTok = some t) :
    HasCoreEffect s (stepDPay k i t (tokenTaken s)) := by
  cases t with
  | eoi => exact .shortRead (by simp [offer, hs]) ht
  | byte b =>
    by_cases h : i.val + 1 < k.len
    · have h4 : i.val + 1 < 4 := h.trans_le k.len_le
      rw [stepDPay_byte_of_lt (j := ⟨i.val + 1, h4⟩) rfl h]
      exact .payload hs ht h h4
    · rw [stepDPay_byte_last h]
      obtain ⟨px, e⟩ := exec_bufferedChunk (s := { byteTaken s with pay := s.pay.set i.val b }) k s.tag
        (s.pay.set i.val b)
      rw [e]
      exact .payloadChunk (h := (px, cacheWrite s.cache px)) hs ht h

theorem stepDMark_effect {i : Fin 8} {t : Token} (hs : s.sub = .dMark i) (ht : s.inTok = some t) :
    HasCoreEffect s (stepDMark i t (tokenTaken s)) := by
  cases t with
  | eoi =>
    by_cases h : i.val = 0 ∧ s.decMarker = .optional
    · rw [stepDMark_eoi_finishes h]
      exact .markerOmitted hs ht h
    · rw [stepDMark_eoi_short h]
      exact .shortRead (by simp [offer, hs]) ht
  | byte b =>
    by_cases hb : b = Config.markerByte i
    · subst hb
      by_cases h : i.val + 1 < 8
      · rw [stepDMark_byte_of_lt rfl h]
        exact .markerByte hs ht h
      · rw [stepDMark_byte_last rfl h]
        exact .markerSeen hs ht h
    · rw [stepDMark_byte_bad hb]
      exact .markerBad hs ht hb

theorem stepEIn_effect {i : Fin 4} {t : Token} (hs : s.sub = .eIn i) (ht : s.inTok = some t) :
    HasCoreEffect s (stepEIn i t (tokenTaken s)) := by
  cases t with
  | eoi => exact .shortRead (by simp [offer, hs]) ht
  | byte b =>
    unfold stepEIn
    dsimp only
    split
    · next h => exact .inputByte hs ht h.1 h.2
    · next h => exact .inputDone hs ht h

theorem coreStep_token_effect (hb : s.state = .busy) (ho : offer s = none) {t : Token} (ht : s.inTok = some t) :
    HasCoreEffect s (coreStep s) := by
  cases hs : s.sub with
  | none =>
    have holds : coreStep s = .next s := by simp [coreStep, hb, hs]
    rw [holds]
    exact .held (.inr (.inl hs))
  | dHdr i => rw [coreStep_dHdr hb hs ht]; exact stepDHdr_effect hs ht
  | dTag => rw [coreStep_dTag hb hs ht]; exact stepDTag_effect hs ht
  | dPay k i => rw [coreStep_dPay hb hs ht]; exact stepDPay_effect hs ht
  | dMark i => rw [coreStep_dMark hb hs ht]; exact stepDMark_effect hs ht
  | eIn i => rw [coreStep_eIn hb hs ht]; exact stepEIn_effect hs ht
  | dOut | eHdr | eOut | eMark => simp [offer, hb, hs] at ho

/-! ### The output sub-states -/

theorem afterPixelByte_effect {px : Pixel} {n : Nat} {j : Fin 4} (hs : s.sub = .dOut px n j)
    (ha : s.outAns = some .ack) : CoreEffect s (afterPixelByte px n j (byteCounted s)) := by
  unfold afterPixelByte
  split_ifs with h hn
  · exact .pixelByte hs ha h.1 h.2
  · exact .pixelDone hs ha h hn
  · exact .chunkDone hs ha h hn

theorem afterHeaderByte_effect {j : Fin 14} (hs : s.sub = .eHdr j) (ha : s.outAns = some .ack) :
    CoreEffect s (afterHeaderByte j (byteCounted s)) := by
  unfold afterHeaderByte
  split_ifs with h
  · exact .headerOut hs ha h
  · exact .headerOutDone hs ha h

theorem afterMarkerByte_effect {j : Fin 8} (hs : s.sub = .eMark j) (ha : s.outAns = some .ack) :
    CoreEffect s (afterMarkerByte j (byteCounted s)) := by
  unfold afterMarkerByte
  split_ifs with h
  · exact .markerOut hs ha h
  · exact .markerOutDone hs ha h

theorem coreStep_ack_effect {b : Byte} (ho : offer s = some b) (ha : s.outAns = some .ack) :
    HasCoreEffect s (coreStep s) := by
  have hb := busy_of_offer ho
  cases hs : s.sub with
  | dOut px n j => rw [coreStep_dOut hb hs ha]; exact afterPixelByte_effect hs ha
  | eHdr j => rw [coreStep_eHdr hb hs ha]; exact afterHeaderByte_effect hs ha
  | eOut c q => rw [coreStep_eOut hb hs ha]; exact .chunkByte hs ha
  | eMark j => rw [coreStep_eMark hb hs ha]; exact afterMarkerByte_effect hs ha
  | none | dHdr | dTag | dPay | dMark | eIn => simp [offer, hb, hs] at ho

/-! ### The step -/

theorem coreStep_effect (s : State) : HasCoreEffect s (coreStep s) := by
  by_cases hb : s.state = .busy
  · cases ho : offer s with
    | none =>
      cases ht : s.inTok with
      | none => rw [coreStep_no_token ho ht]; exact .held (.inr (.inr (.inl ⟨ho, ht⟩)))
      | some t => exact coreStep_token_effect hb ho ht
    | some b =>
      have offered : offer s ≠ none := by simp [ho]
      cases ha : s.outAns with
      | none => rw [coreStep_no_answer offered ha]; exact .held (.inr (.inr (.inr ⟨offered, ha⟩)))
      | some a =>
        cases a with
        | ack => exact coreStep_ack_effect ho ha
        | fail => rw [coreStep_fail ho ha]; exact .writeFail offered ha
  · rw [coreStep_not_busy hb]
    exact .held (.inl hb)

theorem coreEffect_of_coreStep {t : State} (h : coreStep s = .next t) : CoreEffect s t :=
  nextSatisfies_iff.mp (coreStep_effect s) t h

end

end Sys2Proof.Safety
end

section
/-! What follows from the one step: the configuration of a BUSY pass is fixed (43_decode_engine.md R190), and a
finished pass is whole (43_decode_engine.md R181, 44_encode_engine.md R229). -/

namespace Sys2Proof.Safety

open Sys2Proof.Machine

section
variable {s t : State}

/-- A whole input pixel is counted, and writes PREV, the cache and RUN besides; then its chunks' bytes are emitted
(44_encode_engine.md R202). -/
theorem takePixel_emits (p : Pixel) (s : State) : ∃ q prev cache run,
    takePixel p s = emit q { s with pixCount := s.pixCount + 1, prev := prev, cache := cache, run := run } := by
  unfold takePixel
  rcases encodePixel_cases p { s with pixCount := s.pixCount + 1 } with ⟨-, -, e⟩ | e | e <;> rw [e] <;>
    exact ⟨_, _, _, _, rfl⟩

/-! ### The configuration -/

/-- The core writes WIDTH, HEIGHT and FORMAT with the last header byte only (43_decode_engine.md R172, R190). -/
theorem CoreEffect.format_kept (he : CoreEffect s t) (h : ¬(s.sub = .dHdr 13 ∧ ∃ b, s.inTok = some (.byte b))) :
    t.width = s.width ∧ t.height = s.height ∧ t.channels = s.channels ∧ t.colorspace = s.colorspace := by
  cases he with
  | headerAccepted hs ht => exact absurd ⟨hs, _, ht⟩ h
  | @inputDone i b _ _ _ =>
    obtain ⟨q, _, _, _, e⟩ := takePixel_emits (inputPixel s.channels (s.pin.set i.val b))
      { byteTaken s with pin := s.pin.set i.val b }
    rw [e]
    simp [byteTaken]
  | chunkDone | headerOutDone | chunkByte => simp [pixelsCounted, byteCounted]
  | _ => exact ⟨rfl, rfl, rfl, rfl⟩

theorem config_of_coreStep (h : coreStep s = .next t) :
    t.mode = s.mode ∧ t.encMarker = s.encMarker ∧ t.decMarker = s.decMarker
    ∧ (¬(s.sub = .dHdr 13 ∧ ∃ b, s.inTok = some (.byte b)) →
        t.width = s.width ∧ t.height = s.height ∧ t.channels = s.channels ∧ t.colorspace = s.colorspace) :=
  have kept := hostWritten_of_coreStep h
  ⟨congrArg HostWritten.mode kept, congrArg HostWritten.encMarker kept, congrArg HostWritten.decMarker kept,
    (coreEffect_of_coreStep h).format_kept⟩

/-- A host action that leaves a pass BUSY leaves its configuration (45_host_commands.md R242). -/
theorem EventEffect.config_kept {e : Event} (he : EventEffect s e t) (hcore : e ≠ .core) (hb : s.state = .busy)
    (htb : t.state = .busy) :
    t.mode = s.mode ∧ t.encMarker = s.encMarker ∧ t.decMarker = s.decMarker
    ∧ t.width = s.width ∧ t.height = s.height ∧ t.channels = s.channels ∧ t.colorspace = s.colorspace := by
  cases he with
  | core _ => exact absurd rfl hcore
  | config m em dm iq wd ht c cs hnb _ _ => exact absurd hb hnb
  | abort _ => cases htb
  | startDecode em dm iq hs => exact absurd hb hs.not_busy
  | startEncode em dm iq hs => exact absurd hb hs.not_busy
  | reset => cases htb
  | _ => exact ⟨rfl, rfl, rfl, rfl, rfl, rfl, rfl⟩

end

/-- Settles O49: the core's turn, listed or not, is the only way to the header's registers, at its 14th byte. -/
theorem configurationFixedWhileBusy : Obligations.ConfigurationFixedWhileBusy := by
  intro s t hb hstep htb
  rcases step_cases hstep with ⟨hev, hc⟩ | ⟨e, rest, hev, he⟩
  · obtain ⟨hm, hem, hdm, hformat⟩ := config_of_coreStep hc
    exact ⟨hm, hem, hdm, fun hn => hformat fun ⟨hs, hbyte⟩ => hn ⟨hs, hbyte, .inl hev⟩⟩
  · by_cases hcore : e = .core
    · subst hcore
      cases he with
      | core hc =>
        obtain ⟨hm, hem, hdm, hformat⟩ := config_of_coreStep hc
        exact ⟨hm, hem, hdm, fun hn => hformat fun ⟨hs, hbyte⟩ => hn ⟨hs, hbyte, .inr ⟨rest, hev⟩⟩⟩
    · obtain ⟨hm, hem, hdm, hformat⟩ := he.config_kept hcore hb htb
      exact ⟨hm, hem, hdm, fun _ => hformat⟩

/-! ### The end of a pass -/

section
variable {s t : State}

/-- The pixel side of the pass counts the bytes of exactly the pixels that PIXCOUNT counts: OUT of a decode pass, IN of
an encode pass (43_decode_engine.md R188, 44_encode_engine.md R226). -/
def WholePixels (s : State) : Prop :=
  (s.passMode = .decode → s.outCount = bytesOf s s.pixCount)
  ∧ (s.passMode = .encode → s.inCount = bytesOf s s.pixCount)

theorem wholePixels_of_decode (hm : s.passMode = .decode) (h : s.outCount = bytesOf s s.pixCount) : WholePixels s :=
  ⟨fun _ => h, fun he => absurd (hm.symm.trans he) nofun⟩

theorem wholePixels_of_encode (hm : s.passMode = .encode) (h : s.inCount = bytesOf s s.pixCount) : WholePixels s :=
  ⟨fun hd => absurd (hm.symm.trans hd) nofun, fun _ => h⟩

theorem WholePixels.nextChunk (h : WholePixels s) : WholePixels (nextChunk s) := by
  simpa [WholePixels, bytesOf, channelCount] using h

theorem WholePixels.nextPixel (h : WholePixels s) : WholePixels (nextPixel s) := by
  simpa [WholePixels, bytesOf, channelCount] using h

theorem WholePixels.emit {q : List Byte} (h : WholePixels s) : WholePixels (emit q s) := by
  simpa [WholePixels, bytesOf, channelCount] using h

/-- CHANNELS of a running pass, as a number. -/
theorem channelCount_of_legal (h : s.channels = 3 ∨ s.channels = 4) : channelCount s = 3 ∨ channelCount s = 4 := by
  rcases h with hc | hc <;> simp [channelCount, hc]

/-- The byte index that is a pixel's last. -/
theorem lastByte_of_legal (hch : s.channels = 3 ∨ s.channels = 4) {j : Fin 4} (hj : j.val < channelCount s)
    (h : ¬(j.val + 1 < s.channels.toNat ∧ j.val + 1 < 4)) : j.val + 1 = channelCount s := by
  have := channelCount_of_legal hch
  unfold channelCount at hj this ⊢
  omega

/-- A pixel's last byte makes its bytes whole. -/
theorem bytesOf_lastByte {c n : Count} {j : Nat} (hc : c = bytesOf s n + BitVec.ofNat 64 j)
    (hj : j + 1 = channelCount s) : c + 1 = bytesOf s (n + 1) := by
  rw [hc, BitVec.add_assoc, count_ofNat_succ rfl, hj, bytesOf_succ]

/-- A core step that ends a pass ends it between two pixels. -/
theorem CoreEffect.wholePixels_of_done (he : CoreEffect s t) (h : Invariant s) (hb : s.state = .busy)
    (hd : t.state = .done) : WholePixels t := by
  have hi := h.sub
  unfold SubInv at hi
  cases he with
  | headerAccepted hs =>
    rw [hs] at hi
    obtain ⟨hm, hpix, hout, -⟩ := hi
    refine WholePixels.nextChunk (wholePixels_of_decode hm ?_)
    simp [bytesOf, byteTaken, hpix, hout]
  | chunkDone hs _ hlast =>
    rw [hs] at hi
    obtain ⟨hbody, -, -, -, hj, hout⟩ := hi
    exact WholePixels.nextChunk (wholePixels_of_decode hbody.mode
      (bytesOf_lastByte hout (lastByte_of_legal hbody.channels hj hlast)))
  | markerOmitted hs | markerSeen hs =>
    rw [hs] at hi
    obtain ⟨hbody, -, hout, -⟩ := hi
    exact wholePixels_of_decode hbody.mode hout
  | headerOutDone hs =>
    rw [hs] at hi
    obtain ⟨hpass, hpix, -, hin, -⟩ := hi
    refine WholePixels.nextPixel (wholePixels_of_encode hpass.mode ?_)
    simp [bytesOf, byteCounted, hpix, hin]
  | inputDone hs _ hlast =>
    rw [hs] at hi
    obtain ⟨hpass, -, -, -, hj, hin⟩ := hi
    obtain ⟨q, _, _, _, e⟩ := takePixel_emits _ _
    rw [e]
    exact WholePixels.emit (wholePixels_of_encode hpass.mode
      (bytesOf_lastByte hin (lastByte_of_legal hpass.channels hj hlast)))
  | chunkByte hs =>
    rw [hs] at hi
    obtain ⟨hpass, -, -, hin⟩ := hi
    exact WholePixels.emit (wholePixels_of_encode hpass.mode hin)
  | markerOutDone hs =>
    rw [hs] at hi
    obtain ⟨hpass, -, -, -, hin⟩ := hi
    exact wholePixels_of_encode hpass.mode hin
  | shortRead | writeFail | headerRejected | overrun | markerBad => cases hd
  | _ => exact absurd (hb.symm.trans hd) nofun

end

/-- Settles O55: the invariant holds after the step, which gives all but the bytes; those are of whole pixels, and the
pixels are TARGET. -/
theorem finishedPassIsWhole : Obligations.FinishedPassIsWhole := by
  intro s t h hb hc hd
  have ht : Invariant t := nextSatisfies_iff.mp h.keeps_coreStep t hc
  have running : t.state ≠ .error := by simp [hd]
  have notBusy : t.state ≠ .busy := by simp [hd]
  obtain ⟨hphase, hpix⟩ := ht.done hd
  obtain ⟨hout, hin⟩ := (coreEffect_of_coreStep hc).wholePixels_of_done h hb hd
  rw [hpix] at hout hin
  refine ⟨hpix, hphase, ht.errKind_of_not_error running, ht.errCause_of_not_error running,
    ht.sub_of_not_busy notBusy, hout, fun hm => ⟨hin hm, Bool.eq_false_iff.mpr fun hseen => ?_⟩⟩
  obtain ⟨-, hdec⟩ := ht.marker hseen
  exact absurd (hm.symm.trans hdec) nofun

end Sys2Proof.Safety
end

section
/-! The budget of a decode pass: header bytes, tokens and output bytes (43_decode_engine.md R192). -/

namespace Sys2Proof.Safety

open Sys2Proof.Machine

/-- A step from `s` to `t` that uses up a token of the budget, and no output byte. -/
abbrev UsesToken (s t : State) : Prop :=
  decodeInputsLeft t + 1 ≤ decodeInputsLeft s ∧ decodeOutputsLeft t = decodeOutputsLeft s

/-- A step from `s` to `t` that uses up an output byte of the budget, and no token. -/
abbrev UsesOutput (s t : State) : Prop :=
  decodeInputsLeft t = decodeInputsLeft s ∧ decodeOutputsLeft t + 1 = decodeOutputsLeft s

section
variable {s t : State}

/-! ### What is left in each sub-state -/

theorem pixelsLeft_pos (h : s.pixCount.toNat < s.target.toNat) : 1 ≤ pixelsLeft s :=
  Nat.sub_pos_of_lt h

theorem pixelsLeft_pixelsCounted (h : s.pixCount.toNat < s.target.toNat) :
    pixelsLeft (pixelsCounted 1 s) + 1 = pixelsLeft s := by
  have hcount : (pixelsCounted 1 s).pixCount.toNat = s.pixCount.toNat + 1 := count_succ_toNat h
  show s.target.toNat - (pixelsCounted 1 s).pixCount.toNat + 1 = s.target.toNat - s.pixCount.toNat
  omega

theorem inputsLeft_dTag (hs : s.sub = .dTag) : decodeInputsLeft s = 5 * pixelsLeft s + 8 := by
  simp [decodeInputsLeft, hs]

theorem outputsLeft_dTag (hs : s.sub = .dTag) : decodeOutputsLeft s = pixelsLeft s * channelCount s := by
  simp [decodeOutputsLeft, hs]

theorem inputsLeft_dPay {k : PayKind} {i : Fin 4} (hs : s.sub = .dPay k i) :
    decodeInputsLeft s = (k.len - i.val) + 5 * (pixelsLeft s - 1) + 8 := by
  simp [decodeInputsLeft, hs]

theorem outputsLeft_dPay {k : PayKind} {i : Fin 4} (hs : s.sub = .dPay k i) :
    decodeOutputsLeft s = pixelsLeft s * channelCount s := by
  simp [decodeOutputsLeft, hs]

theorem inputsLeft_dOut {px : Pixel} {n : Nat} {j : Fin 4} (hs : s.sub = .dOut px n j) :
    decodeInputsLeft s = 5 * (pixelsLeft s - n) + 8 := by
  simp [decodeInputsLeft, hs]

theorem outputsLeft_dOut {px : Pixel} {n : Nat} {j : Fin 4} (hs : s.sub = .dOut px n j) :
    decodeOutputsLeft s = pixelsLeft s * channelCount s - j.val := by
  simp [decodeOutputsLeft, hs]

theorem inputsLeft_dMark {i : Fin 8} (hs : s.sub = .dMark i) : decodeInputsLeft s = 8 - i.val := by
  simp [decodeInputsLeft, hs]

theorem outputsLeft_dMark {i : Fin 8} (hs : s.sub = .dMark i) : decodeOutputsLeft s = 0 := by
  simp [decodeOutputsLeft, hs]

theorem headerLeft_dHdr {i : Fin 14} (hs : s.sub = .dHdr i) : headerTokensLeft s = 14 - i.val := by
  simp [headerTokensLeft, hs]

/-- At the end of the header or of a chunk the whole budget of the missing pixels and of the marker is left, if the pass
goes on. -/
theorem budget_nextChunk (hb : (nextChunk s).state = .busy) :
    headerTokensLeft (nextChunk s) = 0 ∧ decodeInputsLeft (nextChunk s) = 5 * pixelsLeft s + 8
    ∧ decodeOutputsLeft (nextChunk s) = pixelsLeft s * channelCount s := by
  rcases nextChunk_cases s with ⟨-, e⟩ | ⟨-, -, e⟩ | ⟨hp, -, e⟩ <;> rw [e] at hb ⊢
  · exact ⟨rfl, rfl, rfl⟩
  · cases hb
  · have none : pixelsLeft s = 0 := by simp [pixelsLeft, hp]
    rw [none, Nat.zero_mul]
    exact ⟨rfl, rfl, rfl⟩

/-- At the start no pixel is counted, so all of TARGET is left. -/
theorem budget_nextChunk_of_start (hpix : s.pixCount = 0) (hb : (nextChunk s).state = .busy) :
    decodeInputsLeft (nextChunk s) ≤ 5 * (nextChunk s).target.toNat + 8
    ∧ decodeOutputsLeft (nextChunk s) = (nextChunk s).target.toNat * (nextChunk s).channels.toNat := by
  have all : pixelsLeft s = s.target.toNat := by simp [pixelsLeft, hpix]
  obtain ⟨-, hin, hout⟩ := budget_nextChunk hb
  rw [hin, hout, all, nextChunk_target, nextChunk_channels]
  exact ⟨le_rfl, rfl⟩

/-! ### The header -/

/-- A header byte is used up; after the last one the budget of all pixels and of the marker is left. -/
theorem CoreEffect.usesHeaderByte (he : CoreEffect s t) (h : Invariant s) (hb : s.state = .busy) {i : Fin 14}
    (hs : s.sub = .dHdr i) (hbt : t.state = .busy) (ht : s.inTok ≠ none) :
    headerTokensLeft t + 1 = headerTokensLeft s
    ∧ (headerTokensLeft t = 0 → decodeInputsLeft t ≤ 5 * t.target.toNat + 8
        ∧ decodeOutputsLeft t = t.target.toNat * t.channels.toNat) := by
  have hi := h.sub
  unfold SubInv at hi
  rw [hs] at hi
  obtain ⟨-, hpix, -⟩ := hi
  rw [headerLeft_dHdr hs]
  cases he with
  | held hh =>
    have ho : offer s = none := by simp [offer, hs]
    simp [hb, hs, ho, ht] at hh
  | headerByte hs' _ hlt =>
    cases hs.symm.trans hs'
    rw [headerLeft_dHdr rfl]
    dsimp only
    exact ⟨by omega, fun h0 => by omega⟩
  | headerAccepted hs' =>
    cases hs.symm.trans hs'
    rw [(budget_nextChunk hbt).1]
    exact ⟨rfl, fun _ => budget_nextChunk_of_start hpix hbt⟩
  | shortRead | writeFail | headerRejected => cases hbt
  | tag hs' | oneByteChunk hs' | overrun hs' | payload hs' | payloadChunk hs' | pixelByte hs' | pixelDone hs'
  | chunkDone hs' | markerOmitted hs' | markerBad hs' | markerByte hs' | markerSeen hs' | headerOut hs'
  | headerOutDone hs' | inputByte hs' | inputDone hs' | chunkByte hs' | markerOut hs' | markerOutDone hs' =>
    cases hs.symm.trans hs'

/-! ### The body and the trailer -/

/-- The outputs that are left after a pixel's last byte. -/
theorem outputs_lastByte (h : s.pixCount.toNat < s.target.toNat) {j : Nat} (hj : j + 1 = channelCount s) :
    pixelsLeft (pixelsCounted 1 s) * channelCount s + 1 = pixelsLeft s * channelCount s - j := by
  rw [← pixelsLeft_pixelsCounted h, Nat.succ_mul]
  omega

theorem usesToken_tag (hs : s.sub = .dTag) (hmiss : s.pixCount.toNat < s.target.toNat) (b : Byte) (k : PayKind) :
    UsesToken s { byteTaken s with tag := b, sub := .dPay k 0 } := by
  have hpos := pixelsLeft_pos hmiss
  have hlen := k.len_le
  refine ⟨?_, (outputsLeft_dTag hs).symm⟩
  rw [inputsLeft_dTag hs]
  show k.len - 0 + 5 * (pixelsLeft s - 1) + 8 + 1 ≤ _
  omega

theorem usesToken_oneByteChunk (hs : s.sub = .dTag) (hmiss : s.pixCount.toNat < s.target.toNat) (b : Byte) (h : History)
    (px : Pixel) {n : Nat} (h1 : 1 ≤ n) :
    UsesToken s (toDeliver h px n { byteTaken s with tag := b }) := by
  have hpos := pixelsLeft_pos hmiss
  refine ⟨?_, (outputsLeft_dTag hs).symm⟩
  rw [inputsLeft_dTag hs]
  show 5 * (pixelsLeft s - n) + 8 + 1 ≤ _
  omega

theorem usesToken_payload {k : PayKind} {i : Fin 4} (hs : s.sub = .dPay k i) (pay : Vector Byte 4)
    (hlt : i.val + 1 < k.len) (h4 : i.val + 1 < 4) :
    UsesToken s { byteTaken s with pay := pay, sub := .dPay k ⟨i.val + 1, h4⟩ } := by
  refine ⟨?_, (outputsLeft_dPay hs).symm⟩
  rw [inputsLeft_dPay hs]
  show k.len - (i.val + 1) + 5 * (pixelsLeft s - 1) + 8 + 1 ≤ _
  omega

theorem usesToken_payloadChunk {k : PayKind} {i : Fin 4} (hs : s.sub = .dPay k i) (hlt : i.val < k.len)
    (pay : Vector Byte 4) (h : History) (px : Pixel) :
    UsesToken s (toDeliver h px 1 { byteTaken s with pay := pay }) := by
  refine ⟨?_, (outputsLeft_dPay hs).symm⟩
  rw [inputsLeft_dPay hs]
  show 5 * (pixelsLeft s - 1) + 8 + 1 ≤ _
  omega

theorem usesToken_markerByte {i : Fin 8} (hs : s.sub = .dMark i) (h : i.val + 1 < 8) :
    UsesToken s { byteTaken s with sub := .dMark ⟨i.val + 1, h⟩ } := by
  refine ⟨?_, (outputsLeft_dMark hs).symm⟩
  rw [inputsLeft_dMark hs]
  show 8 - (i.val + 1) + 1 ≤ _
  omega

section
variable {px : Pixel} {n : Nat} {j : Fin 4}

theorem usesOutput_pixelByte (hs : s.sub = .dOut px n j) (hmiss : s.pixCount.toNat < s.target.toNat)
    (hj : j.val < channelCount s) (h4 : j.val + 1 < 4) :
    UsesOutput s (withSub (.dOut px n ⟨j.val + 1, h4⟩) (byteCounted s)) := by
  have hleft : j.val < pixelsLeft s * channelCount s :=
    hj.trans_le (Nat.le_mul_of_pos_left _ (pixelsLeft_pos hmiss))
  refine ⟨(inputsLeft_dOut hs).symm, ?_⟩
  rw [outputsLeft_dOut hs]
  show pixelsLeft s * channelCount s - (j.val + 1) + 1 = _
  omega

theorem usesOutput_pixelDone (hs : s.sub = .dOut px n j) (hmiss : s.pixCount.toNat < s.target.toNat)
    (hj : j.val + 1 = channelCount s) (hn : 1 < n) :
    UsesOutput s (withSub (.dOut px (n - 1) 0) (pixelsCounted 1 (byteCounted s))) := by
  have hleft := pixelsLeft_pixelsCounted hmiss
  rw [UsesOutput, inputsLeft_dOut hs, outputsLeft_dOut hs]
  refine ⟨?_, outputs_lastByte hmiss hj⟩
  show 5 * (pixelsLeft (pixelsCounted 1 s) - (n - 1)) + 8 = _
  omega

theorem usesOutput_chunkDone (hs : s.sub = .dOut px n j) (hmiss : s.pixCount.toNat < s.target.toNat)
    (hj : j.val + 1 = channelCount s) (hn : n = 1)
    (hbt : (nextChunk (pixelsCounted 1 (byteCounted s))).state = .busy) :
    UsesOutput s (nextChunk (pixelsCounted 1 (byteCounted s))) := by
  have hleft := pixelsLeft_pixelsCounted hmiss
  obtain ⟨-, hin, hout⟩ := budget_nextChunk hbt
  rw [UsesOutput, inputsLeft_dOut hs, outputsLeft_dOut hs, hin, hout]
  refine ⟨?_, outputs_lastByte hmiss hj⟩
  show 5 * pixelsLeft (pixelsCounted 1 s) + 8 = _
  omega

end

/-- An enabled step in the body or the trailer takes a token or delivers a byte, and uses it up. -/
theorem CoreEffect.usesBudget (he : CoreEffect s t) (h : Invariant s) (hb : s.state = .busy)
    (hm : s.passMode = .decode) (hh : ∀ i, s.sub ≠ .dHdr i) (hbt : t.state = .busy)
    (enabled : (offer s = none ∧ s.inTok ≠ none) ∨ (offer s ≠ none ∧ s.outAns ≠ none)) :
    (offer s = none ∧ UsesToken s t) ∨ (offer s ≠ none ∧ UsesOutput s t) := by
  have hi := h.sub
  unfold SubInv at hi
  cases he with
  | held hheld =>
    have hne := h.busy.mp hb
    rcases enabled with ⟨ho, ht⟩ | ⟨ho, ha⟩
    · simp [hb, hne, ho, ht] at hheld
    · simp [hb, hne, ho, ha] at hheld
  | headerByte hs | headerAccepted hs => exact absurd hs (hh _)
  | tag hs =>
    rw [hs] at hi
    obtain ⟨-, hmiss, -⟩ := hi
    exact .inl ⟨by simp [offer, hs], usesToken_tag hs hmiss _ _⟩
  | oneByteChunk hs _ h1 =>
    rw [hs] at hi
    obtain ⟨-, hmiss, -⟩ := hi
    exact .inl ⟨by simp [offer, hs], usesToken_oneByteChunk hs hmiss _ _ _ h1⟩
  | payload hs _ hlt h4 => exact .inl ⟨by simp [offer, hs], usesToken_payload hs _ hlt h4⟩
  | payloadChunk hs =>
    rw [hs] at hi
    obtain ⟨-, -, -, hlt, -⟩ := hi
    exact .inl ⟨by simp [offer, hs], usesToken_payloadChunk hs hlt _ _ _⟩
  | pixelByte hs _ _ h4 =>
    rw [hs] at hi
    obtain ⟨-, h1, -, hn, hj, -⟩ := hi
    exact .inr ⟨by simp [offer_dOut hb hs], usesOutput_pixelByte hs (by omega) hj h4⟩
  | pixelDone hs _ hlast hmore =>
    rw [hs] at hi
    obtain ⟨hbody, h1, -, hn, hj, -⟩ := hi
    exact .inr ⟨by simp [offer_dOut hb hs],
      usesOutput_pixelDone hs (by omega) (lastByte_of_legal hbody.channels hj hlast) hmore⟩
  | chunkDone hs _ hlast hmore =>
    rw [hs] at hi
    obtain ⟨hbody, h1, -, hn, hj, -⟩ := hi
    exact .inr ⟨by simp [offer_dOut hb hs],
      usesOutput_chunkDone hs (by omega) (lastByte_of_legal hbody.channels hj hlast) (by omega) hbt⟩
  | markerByte hs _ hlt => exact .inl ⟨by simp [offer, hs], usesToken_markerByte hs hlt⟩
  | headerOut hs | headerOutDone hs | inputByte hs | inputDone hs | chunkByte hs | markerOut hs =>
    rw [hs] at hi
    obtain ⟨hpass, -⟩ := hi
    exact absurd (hpass.mode.symm.trans hm) nofun
  | shortRead | writeFail | headerRejected | overrun | markerOmitted | markerBad | markerSeen | markerOutDone =>
    cases hbt

end

/-- Settles O29: 14 header bytes from D_HDR(0) on, then the budget that the accepted header gives, used up step by
step. -/
theorem decodePassBudget : Obligations.DecodePassBudget := by
  refine ⟨fun s hs => headerLeft_dHdr hs, fun s t i h hb hs hc hbt ht => ?_,
    fun s t h hb hm hh hc hbt => ⟨?_, ?_⟩⟩
  · exact (coreEffect_of_coreStep hc).usesHeaderByte h hb hs hbt ht
  · intro ho ht
    rcases (coreEffect_of_coreStep hc).usesBudget h hb hm hh hbt (.inl ⟨ho, ht⟩) with ⟨-, used⟩ | ⟨hne, -⟩
    · exact used
    · exact absurd ho hne
  · intro hsome ha
    have ho := Option.isSome_iff_ne_none.mp hsome
    rcases (coreEffect_of_coreStep hc).usesBudget h hb hm hh hbt (.inr ⟨ho, ha⟩) with ⟨hno, -⟩ | ⟨-, used⟩
    · exact absurd hno ho
    · exact used

end Sys2Proof.Safety
end

section
/-! The encode engine step by step: what each answer and each token does (44_encode_engine.md R200 to R202, R217,
R228). -/

namespace Sys2Proof.Safety

open Sys2Proof.Machine

/-! ### The offered byte and what follows its delivery -/

section
variable {s : State}

theorem offer_eHdr {j : Fin 14} (hb : s.state = .busy) (hs : s.sub = .eHdr j) : offer s = some (headerByte s j) := by
  simp [offer, hb, hs]

theorem offer_eOut {b : Byte} {q : List Byte} (hb : s.state = .busy) (hs : s.sub = .eOut b q) : offer s = some b := by
  simp [offer, hb, hs]

theorem offer_eMark {j : Fin 8} (hb : s.state = .busy) (hs : s.sub = .eMark j) :
    offer s = some (Config.markerByte j) := by
  simp [offer, hb, hs]

theorem markerBytes_getElem? (j : Fin 8) : markerBytes[j.val]? = some (Config.markerByte j) := by
  revert j; decide

theorem afterHeaderByte_inner {j : Fin 14} (h : j.val + 1 < 14) :
    afterHeaderByte j s = withSub (.eHdr ⟨j.val + 1, h⟩) s :=
  dif_pos h

theorem afterHeaderByte_last {j : Fin 14} (h : j.val = 13) :
    afterHeaderByte j s = nextPixel { s with phase := .body } :=
  dif_neg (by omega)

theorem afterMarkerByte_inner {j : Fin 8} (h : j.val + 1 < 8) :
    afterMarkerByte j s = withSub (.eMark ⟨j.val + 1, h⟩) s :=
  dif_pos h

theorem afterMarkerByte_last {j : Fin 8} (h : j.val = 7) : afterMarkerByte j s = finish s :=
  dif_neg (by omega)

/-! ### The input byte (R202) -/

theorem stepEIn_byte_inner {i : Fin 4} {b : Byte} (h : i.val + 1 < s.channels.toNat) (h4 : i.val + 1 < 4) :
    stepEIn i (.byte b) s = .next { countIn s with pin := s.pin.set i.val b, sub := .eIn ⟨i.val + 1, h4⟩ } :=
  dif_pos ⟨h, h4⟩

theorem stepEIn_byte_last {i : Fin 4} {b : Byte} (h : ¬(i.val + 1 < s.channels.toNat ∧ i.val + 1 < 4)) :
    stepEIn i (.byte b) s
      = .next (takePixel (inputPixel s.channels (s.pin.set i.val b)) { countIn s with pin := s.pin.set i.val b }) :=
  dif_neg h

theorem coreStep_inputByte {i : Fin 4} {b : Byte} (hb : s.state = .busy) (hs : s.sub = .eIn i)
    (ht : s.inTok = some (.byte b)) (h : i.val + 1 < s.channels.toNat) (h4 : i.val + 1 < 4) :
    coreStep s = .next { byteTaken s with pin := s.pin.set i.val b, sub := .eIn ⟨i.val + 1, h4⟩ } :=
  (coreStep_eIn hb hs ht).trans (stepEIn_byte_inner (s := tokenTaken s) h h4)

theorem coreStep_lastInputByte {i : Fin 4} {b : Byte} (hb : s.state = .busy) (hs : s.sub = .eIn i)
    (ht : s.inTok = some (.byte b)) (h : i.val + 1 = s.channels.toNat) :
    coreStep s
      = .next (takePixel (inputPixel s.channels (s.pin.set i.val b)) { byteTaken s with pin := s.pin.set i.val b }) :=
  have last : ¬(i.val + 1 < s.channels.toNat ∧ i.val + 1 < 4) := by omega
  (coreStep_eIn hb hs ht).trans (stepEIn_byte_last (s := tokenTaken s) last)

/-- The pixel is counted, and the bytes of its chunks are emitted. -/
theorem takePixel_eq (p : Pixel) (s : State) :
    takePixel p s = emit (chunkBytes (encodePixel p (pixelsCounted 1 s)).1) (encodePixel p (pixelsCounted 1 s)).2 :=
  rfl

theorem takePixel_eq_of_encodePixel {p : Pixel} {chunks : List Instr} {u : State}
    (h : encodePixel p (pixelsCounted 1 s) = (chunks, u)) : takePixel p s = emit (chunkBytes chunks) u := by
  rw [takePixel_eq, h]

/-! ### START of an encode pass (45_host_commands.md R241, R244) -/

theorem exec_startEncode_of_not_busy (hb : s.state ≠ .busy) (em : Bool) (dm : BitVec 2) (iq : Bool) :
    exec (.startEncode em dm iq) s
      = .next (startEncode { s with
          mode := .encode, encMarker := em, decMarker := writeDecMarker s.decMarker dm, irqEn := iq }) := by
  rw [← storeCtrl_of_not_busy hb]
  exact if_neg hb

theorem startEncode_legal (h : s.channels = 3 ∨ s.channels = 4) :
    startEncode s = { beginPass .encode (openInput s) with
      state := .busy, prev := .opaqueBlack, cache := clearCache, run := 0,
      target := pixelTarget s.width s.height, sub := .eHdr 0 } :=
  if_pos ((legalChannels_iff _).mpr h)

theorem startEncode_refused (h : ¬(s.channels = 3 ∨ s.channels = 4)) :
    startEncode s = raise .encBadChannels (beginPass .encode s) :=
  if_neg (mt (legalChannels_iff _).mp h)

end

/-! ### The statements -/

/-- Settles O30: the byte at its place is offered, and its ACK leads to the next place or ends the header or the
pass. -/
theorem encoderFixedBytesDelivered : Obligations.EncoderFixedBytesDelivered := by
  refine fun s hb => ⟨fun j hs => ?_, fun j hs => ?_⟩
  · have ho := offer_eHdr hb hs
    refine ⟨_, headerByte_eq s j, ho, coreStep_fail ho, fun ha => ⟨_, coreStep_eHdr hb hs ha, ?_, fun h13 => ?_⟩⟩
    · exact fun h => afterHeaderByte_inner h
    · rw [afterHeaderByte_last h13]
      exact nextPixel_spec _
  · have ho := offer_eMark hb hs
    refine ⟨_, markerBytes_getElem? j, ho, coreStep_fail ho, fun ha => ⟨_, coreStep_eMark hb hs ha, ?_, fun h7 => ?_⟩⟩
    · exact fun h => afterMarkerByte_inner h
    · exact afterMarkerByte_last h7

/-- Settles O31: the ACK of the offered byte emits the rest of the list, of which `[]` is `next_pixel()`. -/
theorem encoderChunkBytesDelivered : Obligations.EncoderChunkBytesDelivered := by
  intro s b q hb hs
  have ho := offer_eOut hb hs
  refine ⟨ho, coreStep_fail ho, fun ha => ⟨_, coreStep_eOut hb hs ha, ?_, ?_⟩⟩
  · rintro c q' rfl; rfl
  · rintro rfl; exact nextPixel_spec _

/-- Settles O32: the token is EOI, an inner byte of the pixel or its last; the last emits the pixel's chunks. -/
theorem encoderInputStep : Obligations.EncoderInputStep := by
  intro s i hb hs hch hi
  refine ⟨coreStep_eIn hb hs, fun b ht => ⟨fun h4 h => coreStep_inputByte hb hs ht h h4, ?_⟩⟩
  rintro hlast p chunks u rfl he
  have emitted := takePixel_eq_of_encodePixel (s := { byteTaken s with pin := s.pin.set i.val b }) he
  refine ⟨_, (coreStep_lastInputByte hb hs ht hlast).trans (congrArg _ emitted), fun hq => ?_, fun c q hq => ?_⟩
  · rw [show chunkBytes chunks = [] from hq]
    exact nextPixel_spec u
  · rw [show chunkBytes chunks = c :: q from hq]
    rfl

/-- Settles O42: legal CHANNELS begin the pass, others raise ENC_BAD_CHANNELS; DEC_MARKER by its four values. -/
theorem startEncodeEffect : Obligations.StartEncodeEffect := by
  intro s em dm iq hb
  have started := exec_startEncode_of_not_busy hb em dm iq
  by_cases hch : s.channels = 3 ∨ s.channels = 4
  · refine ⟨_, started.trans (congrArg _ (startEncode_legal hch)), ?_, ?_, ?_, ?_,
      fun _ => ⟨rfl, clearCache_get, pixelTarget_toNat _ _⟩, absurd hch⟩ <;> rintro rfl <;> rfl
  · refine ⟨_, started.trans (congrArg _ (startEncode_refused hch)), ?_, ?_, ?_, ?_, fun h => absurd h hch,
      fun _ => rfl⟩ <;> rintro rfl <;> rfl

end Sys2Proof.Safety
end


section
/-! The bytes of each chunk kind as shifts and ors of its fields (44_encode_engine.md R211 to R216). -/

namespace Sys2Proof

/-- A byte's low field below the rest of it. -/
theorem byteOf_lowField {i b : Nat} (a : Nat) (h : b < 2 ^ i) :
    byteOf (2 ^ i * a + b) = byteOf (2 ^ i * a) ||| BitVec.ofNat 8 b := by
  simp only [byteOf, Nat.two_pow_add_eq_or_of_lt h, BitVec.ofNat_or]

theorem byteOf_shiftLeft (i a : Nat) : byteOf (2 ^ i * a) = BitVec.ofNat 8 a <<< i := by
  apply BitVec.eq_of_toNat_eq
  simp [byteOf, Nat.shiftLeft_eq, Nat.mul_comm]

theorem runByte_eq_or {n : Nat} (h62 : n ≤ 62) : runByte n = 0xC0 ||| BitVec.ofNat 8 (n - 1) :=
  byteOf_lowField (i := 6) 3 (by omega)

theorem diffByte_eq_or {fr fg fb : Nat} (hr : fr < 4) (hg : fg < 4) (hb : fb < 4) :
    byteOf (0x40 + 16 * fr + 4 * fg + fb)
      = 0x40 ||| BitVec.ofNat 8 fr <<< 4 ||| BitVec.ofNat 8 fg <<< 2 ||| BitVec.ofNat 8 fb := by
  have red := byteOf_lowField (i := 6) (b := 2 ^ 4 * fr) 1 (by omega)
  have green := byteOf_lowField (i := 4) (b := 2 ^ 2 * fg) (4 + fr) (by omega)
  have blue := byteOf_lowField (i := 2) (b := fb) (16 + 4 * fr + fg) (by omega)
  rw [← byteOf_shiftLeft, ← byteOf_shiftLeft]
  calc byteOf (0x40 + 16 * fr + 4 * fg + fb)
      = byteOf (2 ^ 2 * (16 + 4 * fr + fg) + fb) := by congr 1; omega
    _ = byteOf (2 ^ 4 * (4 + fr) + 2 ^ 2 * fg) ||| BitVec.ofNat 8 fb := by rw [blue]; congr 2; omega
    _ = byteOf (2 ^ 6 * 1 + 2 ^ 4 * fr) ||| byteOf (2 ^ 2 * fg) ||| BitVec.ofNat 8 fb := by
      rw [green]; congr 3; omega
    _ = _ := by rw [red]; rfl

theorem lumaBytes_eq_or {gf rgf bgf : Nat} (hg : gf < 64) (hb : bgf < 16) :
    [byteOf (0x80 + gf), byteOf (16 * rgf + bgf)]
      = [0x80 ||| BitVec.ofNat 8 gf, BitVec.ofNat 8 rgf <<< 4 ||| BitVec.ofNat 8 bgf] := by
  rw [← byteOf_shiftLeft, ← byteOf_lowField (i := 4) rgf hb]
  exact congrArg (· :: _) (byteOf_lowField (i := 6) 2 hg)

/-- Settles O34: the fields of a byte do not meet, so their sum, of which the model makes it, is their or. -/
theorem chunkByteFormats : Obligations.ChunkByteFormats := by
  refine ⟨fun n _ h62 => congrArg (· :: []) (runByte_eq_or h62), fun _ => rfl, fun fr fg fb => ?_,
    fun gf rgf bgf => ?_, fun _ _ _ => rfl, fun _ _ _ _ => rfl⟩
  · rw [← diffByte_eq_or fr.isLt fg.isLt fb.isLt]
    simp only [streamBytes, diffBytes, Int.sub_add_cancel, Int.toNat_natCast]
  · rw [← lumaBytes_eq_or gf.isLt bgf.isLt]
    simp only [streamBytes, lumaBytes, Int.sub_add_cancel, Int.toNat_natCast]

end Sys2Proof
end

section
/-! `encode_pixel`: which chunks it emits and what it leaves (44_encode_engine.md R203 to R211, R219, R226). -/

namespace Sys2Proof.Safety

open Sys2Proof.Machine

/-! ### The chosen chunk -/

/-- The choice in the spec's inequalities (44_encode_engine.md R205 to R209). -/
theorem selectChunk_eq (prev slot p : Pixel) :
    selectChunk prev slot p =
      if slot = p then .index (hash p).val
      else if p.a = prev.a ∧ (-2 ≤ sub8s p.r prev.r ∧ sub8s p.r prev.r ≤ 1)
          ∧ (-2 ≤ sub8s p.g prev.g ∧ sub8s p.g prev.g ≤ 1) ∧ (-2 ≤ sub8s p.b prev.b ∧ sub8s p.b prev.b ≤ 1)
        then .diff (sub8s p.r prev.r) (sub8s p.g prev.g) (sub8s p.b prev.b)
      else if p.a = prev.a ∧ (-32 ≤ sub8s p.g prev.g ∧ sub8s p.g prev.g ≤ 31)
        ∧ (-8 ≤ sub8s p.r prev.r - sub8s p.g prev.g ∧ sub8s p.r prev.r - sub8s p.g prev.g ≤ 7)
        ∧ (-8 ≤ sub8s p.b prev.b - sub8s p.g prev.g ∧ sub8s p.b prev.b - sub8s p.g prev.g ≤ 7) then
        .luma (sub8s p.g prev.g) (sub8s p.r prev.r - sub8s p.g prev.g) (sub8s p.b prev.b - sub8s p.g prev.g)
      else if p.a = prev.a then .rgb p.r p.g p.b
      else .rgba p.r p.g p.b p.a := by
  simp only [selectChunk, inRange_iff]

/-- With PREV's alpha RGB comes before RGBA (44_encode_engine.md R208, R209). -/
theorem selectChunk_ne_rgba {prev slot p : Pixel} (ha : p.a = prev.a) (r g b a : Byte) :
    selectChunk prev slot p ≠ .rgba r g b a := by
  unfold selectChunk
  dsimp only
  split_ifs <;> nofun

/-! ### The state after a pixel -/

section
variable {p : Pixel} {s : State}

/-- A pixel keeps all but RUN, PREV and the cache. -/
theorem encodePixel_frame (p : Pixel) (s : State) : ∃ prev cache run,
    (encodePixel p s).2 = { s with prev := prev, cache := cache, run := run } := by
  rcases encodePixel_cases p s with ⟨-, -, e⟩ | e | e <;> rw [e] <;> exact ⟨_, _, _, rfl⟩

@[simp] theorem encodePixel_pixCount : (encodePixel p s).2.pixCount = s.pixCount := by
  obtain ⟨_, _, _, e⟩ := encodePixel_frame p s; rw [e]

@[simp] theorem encodePixel_target : (encodePixel p s).2.target = s.target := by
  obtain ⟨_, _, _, e⟩ := encodePixel_frame p s; rw [e]

/-- The run that a pixel leaves pending is still short of a flush (44_encode_engine.md R226). -/
theorem encodePixel_run_short (p : Pixel) (hshort : s.run.toNat ≤ 61) : (encodePixel p s).2.run.toNat ≤ 61 := by
  rcases encodePixel_cases p s with ⟨hmax, -, e⟩ | e | e <;> rw [e]
  · have hne : s.run.toNat + 1 ≠ 62 := mt (run_succ_eq_max hshort).mpr hmax
    rw [run_succ_toNat hshort]
    omega
  · exact Nat.zero_le _
  · exact Nat.zero_le _

/-- No run is left pending after the last pixel (44_encode_engine.md R204). -/
theorem encodePixel_flushes (p : Pixel) (h : s.pixCount = s.target) : (encodePixel p s).2.run = 0 := by
  rcases encodePixel_cases p s with ⟨-, hlast, -⟩ | e | e
  · exact absurd h hlast
  · rw [e]
  · rw [e]; rfl

/-! ### The chunks of a pixel -/

theorem pendingRun_encodable (hshort : s.run.toNat ≤ 61) :
    ∀ i ∈ if s.run = 0 then [] else [Instr.run s.run.toNat], i.wellFormed = true ∧ i.position = .body := by
  split_ifs with h0
  · simp
  · have hpos : s.run.toNat ≠ 0 := fun h => h0 (BitVec.eq_of_toNat_eq h)
    rw [List.forall_mem_singleton, Instr.wellFormed_run_iff]
    exact ⟨by omega, rfl⟩

theorem encodePixel_encodable (p : Pixel) (hshort : s.run.toNat ≤ 61) :
    ∀ i ∈ (encodePixel p s).1, i.wellFormed = true ∧ i.position = .body := by
  rcases encodePixel_cases p s with ⟨-, -, e⟩ | e | e <;> rw [e]
  · simp
  · rw [List.forall_mem_singleton, Instr.wellFormed_run_iff, run_succ_toNat hshort]
    exact ⟨by omega, rfl⟩
  · obtain ⟨wf, pos, -⟩ := selectChunk_encodable s.prev (cacheRead s.cache (hash p)) p
    rw [List.forall_mem_append, List.forall_mem_singleton]
    exact ⟨pendingRun_encodable hshort, wf, pos⟩

/-- The byte that a pending run still owes. -/
def runBytesOwed (r : BitVec 6) : Nat := if r = 0 then 0 else 1

theorem runBytesOwed_le (r : BitVec 6) : runBytesOwed r ≤ 1 := by unfold runBytesOwed; split <;> omega

theorem chunkBytes_append (a b : List Instr) : chunkBytes (a ++ b) = chunkBytes a ++ chunkBytes b :=
  List.flatMap_append

theorem chunkBytes_pendingRun_length (r : BitVec 6) :
    (chunkBytes (if r = 0 then [] else [.run r.toNat])).length = runBytesOwed r := by
  unfold runBytesOwed; split <;> rfl

/-- A pixel's chunk has at most five bytes; the run byte beside it was owed, or goes on being owed. -/
theorem encodePixel_bytes_owed (p : Pixel) (s : State) :
    (chunkBytes (encodePixel p s).1).length + runBytesOwed (encodePixel p s).2.run ≤ 5 + runBytesOwed s.run := by
  rcases encodePixel_cases p s with ⟨-, -, e⟩ | e | e <;> rw [e]
  · have owed := runBytesOwed_le (s.run + 1)
    show 0 + runBytesOwed (s.run + 1) ≤ _
    omega
  · show 1 + 0 ≤ _
    omega
  · obtain ⟨-, -, hlen⟩ := selectChunk_encodable s.prev (cacheRead s.cache (hash p)) p
    have chosen : (chunkBytes [selectChunk s.prev (cacheRead s.cache (hash p)) p]).length ≤ 5 := by
      simpa [chunkBytes] using hlen
    rw [chunkBytes_append, List.length_append, chunkBytes_pendingRun_length]
    show _ + 0 ≤ _
    omega

/-- Without a new alpha no chunk is RGBA (44_encode_engine.md R209). -/
theorem rgba_not_mem_encodePixel (ha : p.a = s.prev.a) (r g b a : Byte) : Instr.rgba r g b a ∉ (encodePixel p s).1 := by
  have chosen := (selectChunk_ne_rgba (slot := cacheRead s.cache (hash p)) ha r g b a).symm
  rcases encodePixel_cases p s with ⟨-, -, e⟩ | e | e <;> rw [e]
  · simp
  · simp
  · split <;> simp [chosen]

end

/-! ### The statements -/

/-- Settles O33: the three ways of `encode_pixel`; the deltas are those that `sub8s` gives, the only ones that lead
back. -/
theorem encodePixelRule : Obligations.EncodePixelRule := by
  intro s p hshort
  refine ⟨?_, fun hp => ?_⟩
  · rintro rfl
    rw [← run_succ_eq_max hshort, ← run_succ_toNat hshort]
    exact ⟨encodePixel_prev_flush, fun h => ⟨_, rfl, encodePixel_prev_pending h⟩⟩
  · refine ⟨_, _, encodePixel_of_ne_prev hp, rfl, fun k => ?_, ?_⟩
    · simp only [eq_comm (a := k)]
      exact cacheWrite_get s.cache p k
    · intro dr dg db r1 r2 r3 g1 g2 g3 b1 b2 b3
      rw [selectChunk_eq, sub8s_unique r1 r2 r3, sub8s_unique g1 g2 g3, sub8s_unique b1 b2 b3]
      rfl

/-- Settles O35: each chunk's operands are in range, at most a run byte and five more bytes, and a full run is
flushed. -/
theorem emittedChunksEncodable : Obligations.EmittedChunksEncodable := by
  refine fun s p hshort => ⟨encodePixel_encodable p hshort, ?_, encodePixel_run_short p hshort⟩
  have bytes := encodePixel_bytes_owed p s
  have owed := runBytesOwed_le s.run
  omega

/-- Settles O36: in a 3-channel pass both PREV and the input pixel have alpha 255. -/
theorem threeChannelNeverRgba : Obligations.ThreeChannelNeverRgba := by
  intro s i r g b a hinv hb hs h3
  have hi := hinv.sub
  simp only [SubInv, hs] at hi
  obtain ⟨hpass, -⟩ := hi
  have sameAlpha (pin : Vector Byte 4) : (inputPixel s.channels pin).a = s.prev.a := by
    simp [inputPixel, h3, hpass.alpha h3]
  refine ⟨fun c ht hlast => ⟨_, _, _, Prod.mk.eta.symm, rfl, ?_, ?_⟩, fun pin count => ?_⟩
  · exact coreStep_lastInputByte hb hs ht hlast
  · exact rgba_not_mem_encodePixel (s := { byteTaken s with pin := s.pin.set i.val c, pixCount := s.pixCount + 1 })
      (sameAlpha _) r g b a
  · exact rgba_not_mem_encodePixel (s := { s with pin := pin, pixCount := count }) (sameAlpha _) r g b a

end Sys2Proof.Safety
end

section
/-! The chunks of a pixel list decode to the list (44_encode_engine.md R230, 41_hash_cache.md R129). -/

namespace Sys2Proof.Safety

open Sys2Proof.Machine

/-- From the encoder's PREV and cache in `s` the chunks decode to the run pending there and then the pixels. -/
def PendingDecodes (s : State) (ps : List Pixel) (is : List Instr) : Prop :=
  ∃ h, decodeChunksRef is (s.prev, s.cache) = some (List.replicate s.run.toNat s.prev ++ ps, h)

theorem pendingDecodes_nil {s : State} (h : s.run = 0) : PendingDecodes s [] [] := by
  simp [PendingDecodes, h, decodeChunksRef]

/-- What a pixel emits and what the rest emits decode to the pixel and the rest: the encoder and the decoder run in lock
step. -/
theorem PendingDecodes.cons {s : State} {ps : List Pixel} {is : List Instr} {p : Pixel} (hshort : s.run.toNat ≤ 61)
    (h : PendingDecodes (encodePixel p s).2 ps is) : PendingDecodes s (p :: ps) ((encodePixel p s).1 ++ is) := by
  obtain ⟨h', rest⟩ := h
  obtain ⟨out, first, lockStep⟩ := encoderDecoderLockStep s p hshort
  refine ⟨h', ?_⟩
  rw [decodeChunksRef_append first rest, ← List.append_assoc, ← lockStep, List.append_assoc]
  rfl

theorem pendingDecodes_encodePixels {ps : List Pixel} {s : State} (hshort : s.run.toNat ≤ 61)
    (hlast : ps = [] → s.run = 0) (hcount : s.pixCount.toNat + ps.length = s.target.toNat) :
    PendingDecodes s ps (encodePixels ps s).1 := by
  induction ps generalizing s with
  | nil => exact pendingDecodes_nil (hlast rfl)
  | cons p ps ih =>
    have counted : (s.pixCount + 1).toNat + ps.length = s.target.toNat := by
      rw [count_succ_toNat (t := s.target)] <;> simp only [List.length_cons] at hcount <;> omega
    refine PendingDecodes.cons (s := { s with pixCount := s.pixCount + 1 }) hshort
      (ih (encodePixel_run_short p hshort) ?_ ?_)
    · rintro rfl
      exact encodePixel_flushes p (BitVec.eq_of_toNat_eq counted)
    · simpa using counted

/-- Settles O38: at the start of a pass no run is pending. -/
theorem pixelListRoundTrip : Obligations.PixelListRoundTrip := by
  intro s ps hprev hcache hrun hpix htarget
  obtain ⟨h, decoded⟩ := pendingDecodes_encodePixels (s := s) (ps := ps) (by simp [hrun]) (fun _ => hrun)
    (by simp [hpix, htarget])
  refine ⟨h, ?_⟩
  rw [hprev, hcache, hrun] at decoded
  exact decoded

end Sys2Proof.Safety
end

section
/-! The budget of an encode pass (44_encode_engine.md R226, 70_reset_and_hazards.md R305). -/

namespace Sys2Proof.Safety

open Sys2Proof.Machine

/-- A step from `s` to `t` that uses up one of the steps left. -/
abbrev UsesStep (s t : State) : Prop := encodeStepsLeft t + 1 ≤ encodeStepsLeft s

section
variable {s t : State}

/-! ### What is left in each sub-state -/

theorem stepsLeft_eHdr {j : Fin 14} (hs : s.sub = .eHdr j) :
    encodeStepsLeft s = (14 - j.val) + pixelsLeft s * channelCount s + 5 * pixelsLeft s + 8 := by
  simp [encodeStepsLeft, hs]

theorem stepsLeft_eIn {i : Fin 4} (hs : s.sub = .eIn i) :
    encodeStepsLeft s
      = (pixelsLeft s * channelCount s - i.val) + 5 * pixelsLeft s + runBytesOwed s.run + 8 := by
  simp [encodeStepsLeft, hs, runBytesOwed]

theorem stepsLeft_eOut {b : Byte} {q : List Byte} (hs : s.sub = .eOut b q) :
    encodeStepsLeft s = (q.length + 1) + pixelsLeft s * channelCount s + 5 * pixelsLeft s + 8 := by
  simp [encodeStepsLeft, hs]

theorem stepsLeft_eMark {j : Fin 8} (hs : s.sub = .eMark j) : encodeStepsLeft s = 8 - j.val := by
  simp [encodeStepsLeft, hs]

/-- A whole number of pixels before the end, with the run byte owed and the marker. -/
def bodyStepsLeft (s : State) : Nat := pixelsLeft s * channelCount s + 5 * pixelsLeft s + runBytesOwed s.run + 8

theorem bodyStepsLeft_of_flushed (h : s.run = 0) :
    bodyStepsLeft s = pixelsLeft s * channelCount s + 5 * pixelsLeft s + 8 := by
  simp [bodyStepsLeft, runBytesOwed, h]

theorem stepsLeft_nextPixel_le (hb : (nextPixel s).state = .busy) :
    encodeStepsLeft (nextPixel s) ≤ bodyStepsLeft s := by
  rcases nextPixel_cases s with ⟨-, e⟩ | ⟨-, -, e⟩ | ⟨-, -, e⟩ <;> rw [e] at hb ⊢
  · rw [stepsLeft_eIn rfl]; rfl
  · rw [stepsLeft_eMark rfl]; exact Nat.le_add_left _ _
  · cases hb

theorem stepsLeft_emit_le {q : List Byte} (hb : (emit q s).state = .busy) :
    encodeStepsLeft (emit q s) ≤ q.length + bodyStepsLeft s := by
  cases q with
  | nil => exact (stepsLeft_nextPixel_le hb).trans (Nat.le_add_left _ _)
  | cons b q =>
    rw [stepsLeft_eOut (s := emit (b :: q) s) rfl]
    show q.length + 1 + pixelsLeft s * channelCount s + 5 * pixelsLeft s + 8 ≤ q.length + 1 + bodyStepsLeft s
    unfold bodyStepsLeft
    omega

/-! ### The steps of the pass -/

theorem bodyStepsLeft_pixelsCounted (hmiss : s.pixCount.toNat < s.target.toNat) :
    bodyStepsLeft (pixelsCounted 1 s) + channelCount s + 5 = bodyStepsLeft s := by
  show pixelsLeft (pixelsCounted 1 s) * channelCount s + 5 * pixelsLeft (pixelsCounted 1 s) + runBytesOwed s.run + 8
    + channelCount s + 5 = bodyStepsLeft s
  rw [bodyStepsLeft, ← pixelsLeft_pixelsCounted hmiss, Nat.add_one_mul (pixelsLeft (pixelsCounted 1 s))]
  omega

/-- The bytes that a pixel emits are paid for by the five output bytes it has and by the run byte owed. -/
theorem bodyStepsLeft_encodePixel (p : Pixel) (s : State) :
    (chunkBytes (encodePixel p s).1).length + bodyStepsLeft (encodePixel p s).2 ≤ 5 + bodyStepsLeft s := by
  have bytes := encodePixel_bytes_owed p s
  obtain ⟨prev, cache, run, e⟩ := encodePixel_frame p s
  rw [e] at bytes ⊢
  show _ + (pixelsLeft s * channelCount s + 5 * pixelsLeft s + runBytesOwed run + 8) ≤ _
  unfold bodyStepsLeft
  dsimp only at bytes
  omega

/-- A whole pixel uses up its own bytes, the last of which is taken in this step. -/
theorem stepsLeft_takePixel_le {p : Pixel} (hb : (takePixel p s).state = .busy)
    (hmiss : s.pixCount.toNat < s.target.toNat) :
    encodeStepsLeft (takePixel p s) + channelCount s ≤ bodyStepsLeft s := by
  rw [takePixel_eq] at hb ⊢
  have left := stepsLeft_emit_le hb
  have paid := bodyStepsLeft_encodePixel p (pixelsCounted 1 s)
  have counted := bodyStepsLeft_pixelsCounted hmiss
  omega

/-- An enabled step takes an input byte or delivers an output byte, and uses up a step. -/
theorem CoreEffect.usesStep (he : CoreEffect s t) (h : Invariant s) (hb : s.state = .busy)
    (hm : s.passMode = .encode) (hbt : t.state = .busy)
    (enabled : offer s = none ∧ s.inTok ≠ none ∨ offer s ≠ none ∧ s.outAns ≠ none) : UsesStep s t := by
  have hi := h.sub
  unfold SubInv at hi
  cases he with
  | held hheld =>
    have hne := h.busy.mp hb
    rcases enabled with ⟨ho, ht⟩ | ⟨ho, ha⟩
    · simp [hb, hne, ho, ht] at hheld
    · simp [hb, hne, ho, ha] at hheld
  | headerOut hs _ hlt =>
    rw [UsesStep, stepsLeft_eHdr hs, stepsLeft_eHdr rfl]
    show 14 - (_ + 1) + pixelsLeft s * channelCount s + 5 * pixelsLeft s + 8 + 1 ≤ _
    omega
  | @headerOutDone j hs _ hlast =>
    rw [hs] at hi
    obtain ⟨-, -, hrun, -⟩ := hi
    have left := stepsLeft_nextPixel_le hbt
    have hj : j.val = 13 := by omega
    rw [UsesStep, stepsLeft_eHdr hs, hj]
    change _ ≤ bodyStepsLeft s at left
    rw [bodyStepsLeft_of_flushed hrun] at left
    omega
  | @inputByte i _ hs _ hlt h4 =>
    rw [hs] at hi
    obtain ⟨-, hmiss, -⟩ := hi
    have hleft : channelCount s ≤ pixelsLeft s * channelCount s := Nat.le_mul_of_pos_left _ (pixelsLeft_pos hmiss)
    have hch : i.val + 1 < channelCount s := hlt
    rw [UsesStep, stepsLeft_eIn hs, stepsLeft_eIn rfl]
    show pixelsLeft s * channelCount s - (i.val + 1) + 5 * pixelsLeft s + runBytesOwed s.run + 8 + 1 ≤ _
    omega
  | @inputDone i b hs _ hlast =>
    rw [hs] at hi
    obtain ⟨hpass, hmiss, -, -, hlt, -⟩ := hi
    have hleft : channelCount s ≤ pixelsLeft s * channelCount s := Nat.le_mul_of_pos_left _ (pixelsLeft_pos hmiss)
    have left := stepsLeft_takePixel_le hbt hmiss
    rw [UsesStep, stepsLeft_eIn hs]
    change _ + channelCount s ≤ bodyStepsLeft s at left
    unfold bodyStepsLeft at left
    omega
  | @chunkByte b q hs =>
    rw [hs] at hi
    obtain ⟨-, hrun, -⟩ := hi
    have left := stepsLeft_emit_le hbt
    rw [UsesStep, stepsLeft_eOut hs]
    change _ ≤ q.length + bodyStepsLeft s at left
    rw [bodyStepsLeft_of_flushed hrun] at left
    omega
  | markerOut hs _ hlt =>
    rw [UsesStep, stepsLeft_eMark hs, stepsLeft_eMark rfl]
    dsimp only
    omega
  | headerByte hs | headerAccepted hs =>
    rw [hs] at hi
    obtain ⟨hdecode, -⟩ := hi
    exact absurd (hdecode.symm.trans hm) nofun
  | tag hs | oneByteChunk hs | payload hs | payloadChunk hs | pixelByte hs | pixelDone hs | chunkDone hs
  | markerByte hs =>
    rw [hs] at hi
    obtain ⟨hbody, -⟩ := hi
    exact absurd (hbody.mode.symm.trans hm) nofun
  | shortRead | writeFail | headerRejected | overrun | markerOmitted | markerBad | markerSeen | markerOutDone =>
    cases hbt

end

/-- Settles O40: every enabled step that stays BUSY uses up one of the steps left, and at E_HDR(0) all of TARGET is
left. -/
theorem encodePassBudget : Obligations.EncodePassBudget := by
  refine ⟨fun s t h hb hm hc hbt enabled => ?_, fun s hs hpix => ?_⟩
  · rw [Option.isSome_iff_ne_none] at enabled
    exact (coreEffect_of_coreStep hc).usesStep h hb hm hbt enabled
  · rw [stepsLeft_eHdr hs]
    simp [pixelsLeft, hpix, channelCount]

end Sys2Proof.Safety
end

section
/-! No step reads the events to come (20_memory.md R66), so a schedule's parts can be run one after the other. -/

namespace Sys2Proof.Safety

open Sys2Proof.Machine

/-- `s` with other events to come. -/
def withEvents (es : List Event) (s : State) : State := { s with events := es }

/-- The result with its next state, where it has one, changed. -/
def mapNext (f : State → State) : Result → Result
  | .next s => .next (f s)
  | .fault r => .fault r
  | .refused r => .refused r

section
variable {s : State} {es : List Event}

/-! ### The parts of a core step -/

theorem nextPixel_withEvents : nextPixel (withEvents es s) = withEvents es (nextPixel s) := by
  simp only [nextPixel, finishEnc, apply_ite (withEvents es)]
  rfl

theorem emit_withEvents (q : List Byte) : emit q (withEvents es s) = withEvents es (emit q s) := by
  cases q with
  | nil => exact nextPixel_withEvents
  | cons b q => rfl

theorem encodePixel_withEvents (p : Pixel) :
    encodePixel p (withEvents es s) = (encodePixel p s).map id (withEvents es) := by
  simp only [encodePixel, apply_ite (Prod.map id (withEvents es))]
  rfl

theorem takePixel_withEvents (p : Pixel) : takePixel p (withEvents es s) = withEvents es (takePixel p s) :=
  calc takePixel p (withEvents es s)
      = emit (chunkBytes (encodePixel p (pixelsCounted 1 s)).1) (withEvents es (encodePixel p (pixelsCounted 1 s)).2) :=
        takePixel_eq_of_encodePixel (encodePixel_withEvents (s := pixelsCounted 1 s) p)
    _ = withEvents es (takePixel p s) := emit_withEvents _

theorem afterHeaderByte_withEvents (j : Fin 14) :
    afterHeaderByte j (withEvents es s) = withEvents es (afterHeaderByte j s) := by
  unfold afterHeaderByte
  split
  · rfl
  · exact nextPixel_withEvents (s := { s with phase := .body })

theorem afterMarkerByte_withEvents (j : Fin 8) :
    afterMarkerByte j (withEvents es s) = withEvents es (afterMarkerByte j s) := by
  unfold afterMarkerByte
  split <;> rfl

/-- `s` with an accepted header, at the start of the body (40_header.md R104). -/
def bodyBegun (w h : Word) (c cs : Byte) (s : State) : State :=
  { acceptHeader w h c cs s with phase := .body }

/-- A stream element's meaning. -/
theorem exec_withEvents {i : Instr} (hi : i.position ≠ .ctrl) :
    exec i (withEvents es s) = mapNext (withEvents es) (exec i s) := by
  cases i with
  | rgb | rgba | diff | luma | endMarker => rfl
  | index k =>
    show execIndex k _ = mapNext _ (execIndex k s)
    unfold execIndex
    split <;> rfl
  | run n =>
    show execRun n _ = mapNext _ (execRun n s)
    simp only [execRun, apply_ite (mapNext (withEvents es))]
    rfl
  | header m w h c cs =>
    show execHeader m w h c cs _ = mapNext _ (execHeader m w h c cs s)
    have accepted : nextChunk (bodyBegun w h c cs (withEvents es s))
        = withEvents es (nextChunk (bodyBegun w h c cs s)) := nextChunk_withEvents (bodyBegun w h c cs s) es
    unfold bodyBegun at accepted
    simp only [execHeader, accepted, apply_ite (mapNext (withEvents es))]
    rfl
  | startDecode | startEncode | abort => exact absurd rfl hi

theorem exec_chunkOf_withEvents (k : ChunkKind) (b p0 p1 p2 p3 : Byte) :
    exec (chunkOf k b p0 p1 p2 p3) (withEvents es s) = mapNext (withEvents es) (exec (chunkOf k b p0 p1 p2 p3) s) :=
  exec_withEvents (by rw [chunkOf_position]; nofun)

/-! ### The input sub-states -/

theorem stepDHdr_withEvents (i : Fin 14) (t : Token) :
    stepDHdr i t (withEvents es s) = mapNext (withEvents es) (stepDHdr i t s) := by
  cases t with
  | eoi => rfl
  | byte b =>
    unfold stepDHdr
    dsimp only
    split
    · rfl
    · exact exec_withEvents (s := { countIn s with hdrBuf := s.hdrBuf.set i.val b }) nofun

theorem stepDTag_withEvents (t : Token) :
    stepDTag t (withEvents es s) = mapNext (withEvents es) (stepDTag t s) := by
  cases t with
  | eoi => rfl
  | byte b =>
    have runs (k : ChunkKind) := exec_chunkOf_withEvents (es := es) (s := { countIn s with tag := b }) k b 0 0 0 0
    cases h : kind b <;> simp only [stepDTag, h]
    case rgb | rgba | luma => rfl
    case index | diff | run => exact runs _

theorem stepDPay_withEvents (k : PayKind) (i : Fin 4) (t : Token) :
    stepDPay k i t (withEvents es s) = mapNext (withEvents es) (stepDPay k i t s) := by
  cases t with
  | eoi => rfl
  | byte b =>
    unfold stepDPay
    dsimp only
    split
    · rfl
    · exact exec_chunkOf_withEvents (s := { countIn s with pay := s.pay.set i.val b }) _ _ _ _ _ _

theorem stepDMark_withEvents (i : Fin 8) (t : Token) :
    stepDMark i t (withEvents es s) = mapNext (withEvents es) (stepDMark i t s) := by
  cases t with
  | eoi =>
    simp only [stepDMark, apply_ite (mapNext (withEvents es))]
    rfl
  | byte b =>
    simp only [stepDMark, apply_ite (mapNext (withEvents es)), apply_dite (mapNext (withEvents es))]
    rfl

theorem stepEIn_withEvents (i : Fin 4) (t : Token) :
    stepEIn i t (withEvents es s) = mapNext (withEvents es) (stepEIn i t s) := by
  cases t with
  | eoi => rfl
  | byte b =>
    by_cases h : i.val + 1 < s.channels.toNat ∧ i.val + 1 < 4
    · rw [stepEIn_byte_inner h.1 h.2, stepEIn_byte_inner (s := withEvents es s) h.1 h.2]
      rfl
    · rw [stepEIn_byte_last h, stepEIn_byte_last (s := withEvents es s) h]
      exact congrArg _ (takePixel_withEvents (s := { countIn s with pin := s.pin.set i.val b }) _)

/-! ### One event -/

theorem withToken_withEvents {f : Token → State → Result}
    (hf : ∀ t u, f t (withEvents es u) = mapNext (withEvents es) (f t u)) :
    withToken f (withEvents es s) = mapNext (withEvents es) (withToken f s) := by
  unfold withToken
  cases h : s.inTok with
  | none => simp [withEvents, h, mapNext]
  | some t => simpa [withEvents, h] using hf t { s with inTok := none }

theorem withAnswer_withEvents {k : State → State} (hk : ∀ u, k (withEvents es u) = withEvents es (k u)) :
    withAnswer k (withEvents es s) = mapNext (withEvents es) (withAnswer k s) := by
  have noted : (withEvents es s).outAns = s.outAns := rfl
  unfold withAnswer
  rw [noted]
  cases s.outAns with
  | none => rfl
  | some a =>
    cases a with
    | fail => rfl
    | ack => exact congrArg _ (hk { s with outAns := none, outCount := s.outCount + 1 })

theorem coreStep_withEvents (s : State) : coreStep (withEvents es s) = mapNext (withEvents es) (coreStep s) := by
  by_cases hb : s.state = .busy
  · have selected : (withEvents es s).sub = s.sub := rfl
    unfold coreStep
    rw [if_pos hb, if_pos (show (withEvents es s).state = .busy from hb), selected]
    cases s.sub with
    | none => rfl
    | dHdr i => exact withToken_withEvents fun t u => stepDHdr_withEvents i t
    | dTag => exact withToken_withEvents fun t u => stepDTag_withEvents t
    | dPay k i => exact withToken_withEvents fun t u => stepDPay_withEvents k i t
    | dOut px n j => exact withAnswer_withEvents fun u => afterPixelByte_withEvents u es
    | dMark i => exact withToken_withEvents fun t u => stepDMark_withEvents i t
    | eHdr j => exact withAnswer_withEvents fun u => afterHeaderByte_withEvents j
    | eIn i => exact withToken_withEvents fun t u => stepEIn_withEvents i t
    | eOut b q => exact withAnswer_withEvents fun u => emit_withEvents q
    | eMark j => exact withAnswer_withEvents fun u => afterMarkerByte_withEvents j
  · rw [coreStep_not_busy hb, coreStep_not_busy (s := withEvents es s) hb]; rfl

theorem perform_withEvents {e : Event} (he : streamMove e = true) (s : State) :
    perform e (withEvents es s) = mapNext (withEvents es) (perform e s) := by
  cases e with
  | core => exact coreStep_withEvents s
  | present t =>
    show Machine.present t (withEvents es s) = mapNext _ (Machine.present t s)
    unfold Machine.present
    cases h : s.inTok <;> simp [withEvents, h, mapNext, presentedToPass]
  | answer a =>
    have offered : offer (withEvents es s) = offer s := rfl
    show Machine.answer a (withEvents es s) = mapNext _ (Machine.answer a s)
    unfold Machine.answer
    rw [offered]
    cases ho : offer s <;> cases ha : s.outAns <;> cases a <;> simp [withEvents, ha, mapNext]
  | csrRead | csrWrite | reset => cases he

end

/-! ### A schedule that leads from one state to another -/

/-- Under the schedule `es`, whatever comes after it, the machine comes from `s` to `t`. -/
def Leads (s : State) (es : List Event) (t : State) : Prop :=
  ∀ rest, runSchedule s (es ++ rest) = runSchedule t rest

section
variable {s t u : State} {es es' : List Event}

theorem Leads.append (h : Leads s es t) (h' : Leads t es' u) : Leads s (es ++ es') u :=
  fun rest => by rw [List.append_assoc, h, h']

theorem leads_of_perform {e : Event} (he : streamMove e = true) (h : perform e s = .next t) : Leads s [e] t := by
  intro rest
  have stepped := perform_withEvents (es := rest) he s
  rw [h] at stepped
  exact runSchedule_cons stepped

/-- A run that does not stop has a first step. -/
theorem perform_of_runSchedule_cons {e : Event} (h : runSchedule s (e :: es) = .next t) :
    ∃ u, perform e (withEvents es s) = .next u := by
  have first : core.step { s with events := e :: es } = perform e (withEvents es s) := rfl
  simp only [runSchedule, List.length_cons, Host.Core.run, first] at h
  cases hp : perform e (withEvents es s) with
  | next u => exact ⟨u, rfl⟩
  | fault r | refused r => rw [hp] at h; cases h

/-- A whole run, once known, can be gone on with. -/
theorem leads_of_runSchedule (hes : ∀ e ∈ es, streamMove e = true) (h : runSchedule s es = .next t) :
    Leads s es t := by
  induction es generalizing s with
  | nil => cases h; exact fun rest => rfl
  | cons e es ih =>
    obtain ⟨he, hes⟩ := List.forall_mem_cons.mp hes
    obtain ⟨v, stepped⟩ := perform_of_runSchedule_cons h
    rw [perform_withEvents he] at stepped
    cases hp : perform e s with
    | next u =>
      have first := leads_of_perform he hp
      exact first.append (ih hes ((first es).symm.trans h))
    | fault r | refused r => rw [hp] at stepped; cases stepped

end

end Sys2Proof.Safety
end

section
/-! What an undisturbed pass comes to: some schedule of the two channels and the core's turns, known by the tokens it
presents (20_memory.md R66). -/

namespace Sys2Proof.Safety

open Sys2Proof.Machine

/-- Some schedule of stream moves presents exactly `toks` and leads from `s` to `t`. -/
def Streams (s : State) (toks : List Token) (t : State) : Prop :=
  ∃ es, (∀ e ∈ es, streamMove e = true) ∧ presented es = toks ∧ Leads s es t

section
variable {s t u : State} {toks toks' : List Token}

theorem presented_append (a b : List Event) : presented (a ++ b) = presented a ++ presented b := by
  induction a with
  | nil => rfl
  | cons e a ih => cases e <;> simp [presented, ih]

theorem streams_refl (s : State) : Streams s [] s := ⟨[], nofun, rfl, fun _ => rfl⟩

theorem Streams.append (h : Streams s toks t) (h' : Streams t toks' u) : Streams s (toks ++ toks') u := by
  obtain ⟨es, moves, shown, leads⟩ := h
  obtain ⟨es', moves', shown', leads'⟩ := h'
  exact ⟨es ++ es', List.forall_mem_append.mpr ⟨moves, moves'⟩, by rw [presented_append, shown, shown'],
    leads.append leads'⟩

/-- The events that are left where a run ends do not matter. -/
theorem Streams.of_withEvents {es : List Event} (h : Streams s toks (withEvents es t)) : Streams s toks t := h

/-- One token presented and taken. -/
theorem Running.streams_token (h : Running s) (ht : s.inTok = none) {k : Token}
    (hc : coreStep { s with inTok := some k } = .next t) : Streams s [k] t := by
  refine ⟨[.present k, .core], by simp [streamMove], rfl, ?_⟩
  have shown : perform (.present k) s = .next { s with inTok := some k } := h.present ht k
  exact (leads_of_perform rfl shown).append (leads_of_perform rfl hc)

/-- `s` with the offered byte `b` ACKed, the core's turn to come. -/
def ackNoted (b : Byte) (s : State) : State := { s with outAns := some .ack, outStream := s.outStream ++ [b] }

theorem byteCounted_ackNoted (b : Byte) (s : State) : byteCounted (ackNoted b s) = bytesDelivered [b] s := rfl

/-- One byte ACKed and counted. -/
theorem streams_ack {b : Byte} (ho : offer s = some b) (ha : s.outAns = none)
    (hc : coreStep (ackNoted b s) = .next t) : Streams s [] t := by
  refine ⟨[.answer .ack, .core], by simp [streamMove], rfl, ?_⟩
  have acked : perform (.answer .ack) s = .next (ackNoted b s) := answer_ack ho ha
  exact (leads_of_perform rfl acked).append (leads_of_perform rfl hc)

theorem streamMoves_feedBytes (l : List Byte) :
    (∀ e ∈ feedBytes l, streamMove e = true) ∧ presented (feedBytes l) = l.map .byte := by
  induction l with
  | nil => exact ⟨nofun, rfl⟩
  | cons b l ih => simpa [feedBytes_cons, streamMove, presented] using ih

theorem streamMoves_ackBytes (n : Nat) :
    (∀ e ∈ ackBytes n, streamMove e = true) ∧ presented (ackBytes n) = [] := by
  induction n with
  | zero => exact ⟨nofun, rfl⟩
  | succ n ih =>
    rw [← List.append_nil (ackBytes (n + 1)), ackBytes_succ_append, List.append_nil]
    simpa [streamMove, presented] using ih

/-- A run of fed bytes and ACKs that is known whole. -/
theorem streams_of_runSchedule {l : List Byte} {n : Nat} (h : runSchedule s (feedBytes l ++ ackBytes n) = .next t) :
    Streams s (l.map .byte) t := by
  obtain ⟨fedMoves, fed⟩ := streamMoves_feedBytes l
  obtain ⟨ackMoves, acked⟩ := streamMoves_ackBytes n
  have moves := List.forall_mem_append.mpr ⟨fedMoves, ackMoves⟩
  refine ⟨_, moves, ?_, leads_of_runSchedule moves h⟩
  rw [presented_append, fed, acked, List.append_nil]

end

end Sys2Proof.Safety
end


section
/-! An encode pass delivers its header, its chunks and its marker (44_encode_engine.md R201, R202, R217, R228). -/

namespace Sys2Proof.Safety

open Sys2Proof.Machine

section
variable {s : State}

/-! ### The parts of the state that the pass writes -/

theorem bytesDelivered_nil (ha : s.outAns = none) : bytesDelivered [] s = s := by
  simp [bytesDelivered, ← ha]

theorem emit_withSub (q : List Byte) (x : Sub) : emit q (withSub x s) = emit q s := by
  cases q <;> rfl

/-- The bytes of a list before place `j + 1`. -/
theorem take_succ_of_getElem? {l : List Byte} {j : Nat} {b : Byte} (h : l[j]? = some b) :
    l.take (j + 1) = l.take j ++ [b] := by
  rw [List.take_add_one, h]; rfl

theorem bytesDelivered_take_succ {l : List Byte} {j : Nat} {b : Byte} (h : l[j]? = some b) :
    bytesDelivered [b] (bytesDelivered (l.take j) s) = bytesDelivered (l.take (j + 1)) s := by
  rw [bytesDelivered_bytesDelivered, take_succ_of_getElem? h]

/-! ### The header and the marker -/

/-- The bytes of the header that an encode pass in `s` emits. -/
def headerOf (s : State) : List Byte := headerBytes s.magic s.width s.height s.channels s.colorspace

theorem headerOf_getElem? (s : State) (j : Fin 14) : (headerOf s)[j.val]? = some (headerByte s j) := headerByte_eq s j

theorem streams_headerByte (hb : s.state = .busy) (ha : s.outAns = none) {j : Fin 14} (hs : s.sub = .eHdr j) {b : Byte}
    (get : (headerOf s)[j.val]? = some b) : Streams s [] (afterHeaderByte j (bytesDelivered [b] s)) := by
  obtain rfl : headerByte s j = b := Option.some.inj ((headerOf_getElem? s j).symm.trans get)
  exact streams_ack (offer_eHdr hb hs) ha (coreStep_eHdr (s := ackNoted (headerByte s j) s) hb hs rfl)

theorem streams_headerBytes (hb : s.state = .busy) (ha : s.outAns = none) (hs : s.sub = .eHdr 0) (j : Nat)
    (hj : j < 14) : Streams s [] (withSub (.eHdr ⟨j, hj⟩) (bytesDelivered ((headerOf s).take j) s)) := by
  induction j with
  | zero =>
    show Streams s [] (withSub (.eHdr 0) (bytesDelivered [] s))
    rw [bytesDelivered_nil ha, ← hs]
    exact streams_refl s
  | succ j ih =>
    have get := headerOf_getElem? s ⟨j, by omega⟩
    have byte := streams_headerByte
      (s := withSub (.eHdr ⟨j, by omega⟩) (bytesDelivered ((headerOf s).take j) s)) hb rfl rfl get
    rw [bytesDelivered_withSub, bytesDelivered_take_succ get, afterHeaderByte_inner hj] at byte
    exact (ih (by omega)).append byte

theorem streams_header (hb : s.state = .busy) (ha : s.outAns = none) (hs : s.sub = .eHdr 0) :
    Streams s [] (nextPixel { bytesDelivered (headerOf s) s with phase := .body }) := by
  have before := streams_headerBytes hb ha hs 13 (by decide)
  have get := headerOf_getElem? s 13
  have whole : (headerOf s).take 13 ++ [headerByte s 13] = headerOf s := (take_succ_of_getElem? get).symm
  generalize (headerOf s).take 13 = l at before whole
  have last := streams_headerByte (s := withSub (.eHdr 13) (bytesDelivered l s)) hb rfl rfl get
  rw [bytesDelivered_withSub, bytesDelivered_bytesDelivered, whole] at last
  exact before.append last

theorem streams_markerByte (hb : s.state = .busy) (ha : s.outAns = none) {j : Fin 8} (hs : s.sub = .eMark j) :
    Streams s [] (afterMarkerByte j (bytesDelivered [Config.markerByte j] s)) :=
  streams_ack (offer_eMark hb hs) ha (coreStep_eMark (s := ackNoted (Config.markerByte j) s) hb hs rfl)

theorem streams_markerBytes (hb : s.state = .busy) (ha : s.outAns = none) (hs : s.sub = .eMark 0) (j : Nat)
    (hj : j < 8) : Streams s [] (withSub (.eMark ⟨j, hj⟩) (bytesDelivered (markerBytes.take j) s)) := by
  induction j with
  | zero =>
    show Streams s [] (withSub (.eMark 0) (bytesDelivered [] s))
    rw [bytesDelivered_nil ha, ← hs]
    exact streams_refl s
  | succ j ih =>
    have byte := streams_markerByte
      (s := withSub (.eMark ⟨j, by omega⟩) (bytesDelivered (markerBytes.take j) s)) hb rfl rfl
    rw [bytesDelivered_withSub, bytesDelivered_take_succ (markerBytes_getElem? _), afterMarkerByte_inner hj] at byte
    exact (ih (by omega)).append byte

theorem streams_marker (hb : s.state = .busy) (ha : s.outAns = none) (hs : s.sub = .eMark 0) :
    Streams s [] (finish (bytesDelivered markerBytes s)) := by
  have get : markerBytes[7]? = some (Config.markerByte 7) := rfl
  have last := streams_markerByte
    (s := withSub (.eMark 7) (bytesDelivered (markerBytes.take 7) s)) hb rfl rfl
  rw [bytesDelivered_withSub, bytesDelivered_take_succ get] at last
  exact (streams_markerBytes hb ha hs 7 (by decide)).append last

/-! ### The bytes of one pixel's chunks -/

theorem streams_emit (hb : s.state = .busy) (ha : s.outAns = none) (q : List Byte) :
    Streams (emit q s) [] (nextPixel (bytesDelivered q s)) := by
  induction q generalizing s with
  | nil => rw [bytesDelivered_nil ha]; exact streams_refl _
  | cons b q ih =>
    have acked := coreStep_eOut (s := ackNoted b (withSub (.eOut b q) s)) hb rfl rfl
    rw [byteCounted_ackNoted, bytesDelivered_withSub, emit_withSub] at acked
    have rest := ih (s := bytesDelivered [b] s) hb rfl
    rw [bytesDelivered_bytesDelivered] at rest
    exact (streams_ack (s := withSub (.eOut b q) s) (offer_eOut hb rfl) ha acked).append rest

/-! ### The bytes of one pixel -/

/-- The bytes of a pixel that are missing, stored in their places, make the pixel. -/
theorem Running.streams_input (h : Running s) (ht : s.inTok = none) (hch : s.channels = 3 ∨ s.channels = 4)
    {i : Fin 4} (hs : s.sub = .eIn i) {l : List Byte} (hne : l ≠ []) (hlen : i.val + l.length = s.channels.toNat) :
    ∃ sub, Streams s (l.map .byte) (takePixel (inputPixel s.channels (storeBytes s.pin i.val l))
      { bytesTaken l s with pin := storeBytes s.pin i.val l, sub := sub }) := by
  induction l generalizing s i with
  | nil => exact absurd rfl hne
  | cons b l ih =>
    rw [storeBytes_cons]
    cases l with
    | nil =>
      have taken := coreStep_lastInputByte (s := { s with inTok := some (.byte b) }) h.state hs rfl hlen
      exact ⟨s.sub, h.streams_token ht taken⟩
    | cons c l =>
      simp only [List.length_cons] at hlen
      have hle : s.channels.toNat ≤ 4 := by rcases hch with hc | hc <;> simp [hc]
      have h4 : i.val + 1 < 4 := by omega
      have inner : i.val + 1 < s.channels.toNat := by omega
      have taken := coreStep_inputByte (s := { s with inTok := some (.byte b) }) h.state hs rfl inner h4
      obtain ⟨sub, rest⟩ := ih (s := { byteTaken s with pin := s.pin.set i.val b, sub := .eIn ⟨i.val + 1, h4⟩ })
        { h with } rfl hch rfl nofun (by show i.val + 1 + (l.length + 1) = s.channels.toNat; omega)
      rw [bytesTaken_cons]
      exact ⟨sub, (h.streams_token ht taken).append rest⟩

theorem inputPixel_storeBytes {ch : Byte} (hch : ch = 3 ∨ ch = 4) (pin : Vector Byte 4) {p : Pixel}
    (ha : ch = 3 → p.a = 255) : inputPixel ch (storeBytes pin 0 (pixelBytes ch p)) = p := by
  rcases hch with rfl | rfl
  · simp [inputPixel, pixelBytes, storeBytes, Vector.get_eq_getElem, ← ha rfl]
  · simp [inputPixel, pixelBytes, storeBytes, Vector.get_eq_getElem]

theorem pixelBytes_ne_nil (ch : Byte) (p : Pixel) : pixelBytes ch p ≠ [] := by
  unfold pixelBytes; split <;> nofun

theorem Running.streams_takePixel (h : Running s) (ht : s.inTok = none) (hch : s.channels = 3 ∨ s.channels = 4)
    (hs : s.sub = .eIn 0) {p : Pixel} (ha : s.channels = 3 → p.a = 255) :
    ∃ pin sub, Streams s ((pixelBytes s.channels p).map .byte)
      (takePixel p { bytesTaken (pixelBytes s.channels p) s with pin := pin, sub := sub }) := by
  obtain ⟨sub, taken⟩ := h.streams_input ht hch hs (pixelBytes_ne_nil s.channels p)
    ((Nat.zero_add _).trans (length_pixelBytes hch p))
  rw [show (0 : Fin 4).val = 0 from rfl, inputPixel_storeBytes hch s.pin ha] at taken
  exact ⟨_, sub, taken⟩

end

end Sys2Proof.Safety
end

section
/-! An encode pass over all its pixels (44_encode_engine.md R218, R230). -/

namespace Sys2Proof.Safety

open Sys2Proof.Machine

/-! ### What a pass keeps -/

/-- The image that a pass is about, as the registers say it. -/
structure ImageRegs where
  magic : Word
  width : Word
  height : Word
  channels : Byte
  colorspace : Byte
  target : Count

def imageRegs (s : State) : ImageRegs := ⟨s.magic, s.width, s.height, s.channels, s.colorspace, s.target⟩

/-- An encode pass between two pixels, or after its header: nothing is left to emit, a pending run is short. -/
structure PixelEnd (s : State) : Prop where
  running : Running s
  noToken : s.inTok = none
  channels : s.channels = 3 ∨ s.channels = 4
  short : s.run.toNat ≤ 61
  flushed : s.pixCount = s.target → s.run = 0

section
variable {s : State} {p : Pixel}

theorem Running.after_delivery (h : Running s) (l : List Byte) : Running (bytesDelivered l s) :=
  { h with
    noAnswer := rfl
    outCount := by simp [bytesDelivered, BitVec.ofNat_add, h.outCount] }

theorem Running.after_encodePixel (h : Running s) (p : Pixel) : Running (encodePixel p s).2 := by
  rcases encodePixel_cases p s with ⟨-, -, e⟩ | e | e <;> rw [e]
  · exact { h with }
  · exact { h with }
  · exact Running.after_update (s := { s with run := 0 }) { h with } p

/-- `s` with the bytes of `p` taken, which leave `pin` and `sub`, and the pixel counted. -/
def pixelTaken (p : Pixel) (pin : Vector Byte 4) (sub : Sub) (s : State) : State :=
  pixelsCounted 1 { bytesTaken (pixelBytes s.channels p) s with pin := pin, sub := sub }

/-- `s` with `encode_pixel` done and the bytes of its chunks delivered. -/
def pixelEncoded (p : Pixel) (s : State) : State :=
  bytesDelivered (chunkBytes (encodePixel p s).1) (encodePixel p s).2

/-- The bytes of one pixel are taken, and those of its chunks delivered. -/
theorem PixelEnd.streams_pixel (h : PixelEnd s) (hmiss : s.pixCount ≠ s.target) (ha : s.channels = 3 → p.a = 255) :
    ∃ pin sub, Streams (nextPixel s) ((pixelBytes s.channels p).map .byte)
      (nextPixel (pixelEncoded p (pixelTaken p pin sub s))) := by
  have next : nextPixel s = withSub (.eIn 0) s := if_neg hmiss
  obtain ⟨pin, sub, taken⟩ := Running.streams_takePixel (s := withSub (.eIn 0) s) { h.running with } h.noToken
    h.channels rfl ha
  have encoded : Running (encodePixel p (pixelTaken p pin sub s)).2 :=
    Running.after_encodePixel (s := pixelTaken p pin sub s) { h.running with } p
  refine ⟨pin, sub, ?_⟩
  rw [next, ← List.append_nil (List.map _ _)]
  exact taken.append (streams_emit encoded.state encoded.noAnswer _)

theorem pixelEncoded_frame (p : Pixel) (s : State) : ∃ prev cache run,
    pixelEncoded p s = bytesDelivered (chunkBytes (encodePixel p s).1)
      { s with prev := prev, cache := cache, run := run } := by
  obtain ⟨prev, cache, run, e⟩ := encodePixel_frame p s
  exact ⟨prev, cache, run, congrArg _ e⟩

section
variable (p : Pixel) (pin : Vector Byte 4) (sub : Sub) (s : State)

@[simp] theorem pixelEncoded_pixelTaken_channels :
    (pixelEncoded p (pixelTaken p pin sub s)).channels = s.channels := by
  obtain ⟨prev, cache, run, e⟩ := pixelEncoded_frame p (pixelTaken p pin sub s)
  rw [e]
  simp only [pixelTaken, pixelsCounted, bytesDelivered, bytesTaken]

@[simp] theorem pixelEncoded_pixelTaken_target :
    (pixelEncoded p (pixelTaken p pin sub s)).target = s.target := by
  obtain ⟨prev, cache, run, e⟩ := pixelEncoded_frame p (pixelTaken p pin sub s)
  rw [e]
  simp only [pixelTaken, pixelsCounted, bytesDelivered, bytesTaken]

@[simp] theorem pixelEncoded_pixelTaken_pixCount :
    (pixelEncoded p (pixelTaken p pin sub s)).pixCount = s.pixCount + 1 := by
  obtain ⟨prev, cache, run, e⟩ := pixelEncoded_frame p (pixelTaken p pin sub s)
  rw [e]
  simp only [BitVec.ofNat_eq_ofNat, pixelTaken, pixelsCounted, bytesDelivered, bytesTaken]

@[simp] theorem pixelEncoded_pixelTaken_encMarker :
    (pixelEncoded p (pixelTaken p pin sub s)).encMarker = s.encMarker := by
  obtain ⟨prev, cache, run, e⟩ := pixelEncoded_frame p (pixelTaken p pin sub s)
  rw [e]
  simp only [pixelTaken, pixelsCounted, bytesDelivered, bytesTaken]

@[simp] theorem pixelEncoded_pixelTaken_outStream :
    (pixelEncoded p (pixelTaken p pin sub s)).outStream
      = s.outStream ++ chunkBytes (encodePixel p (pixelTaken p pin sub s)).1 := by
  obtain ⟨prev, cache, run, e⟩ := pixelEncoded_frame p (pixelTaken p pin sub s)
  rw [e]
  simp only [pixelTaken, pixelsCounted, bytesDelivered, bytesTaken]

@[simp] theorem imageRegs_pixelEncoded_pixelTaken :
    imageRegs (pixelEncoded p (pixelTaken p pin sub s)) = imageRegs s := by
  obtain ⟨prev, cache, run, e⟩ := pixelEncoded_frame p (pixelTaken p pin sub s)
  rw [e]
  simp only [imageRegs, pixelTaken, pixelsCounted, bytesDelivered, bytesTaken]

end

theorem PixelEnd.after_pixel (h : PixelEnd s) (p : Pixel) (pin : Vector Byte 4) (sub : Sub) :
    PixelEnd (pixelEncoded p (pixelTaken p pin sub s)) := by
  have taken : Running (pixelTaken p pin sub s) := { h.running with }
  have running : Running (pixelEncoded p (pixelTaken p pin sub s)) := (taken.after_encodePixel p).after_delivery _
  have short : (pixelEncoded p (pixelTaken p pin sub s)).run.toNat ≤ 61 := encodePixel_run_short p h.short
  have flushes := encodePixel_flushes (s := pixelTaken p pin sub s) p
  change _ → (pixelEncoded p (pixelTaken p pin sub s)).run = 0 at flushes
  obtain ⟨prev, cache, run, e⟩ := pixelEncoded_frame p (pixelTaken p pin sub s)
  rw [e] at running short flushes ⊢
  exact ⟨running, rfl, h.channels, short, flushes⟩

/-! ### All pixels -/

/-- From `s` on an encode pass takes the pixels `ps` and delivers the chunks `is`; it comes to `t`. -/
structure PixelsEncoded (s : State) (ps : List Pixel) (is : List Instr) (t : State) : Prop where
  streams : Streams (nextPixel s) ((ps.flatMap (pixelBytes s.channels)).map .byte) (nextPixel t)
  ended : PixelEnd t
  whole : t.pixCount = t.target
  image : imageRegs t = imageRegs s
  marker : t.encMarker = s.encMarker
  bytes : t.outStream = s.outStream ++ chunkBytes is
  encodable : ∀ i ∈ is, i.wellFormed = true ∧ i.position = .body
  decodes : PendingDecodes s ps is

theorem PixelEnd.streams_pixels {ps : List Pixel} (h : PixelEnd s)
    (hcount : s.pixCount.toNat + ps.length = s.target.toNat) (ha : s.channels = 3 → ∀ p ∈ ps, p.a = 255) :
    ∃ is t, PixelsEncoded s ps is t := by
  induction ps generalizing s with
  | nil =>
    have whole : s.pixCount = s.target := BitVec.eq_of_toNat_eq hcount
    exact ⟨[], s, streams_refl _, h, whole, rfl, rfl, (List.append_nil _).symm, nofun,
      pendingDecodes_nil (h.flushed whole)⟩
  | cons p ps ih =>
    rw [List.length_cons] at hcount
    have hmiss : s.pixCount.toNat < s.target.toNat := by omega
    have counted : (s.pixCount + 1).toNat = s.pixCount.toNat + 1 := count_succ_toNat hmiss
    obtain ⟨pin, sub, first⟩ := h.streams_pixel (p := p) (fun e => by rw [e] at hmiss; omega)
      fun h3 => ha h3 p (by simp)
    have ended := h.after_pixel p pin sub
    have chunks := encodePixel_encodable (s := pixelTaken p pin sub s) p h.short
    obtain ⟨is, t, rest⟩ := ih ended
      (by rw [pixelEncoded_pixelTaken_pixCount, pixelEncoded_pixelTaken_target, counted]; omega)
      (by rw [pixelEncoded_pixelTaken_channels]; exact fun h3 q hq => ha h3 q (by simp [hq]))
    exact ⟨(encodePixel p (pixelTaken p pin sub s)).1 ++ is, t, {
      streams := by
        rw [List.flatMap_cons, List.map_append]
        simpa using first.append rest.streams
      ended := rest.ended
      whole := rest.whole
      image := rest.image.trans (imageRegs_pixelEncoded_pixelTaken ..)
      marker := by simpa using rest.marker
      bytes := by simpa [chunkBytes_append] using rest.bytes
      encodable := List.forall_mem_append.mpr ⟨chunks, rest.encodable⟩
      decodes := PendingDecodes.cons (s := pixelTaken p pin sub s) h.short rest.decodes }⟩

end

end Sys2Proof.Safety
end

section
/-! A decode pass over the bytes of an encoded image (43_decode_engine.md R172 to R181, 44_encode_engine.md R230). -/

namespace Sys2Proof.Safety

open Sys2Proof.Machine

section
variable {s : State}

theorem byteTaken_bytesTaken (l : List Byte) (b : Byte) : byteTaken (bytesTaken l s) = bytesTaken (l ++ [b]) s := by
  simp [byteTaken, bytesTaken, BitVec.ofNat_add, BitVec.add_assoc]

theorem bytesTaken_nil (ht : s.inTok = none) : bytesTaken [] s = s := by
  simp [bytesTaken, ← ht]

/-! ### The header -/

/-- HDRBUF holds the first `j` bytes of `l`. -/
def HoldsTake (v : Vector Byte 14) (j : Nat) (l : List Byte) : Prop := v.toList.take j = l.take j

theorem HoldsTake.set {v : Vector Byte 14} {j : Nat} {l : List Byte} (h : HoldsTake v j l) (hj : j < 14) {b : Byte}
    (get : l[j]? = some b) : HoldsTake (v.set j b) (j + 1) l := by
  rw [HoldsTake, take_succ_of_getElem? get, ← h, Vector.toList_set, List.take_add_one, List.take_set_of_le le_rfl]
  simp [hj]

theorem Running.streams_headerTokens (h : Running s) (ht : s.inTok = none) (hs : s.sub = .dHdr 0) {l : List Byte}
    (hl : l.length = 14) (j : Nat) (hj : j < 14) :
    ∃ v, HoldsTake v j l ∧ Streams s ((l.take j).map .byte)
      (withSub (.dHdr ⟨j, hj⟩) { bytesTaken (l.take j) s with hdrBuf := v }) := by
  induction j with
  | zero =>
    have here : withSub (.dHdr 0) { bytesTaken [] s with hdrBuf := s.hdrBuf } = s := by
      rw [bytesTaken_nil ht, withSub, ← hs]
    exact ⟨s.hdrBuf, rfl, here.symm ▸ streams_refl s⟩
  | succ j ih =>
    obtain ⟨v, holds, before⟩ := ih (by omega)
    have get : l[j]? = some l[j] := List.getElem?_eq_getElem _
    have running : Running (withSub (.dHdr ⟨j, by omega⟩) { bytesTaken (l.take j) s with hdrBuf := v }) := { h with }
    have taken := (coreStep_dHdr (s := { withSub (.dHdr ⟨j, by omega⟩) { bytesTaken (l.take j) s with hdrBuf := v } with
      inTok := some (.byte l[j]) }) h.state rfl rfl).trans (stepDHdr_byte_of_lt hj)
    refine ⟨v.set j l[j], holds.set _ get, ?_⟩
    rw [take_succ_of_getElem? get, List.map_append, ← byteTaken_bytesTaken]
    exact before.append (running.streams_token rfl taken)

theorem headerBytes_length (m w h : Word) (c cs : Byte) : (headerBytes m w h c cs).length = 14 := rfl

/-- The 14 bytes of a header, whole in HDRBUF, are that header. -/
theorem bufferedHeader_of_toList {v : Vector Byte 14} {m w h : Word} {c cs : Byte}
    (hv : v.toList = headerBytes m w h c cs) : bufferedHeader v = .header m w h c cs := by
  have decoded := decodeHeader_toList v
  rw [hv, ← List.append_nil (headerBytes _ _ _ _ _), decodeHeader_headerBytes] at decoded
  cases decoded
  rfl

/-- `s` with the bytes `l` of the header taken and HDRBUF holding them. -/
def headerTaken (l : List Byte) (v : Vector Byte 14) (s : State) : State :=
  { bytesTaken l s with hdrBuf := v, sub := .dHdr 13 }

/-- The 14th byte of the header runs it. -/
theorem Running.streams_headerRuns (h : Running s) (ht : s.inTok = none) (hs : s.sub = .dHdr 0) {l : List Byte}
    (hl : l.length = 14) :
    ∃ v, v.toList = l ∧ ∀ t, exec (bufferedHeader v) (headerTaken l v s) = .next t → Streams s (l.map .byte) t := by
  obtain ⟨v, holds, before⟩ := h.streams_headerTokens ht hs hl 13 (by decide)
  obtain ⟨b, get⟩ : ∃ b, l[13]? = some b := ⟨l[13], List.getElem?_eq_getElem _⟩
  have all : l = l.take 13 ++ [b] := by rw [← take_succ_of_getElem? get, List.take_of_length_le hl.le]
  refine ⟨v.set 13 b, ?_, fun t hx => ?_⟩
  · have whole := holds.set (by decide) get
    rwa [HoldsTake, List.take_of_length_le (by simp), List.take_of_length_le hl.le] at whole
  · have running : Running (withSub (.dHdr 13) { bytesTaken (l.take 13) s with hdrBuf := v }) := { h with }
    have taken := (coreStep_dHdr (s := { withSub (.dHdr 13) { bytesTaken (l.take 13) s with hdrBuf := v } with
      inTok := some (.byte b) }) h.state rfl rfl).trans (stepDHdr_byte_last rfl)
    rw [headerTaken, all, ← byteTaken_bytesTaken] at hx
    rw [all, List.map_append]
    exact before.append (running.streams_token rfl (taken.trans hx))

/-- The bytes of a legal header are accepted. -/
theorem Running.streams_headerIn (h : Running s) (ht : s.inTok = none) (hs : s.sub = .dHdr 0) (wd hg : Word)
    {c cs : Byte} (hc : c = 3 ∨ c = 4) (hcs : cs = 0 ∨ cs = 1) :
    ∃ v, Streams s ((headerBytes s.magic wd hg c cs).map .byte)
      (nextChunk (bodyBegun wd hg c cs (headerTaken (headerBytes s.magic wd hg c cs) v s))) := by
  obtain ⟨v, whole, runs⟩ := h.streams_headerRuns ht hs (headerBytes_length s.magic wd hg c cs)
  refine ⟨v, runs _ ?_⟩
  rw [bufferedHeader_of_toList whole]
  exact exec_header_accepted (s := headerTaken _ v s) hc hcs

/-! ### The chunks -/

/-- A chunk leaves PREV and the cache, or updates them with its pixel (42_chunk_decode.md R141, R147). -/
theorem decodeChunkRef_history {i : Instr} {h h' : History} {out : List Pixel}
    (href : decodeChunkRef i h = some (out, h')) :
    h' = h ∨ ∃ px, h' = (px, cacheWrite h.2 px) := by
  cases i with
  | rgb | rgba | diff | luma => cases href; exact .inr ⟨_, rfl⟩
  | index k =>
    by_cases hk : k < 64
    · rw [decodeChunkRef, dif_pos hk] at href
      cases href
      exact .inr ⟨_, rfl⟩
    · rw [decodeChunkRef, dif_neg hk] at href
      cases href
  | run n => cases href; exact .inl rfl
  | header | endMarker | startDecode | startEncode | abort => cases href

theorem Running.after_history (hr : Running s) {i : Instr} {h : History} {out : List Pixel}
    (href : decodeChunkRef i (s.prev, s.cache) = some (out, h)) : Running { s with prev := h.1, cache := h.2 } := by
  rcases decodeChunkRef_history href with rfl | ⟨px, rfl⟩
  · exact hr
  · exact hr.after_update px

/-- `s` after a chunk that puts out the pixels `out` and leaves the history `h`; its fetch leaves `tag`, `pay` and
`sub`. -/
def chunkDecoded (i : Instr) (out : List Pixel) (h : History) (tag : Byte) (pay : Vector Byte 4) (sub : Sub)
    (s : State) : State :=
  pixelsCounted out.length (bytesDelivered (out.flatMap (pixelBytes s.channels))
    { fetched (streamBytes i) tag pay sub s with prev := h.1, cache := h.2 })

/-- The bytes of a chunk are taken, and those of its pixels delivered. -/
theorem Running.streams_chunk (hr : Running s) (ht : s.inTok = none) (hch : s.channels = 3 ∨ s.channels = 4) {i : Instr}
    {out : List Pixel} {h : History} (wf : i.wellFormed = true)
    (href : decodeChunkRef i (s.prev, s.cache) = some (out, h))
    (fits : s.pixCount.toNat + out.length ≤ s.target.toNat) :
    ∃ tag pay sub,
      Streams (nextChunk s) ((streamBytes i).map .byte) (nextChunk (chunkDecoded i out h tag pay sub s)) := by
  obtain ⟨_, n, h1, rfl, -⟩ := exec_eq_decodeChunkRef wf href fits
  rw [List.length_replicate] at fits
  have next : nextChunk s = withSub .dTag s := if_neg fun e => by rw [e] at fits; omega
  obtain ⟨tag, pay, sub, px, run⟩ := Running.runsChunk (s := withSub .dTag s) { hr with } rfl ht hch wf href
    (by rwa [List.length_replicate])
  rw [nextChunk_withEvents] at run
  have ran := streams_of_runSchedule run
  change Streams _ _ (withEvents [] (nextChunk (withSub (.dOut px _ 0) (chunkDecoded i _ h tag pay sub s)))) at ran
  rw [nextChunk_withSub] at ran
  rw [next]
  exact ⟨tag, pay, sub, ran.of_withEvents⟩

theorem Running.after_chunk (hr : Running s) {i : Instr} {out : List Pixel} {h : History}
    (href : decodeChunkRef i (s.prev, s.cache) = some (out, h)) (tag : Byte) (pay : Vector Byte 4) (sub : Sub) :
    Running (chunkDecoded i out h tag pay sub s) :=
  have delivered := (hr.after_history href).after_delivery (out.flatMap (pixelBytes s.channels))
  { delivered with }

section
variable (i : Instr) (out : List Pixel) (h : History) (tag : Byte) (pay : Vector Byte 4) (sub : Sub) (s : State)

@[simp] theorem chunkDecoded_inTok :
    (chunkDecoded i out h tag pay sub s).inTok = none := by
  simp only [chunkDecoded, pixelsCounted, bytesDelivered, fetched, bytesTaken]

@[simp] theorem chunkDecoded_channels :
    (chunkDecoded i out h tag pay sub s).channels = s.channels := by
  simp only [chunkDecoded, pixelsCounted, bytesDelivered, fetched, bytesTaken]

@[simp] theorem chunkDecoded_history :
    ((chunkDecoded i out h tag pay sub s).prev, (chunkDecoded i out h tag pay sub s).cache) = h := by
  simp only [chunkDecoded, pixelsCounted, bytesDelivered, fetched, bytesTaken]

@[simp] theorem chunkDecoded_target :
    (chunkDecoded i out h tag pay sub s).target = s.target := by
  simp only [chunkDecoded, pixelsCounted, bytesDelivered, fetched, bytesTaken]

@[simp] theorem chunkDecoded_pixCount :
    (chunkDecoded i out h tag pay sub s).pixCount = s.pixCount + BitVec.ofNat 64 out.length := by
  simp only [chunkDecoded, pixelsCounted, bytesDelivered, fetched, bytesTaken]

@[simp] theorem chunkDecoded_decMarker :
    (chunkDecoded i out h tag pay sub s).decMarker = s.decMarker := by
  simp only [chunkDecoded, pixelsCounted, bytesDelivered, fetched, bytesTaken]

@[simp] theorem chunkDecoded_outStream :
    (chunkDecoded i out h tag pay sub s).outStream = s.outStream ++ out.flatMap (pixelBytes s.channels) := by
  simp only [chunkDecoded, pixelsCounted, bytesDelivered, fetched, bytesTaken]

@[simp] theorem imageRegs_chunkDecoded :
    imageRegs (chunkDecoded i out h tag pay sub s) = imageRegs s := by
  simp only [imageRegs, chunkDecoded, pixelsCounted, bytesDelivered, fetched, bytesTaken]

end

theorem decodeChunksRef_cons {i : Instr} {is : List Instr} {h h'' : History} {out : List Pixel}
    (href : decodeChunksRef (i :: is) h = some (out, h'')) :
    ∃ a b h', decodeChunkRef i h = some (a, h') ∧ decodeChunksRef is h' = some (b, h'') ∧ out = a ++ b := by
  simp only [decodeChunksRef] at href
  rcases hc : decodeChunkRef i h with _ | ⟨a, h'⟩ <;> simp only [hc, reduceCtorEq] at href
  rcases hd : decodeChunksRef is h' with _ | ⟨b, _⟩ <;> simp only [hd, reduceCtorEq] at href
  cases href
  exact ⟨a, b, h', rfl, hd, rfl⟩

/-- From `s` on a decode pass takes the chunks `is` and delivers the pixels `out`; it comes to `t`. -/
structure ChunksDecoded (s : State) (is : List Instr) (out : List Pixel) (t : State) : Prop where
  streams : Streams (nextChunk s) ((chunkBytes is).map .byte) (nextChunk t)
  running : Running t
  noToken : t.inTok = none
  whole : t.pixCount = t.target
  image : imageRegs t = imageRegs s
  marker : t.decMarker = s.decMarker
  bytes : t.outStream = s.outStream ++ out.flatMap (pixelBytes s.channels)

theorem Running.streams_chunks {is : List Instr} {out : List Pixel} {h : History} (hr : Running s) (ht : s.inTok = none)
    (hch : s.channels = 3 ∨ s.channels = 4) (wf : ∀ i ∈ is, i.wellFormed = true)
    (href : decodeChunksRef is (s.prev, s.cache) = some (out, h))
    (hcount : s.pixCount.toNat + out.length = s.target.toNat) : ∃ t, ChunksDecoded s is out t := by
  induction is generalizing s out with
  | nil =>
    cases href
    exact ⟨s, streams_refl _, hr, ht, BitVec.eq_of_toNat_eq hcount, rfl, rfl, (List.append_nil _).symm⟩
  | cons i is ih =>
    obtain ⟨wfi, wf⟩ := List.forall_mem_cons.mp wf
    obtain ⟨a, b, h', hrefi, hrest, rfl⟩ := decodeChunksRef_cons href
    rw [List.length_append] at hcount
    obtain ⟨tag, pay, sub, first⟩ := hr.streams_chunk ht hch wfi hrefi (by omega)
    have running := hr.after_chunk hrefi tag pay sub
    have counted : (s.pixCount + BitVec.ofNat 64 a.length).toNat = s.pixCount.toNat + a.length := by
      have small := s.target.isLt
      rw [BitVec.toNat_add, BitVec.toNat_ofNat]
      omega
    obtain ⟨t, rest⟩ := ih running (by simp) (by simpa using hch) wf (by simpa using hrest)
      (by simp only [chunkDecoded_pixCount, chunkDecoded_target, counted]; omega)
    exact ⟨t, {
      streams := by
        rw [chunkBytes, List.flatMap_cons, List.map_append]
        exact first.append rest.streams
      running := rest.running
      noToken := rest.noToken
      whole := rest.whole
      image := by simpa using rest.image
      marker := by simpa using rest.marker
      bytes := by simpa using rest.bytes }⟩

end

end Sys2Proof.Safety
end

section
/-! Whole passes: the encoder's trailer, the decoder's reading of it, and an undisturbed pass from its START to DONE
(43_decode_engine.md R171 to R180, 44_encode_engine.md R200 to R228). -/

namespace Sys2Proof.Safety

open Sys2Proof.Machine

/-- The bytes of the trailer that an encode pass delivers (44_encode_engine.md R227). -/
def trailerOf (encMarker : Bool) : List Byte := if encMarker then markerBytes else []

section
variable {s : State}

/-! ### The trailer of an encode pass -/

/-- After the last pixel the trailer is delivered. -/
theorem streams_trailerOut (hb : s.state = .busy) (ha : s.outAns = none) (whole : s.pixCount = s.target) :
    Streams (nextPixel s) [] (finish { bytesDelivered (trailerOf s.encMarker) s with phase := .trailer }) := by
  have next : nextPixel s = finishEnc s := if_pos whole
  cases hm : s.encMarker with
  | false =>
    rw [next, show finishEnc s = finish { s with phase := .trailer } from if_neg (by simp [hm]),
      show trailerOf false = [] from rfl, bytesDelivered_nil ha]
    exact streams_refl _
  | true =>
    rw [next, show finishEnc s = { s with phase := .trailer, sub := .eMark 0 } from if_pos hm]
    exact streams_marker (s := { s with phase := .trailer, sub := .eMark 0 }) hb ha rfl

/-! ### The trailer of a decode pass -/

/-- After the last pixel of `s` a decode pass takes `toks` and ends in `t`. -/
structure TrailerRead (s : State) (toks : List Token) (t : State) : Prop where
  streams : Streams (nextChunk s) toks t
  state : t.state = .done
  image : imageRegs t = imageRegs s
  bytes : t.outStream = s.outStream

theorem TrailerRead.of_nextChunk {toks : List Token} {t u : State} (next : nextChunk s = u) (read : Streams u toks t)
    (state : t.state = .done) (image : imageRegs t = imageRegs s) (bytes : t.outStream = s.outStream) :
    TrailerRead s toks t :=
  ⟨next ▸ read, state, image, bytes⟩

theorem Running.streams_markerTokens (h : Running s) (ht : s.inTok = none) (hs : s.sub = .dMark 0) (j : Nat)
    (hj : j < 8) : Streams s ((markerBytes.take j).map .byte)
      (withSub (.dMark ⟨j, hj⟩) (bytesTaken (markerBytes.take j) s)) := by
  induction j with
  | zero =>
    have here : withSub (.dMark 0) (bytesTaken [] s) = s := by rw [bytesTaken_nil ht, withSub, ← hs]
    exact here.symm ▸ streams_refl s
  | succ j ih =>
    have get := markerBytes_getElem? ⟨j, by omega⟩
    have running : Running (withSub (.dMark ⟨j, by omega⟩) (bytesTaken (markerBytes.take j) s)) := { h with }
    have taken := (coreStep_dMark (s := { withSub (.dMark ⟨j, by omega⟩) (bytesTaken (markerBytes.take j) s) with
      inTok := some (.byte (Config.markerByte ⟨j, by omega⟩)) }) h.state rfl rfl).trans (stepDMark_byte_of_lt rfl hj)
    rw [take_succ_of_getElem? get, List.map_append, ← byteTaken_bytesTaken]
    exact (ih (by omega)).append (running.streams_token rfl taken)

theorem Running.streams_markerIn (h : Running s) (ht : s.inTok = none) (hs : s.sub = .dMark 0) :
    Streams s (markerBytes.map .byte) (finish { bytesTaken markerBytes s with markerSeen := true }) := by
  have all : markerBytes = markerBytes.take 7 ++ [Config.markerByte 7] := rfl
  have running : Running (withSub (.dMark 7) (bytesTaken (markerBytes.take 7) s)) := { h with }
  have taken := (coreStep_dMark (s := { withSub (.dMark 7) (bytesTaken (markerBytes.take 7) s) with
    inTok := some (.byte (Config.markerByte 7)) }) h.state rfl rfl).trans (stepDMark_byte_last rfl (by decide))
  rw [all, List.map_append, ← byteTaken_bytesTaken]
  exact (h.streams_markerTokens ht hs 7 (by decide)).append (running.streams_token rfl taken)

theorem nextChunk_of_noMarker (whole : s.pixCount = s.target) (hm : s.decMarker = .none) :
    nextChunk s = finish { s with phase := .trailer } := by
  rw [show nextChunk s = finishBody s from if_pos whole, finishBody, hm]

theorem nextChunk_of_marker (whole : s.pixCount = s.target) (hm : s.decMarker ≠ .none) :
    nextChunk s = { s with phase := .trailer, sub := .dMark 0 } := by
  rw [show nextChunk s = finishBody s from if_pos whole]
  cases h : s.decMarker with
  | none => exact absurd h hm
  | required | optional => rw [finishBody, h]

/-- Without a marker to look for the pass is over. -/
theorem trailerRead_of_noMarker (whole : s.pixCount = s.target) (hm : s.decMarker = .none) :
    ∃ t, TrailerRead s [] t :=
  ⟨_, .of_nextChunk (nextChunk_of_noMarker whole hm) (streams_refl _) rfl rfl rfl⟩

theorem Running.trailerRead_of_marker (h : Running s) (ht : s.inTok = none) (whole : s.pixCount = s.target)
    (hm : s.decMarker ≠ .none) : ∃ t, TrailerRead s (markerBytes.map .byte) t := by
  have read := Running.streams_markerIn (s := { s with phase := .trailer, sub := .dMark 0 }) { h with } ht rfl
  exact ⟨_, .of_nextChunk (nextChunk_of_marker whole hm) read rfl rfl rfl⟩

theorem Running.trailerRead_of_optional (h : Running s) (ht : s.inTok = none) (whole : s.pixCount = s.target)
    (hm : s.decMarker = .optional) : ∃ t, TrailerRead s [.eoi] t := by
  have running : Running { s with phase := .trailer, sub := .dMark 0 } := { h with }
  have taken := (coreStep_dMark (s := { s with phase := .trailer, sub := .dMark 0, inTok := some .eoi }) h.state rfl
    rfl).trans (stepDMark_eoi_finishes ⟨rfl, hm⟩)
  exact ⟨_, .of_nextChunk (nextChunk_of_marker whole (by simp [hm])) (running.streams_token ht taken) rfl rfl rfl⟩

/-- Every marker mode reads the trailer with the marker; NONE and OPTIONAL read it without (44_encode_engine.md
R230). -/
theorem Running.trailerRead (h : Running s) (ht : s.inTok = none) (whole : s.pixCount = s.target) {em : Bool}
    (hm : em = false → s.decMarker ≠ .required) :
    ∃ toks t, toks <+: (trailerOf em).map .byte ++ [.eoi] ∧ TrailerRead s toks t := by
  cases hd : s.decMarker with
  | none => exact ⟨[], (trailerRead_of_noMarker whole hd).imp fun _ read => ⟨List.nil_prefix, read⟩⟩
  | required =>
    cases em with
    | false => exact absurd hd (hm rfl)
    | true =>
      exact ⟨_, (h.trailerRead_of_marker ht whole (by simp [hd])).imp fun _ read => ⟨List.prefix_append _ _, read⟩⟩
  | optional =>
    cases em with
    | false => exact ⟨_, (h.trailerRead_of_optional ht whole hd).imp fun _ read => ⟨List.prefix_rfl, read⟩⟩
    | true =>
      exact ⟨_, (h.trailerRead_of_marker ht whole (by simp [hd])).imp fun _ read => ⟨List.prefix_append _ _, read⟩⟩

/-! ### A whole encode pass -/

/-- An encode pass that has just begun. -/
structure EncodeBegun (s : State) : Prop where
  running : Running s
  noToken : s.inTok = none
  sub : s.sub = .eHdr 0
  channels : s.channels = 3 ∨ s.channels = 4
  run : s.run = 0
  pixCount : s.pixCount = 0
  history : (s.prev, s.cache) = History.initial
  bytes : s.outStream = []

/-- From `s` an encode pass takes the pixels `ps`, delivers the image with the chunks `is`, and ends in `t`. -/
structure ImageEncoded (s : State) (ps : List Pixel) (is : List Instr) (t : State) : Prop where
  streams : Streams s ((ps.flatMap (pixelBytes s.channels)).map .byte) t
  state : t.state = .done
  noToken : t.inTok = none
  noAnswer : t.outAns = none
  magic : t.magic = s.magic
  bytes : t.outStream = headerOf s ++ chunkBytes is ++ trailerOf s.encMarker
  encodable : ∀ i ∈ is, i.wellFormed = true
  decodes : ∃ h, decodeChunksRef is History.initial = some (ps, h)

theorem EncodeBegun.encodes (h : EncodeBegun s) {ps : List Pixel} (hcount : ps.length = s.target.toNat)
    (ha : s.channels = 3 → ∀ p ∈ ps, p.a = 255) : ∃ is t, ImageEncoded s ps is t := by
  have header := streams_header h.running.state h.running.noAnswer h.sub
  have ended : PixelEnd { bytesDelivered (headerOf s) s with phase := .body } :=
    { running := { h.running.after_delivery (headerOf s) with }
      noToken := h.noToken
      channels := h.channels
      short := by show s.run.toNat ≤ 61; simp [h.run]
      flushed := fun _ => h.run }
  obtain ⟨is, t, body⟩ := ended.streams_pixels (ps := ps)
    (by show s.pixCount.toNat + ps.length = s.target.toNat; simp [h.pixCount, hcount]) ha
  have trailer := streams_trailerOut body.ended.running.state body.ended.running.noAnswer body.whole
  obtain ⟨h', decoded⟩ := body.decodes
  change decodeChunksRef is (s.prev, s.cache) = some (List.replicate s.run.toNat s.prev ++ ps, h') at decoded
  rw [h.run, h.history] at decoded
  refine ⟨is, finish { bytesDelivered (trailerOf t.encMarker) t with phase := .trailer }, {
    streams := ?_
    state := rfl
    noToken := body.ended.noToken
    noAnswer := rfl
    magic := congrArg ImageRegs.magic body.image
    bytes := ?_
    encodable := fun i hi => (body.encodable i hi).1
    decodes := ⟨h', decoded⟩ }⟩
  · have all := header.append (body.streams.append trailer)
    rwa [List.nil_append, List.append_nil] at all
  · show t.outStream ++ trailerOf t.encMarker = _
    rw [body.bytes, body.marker]
    show (s.outStream ++ headerOf s ++ chunkBytes is) ++ trailerOf s.encMarker = _
    rw [h.bytes, List.nil_append]

/-! ### A whole decode pass -/

/-- A decode pass that has just begun. -/
structure DecodeBegun (s : State) : Prop where
  running : Running s
  noToken : s.inTok = none
  sub : s.sub = .dHdr 0
  pixCount : s.pixCount = 0
  history : (s.prev, s.cache) = History.initial
  bytes : s.outStream = []

/-- From `s` a decode pass takes `toks`, delivers the pixels `ps` of an image of `w` by `h` with `c` channels and
colorspace `cs`, and ends in `t`. -/
structure ImageDecoded (s : State) (w h : Word) (c cs : Byte) (ps : List Pixel) (toks : List Token) (t : State) :
    Prop where
  streams : Streams s toks t
  state : t.state = .done
  image : imageRegs t = ⟨s.magic, w, h, c, cs, pixelTarget w h⟩
  bytes : t.outStream = ps.flatMap (pixelBytes c)

theorem Running.after_headerTaken (h : Running s) (l : List Byte) (v : Vector Byte 14) : Running (headerTaken l v s) :=
  { h with }

theorem Running.after_bodyBegun (hr : Running s) (w h : Word) (c cs : Byte) : Running (bodyBegun w h c cs s) :=
  { hr with }

theorem DecodeBegun.decodes (hs : DecodeBegun s) {w h : Word} {c cs : Byte} (hc : c = 3 ∨ c = 4)
    (hcs : cs = 0 ∨ cs = 1) {is : List Instr} (wf : ∀ i ∈ is, i.wellFormed = true) {ps : List Pixel} {h' : History}
    (decoded : decodeChunksRef is History.initial = some (ps, h')) (hcount : ps.length = w.toNat * h.toNat) {em : Bool}
    (hm : em = false → s.decMarker ≠ .required) :
    ∃ toks t, toks <+: (headerBytes s.magic w h c cs ++ chunkBytes is ++ trailerOf em).map .byte ++ [.eoi]
      ∧ ImageDecoded s w h c cs ps toks t := by
  obtain ⟨v, header⟩ := hs.running.streams_headerIn hs.noToken hs.sub w h hc hcs
  have running := (hs.running.after_headerTaken (headerBytes s.magic w h c cs) v).after_bodyBegun w h c cs
  obtain ⟨t, body⟩ := running.streams_chunks rfl hc wf (out := ps) (h := h')
    (by simpa only [bodyBegun, acceptHeader, headerTaken, bytesTaken, hs.history] using decoded)
    (by simp [bodyBegun, acceptHeader, headerTaken, bytesTaken, hs.pixCount, pixelTarget_toNat, hcount])
  obtain ⟨toks, u, shown, trailer⟩ := body.running.trailerRead body.noToken body.whole (em := em)
    (by simpa only [body.marker, bodyBegun, acceptHeader, headerTaken, bytesTaken] using hm)
  refine ⟨(headerBytes s.magic w h c cs ++ chunkBytes is).map .byte ++ toks, u, ?_, ?_, trailer.state, ?_, ?_⟩
  · rw [List.map_append (l₂ := trailerOf em), List.append_assoc]
    exact (List.prefix_append_right_inj _).mpr shown
  · rw [List.map_append, List.append_assoc]
    exact header.append (body.streams.append trailer.streams)
  · rw [trailer.image, body.image]
    simp only [imageRegs, bodyBegun, acceptHeader, headerTaken, bytesTaken]
  · simp only [trailer.bytes, body.bytes, bodyBegun, acceptHeader, headerTaken, bytesTaken, hs.bytes, List.nil_append]

end

end Sys2Proof.Safety
end

section
/-! An image encoded and decoded again is the same image (44_encode_engine.md R230). -/

namespace Sys2Proof.Safety

open Sys2Proof.Machine

/-! ### The two STARTs -/

section
variable {s : State} {em : Bool} {dm : BitVec 2} {iq : Bool}

/-- The state in which a decode pass begins from `s` (43_decode_engine.md R171). -/
def decodeStarted (em : Bool) (dm : BitVec 2) (iq : Bool) (s : State) : State :=
  startDecode { s with mode := .decode, encMarker := em, decMarker := writeDecMarker s.decMarker dm, irqEn := iq }

/-- The state in which an encode pass begins from `s`, CHANNELS being legal (44_encode_engine.md R200). -/
def encodeStarted (em : Bool) (dm : BitVec 2) (iq : Bool) (s : State) : State :=
  { decodeStarted em dm iq s with
    mode := .encode, passMode := .encode, run := 0, target := pixelTarget s.width s.height, sub := .eHdr 0 }

/-- A CTRL word that is a command runs it. -/
theorem perform_ctrlCommand {v : Word} {i : Instr} (h : decodeCtrl v = .ok i) (s : State) :
    perform (.csrWrite 0 v) s = exec i s := by
  show writeCtrl v s = _
  rw [writeCtrl, h]

theorem runSchedule_startDecode (hb : s.state ≠ .busy) (es : List Event) :
    runSchedule s (.csrWrite 0 (ctrlFields true false false em dm iq) :: es)
      = runSchedule (decodeStarted em dm iq s) es :=
  runSchedule_cons ((perform_ctrlCommand (decodeCtrl_startDecode em dm iq) (withEvents es s)).trans
    (exec_startDecode_of_not_busy (s := withEvents es s) hb em dm iq))

theorem runSchedule_startEncode (hb : s.state ≠ .busy) (hch : s.channels = 3 ∨ s.channels = 4) (es : List Event) :
    runSchedule s (.csrWrite 0 (ctrlFields true false true em dm iq) :: es)
      = runSchedule (encodeStarted em dm iq s) es := by
  have command := perform_ctrlCommand (decodeCtrl_startEncode em dm iq) (withEvents es s)
  have started := exec_startEncode_of_not_busy (s := withEvents es s) hb em dm iq
  exact runSchedule_cons (command.trans (started.trans (congrArg _ (startEncode_legal hch))))

theorem decodeStarted_begun (ht : s.inTok = none) (ha : s.outAns = none) : DecodeBegun (decodeStarted em dm iq s) where
  running := { state := rfl, mode := rfl, errKind := rfl, errCause := rfl, marker := rfl, inPass := rfl, noAnswer := ha
               outCount := rfl, cache := fun k => .inl (clearCache_get k) }
  noToken := by simp [decodeStarted, ht]
  sub := rfl
  pixCount := rfl
  history := rfl
  bytes := rfl

theorem encodeStarted_begun (hch : s.channels = 3 ∨ s.channels = 4) (ht : s.inTok = none) (ha : s.outAns = none) :
    EncodeBegun (encodeStarted em dm iq s) :=
  have begun := decodeStarted_begun (em := em) (dm := dm) (iq := iq) ht ha
  { running := { begun.running with mode := rfl }
    noToken := begun.noToken
    sub := rfl
    channels := hch
    run := rfl
    pixCount := rfl
    history := rfl
    bytes := rfl }

/-- A stream of tokens as a schedule, at whose end no event is left. -/
theorem Streams.run {t : State} {toks : List Token} (h : Streams s toks t) :
    ∃ es, (∀ e ∈ es, streamMove e = true) ∧ presented es = toks ∧ runSchedule s es = .next (withEvents [] t) := by
  obtain ⟨es, moves, shown, leads⟩ := h
  refine ⟨es, moves, shown, ?_⟩
  rw [← List.append_nil es, leads]
  rfl

end

/-! ### Pixel bytes -/

/-- As many bytes as a pixel has are the bytes of a pixel; with 3 channels, of an opaque one. -/
theorem exists_pixel {ch : Byte} (hch : ch = 3 ∨ ch = 4) {l : List Byte} (hl : l.length = ch.toNat) :
    ∃ p, pixelBytes ch p = l ∧ (ch = 3 → p.a = 255) := by
  rcases hch with rfl | rfl
  · obtain ⟨r, g, b, rfl⟩ := List.length_eq_three.mp hl
    exact ⟨⟨r, g, b, 255⟩, rfl, fun _ => rfl⟩
  · obtain ⟨r, l, rfl⟩ := List.exists_cons_of_length_eq_add_one hl
    obtain ⟨g, b, a, rfl⟩ := List.length_eq_three.mp (Nat.succ.inj hl)
    exact ⟨⟨r, g, b, a⟩, rfl, nofun⟩

theorem exists_pixels {ch : Byte} (hch : ch = 3 ∨ ch = 4) (n : Nat) {l : List Byte} (hl : l.length = n * ch.toNat) :
    ∃ ps : List Pixel, ps.length = n ∧ ps.flatMap (pixelBytes ch) = l ∧ (ch = 3 → ∀ p ∈ ps, p.a = 255) := by
  induction n generalizing l with
  | zero =>
    rw [Nat.zero_mul] at hl
    exact ⟨[], rfl, (List.eq_nil_of_length_eq_zero hl).symm, nofun⟩
  | succ n ih =>
    rw [Nat.succ_mul] at hl
    obtain ⟨p, first, hp⟩ := exists_pixel hch (l := l.take ch.toNat) (by rw [List.length_take]; omega)
    obtain ⟨ps, count, rest, hps⟩ := ih (l := l.drop ch.toNat) (by rw [List.length_drop]; omega)
    refine ⟨p :: ps, by rw [List.length_cons, count], ?_, fun h => List.forall_mem_cons.mpr ⟨hp h, hps h⟩⟩
    rw [List.flatMap_cons, first, rest, List.take_append_drop]

/-! ### The statement -/

/-- A write of DEC_MARKER to be used without a marker does not make it REQUIRED (10_state.md R39). -/
theorem writeDecMarker_ne_required {dm : BitVec 2} (h : dm = 0 ∨ dm = 2) (old : DecMarker) :
    writeDecMarker old dm ≠ .required := by
  rcases h with rfl | rfl <;> nofun

/-- Settles O39: the chunks of the pixels decode to the pixels, and each pass of the core streams them. -/
theorem imageRoundTrip : Obligations.ImageRoundTrip := by
  intro s w h ch cs em dm px hb ht ha hch hcs hlen _ hem
  obtain ⟨ps, count, rfl, opaque3⟩ := exists_pixels hch _ hlen
  have begun := encodeStarted_begun (s := { s with width := w, height := h, channels := ch, colorspace := cs })
    (em := em) (dm := 0) (iq := false) hch ht ha
  obtain ⟨is, t, encoded⟩ := begun.encodes (count.trans (pixelTarget_toNat w h).symm) opaque3
  obtain ⟨es, moves, shown, ran⟩ := encoded.streams.run
  obtain ⟨h', decoded⟩ := encoded.decodes
  have begun' := decodeStarted_begun (s := withEvents [] t) (em := em) (dm := dm) (iq := false) encoded.noToken
    encoded.noAnswer
  obtain ⟨toks, t', prefixed, read⟩ := begun'.decodes hch hcs encoded.encodable decoded count (em := em)
    fun e => writeDecMarker_ne_required (hem e) _
  obtain ⟨es', moves', shown', ran'⟩ := read.streams.run
  have free : (withEvents [] t).state ≠ .busy := fun e => nomatch encoded.state.symm.trans e
  refine ⟨es, withEvents [] t, es', withEvents [] t', moves, moves', ?_, shown, encoded.state, ?_, ?_, read.state,
    read.bytes, congrArg ImageRegs.width read.image, congrArg ImageRegs.height read.image,
    congrArg ImageRegs.channels read.image, congrArg ImageRegs.colorspace read.image⟩
  · exact (runSchedule_startEncode (s := { s with width := w, height := h, channels := ch, colorspace := cs }) hb hch
      es).trans ran
  · exact (runSchedule_startDecode free es').trans ran'
  · have delivered : (withEvents [] t).outStream = headerBytes t.magic w h ch cs ++ chunkBytes is ++ trailerOf em := by
      rw [encoded.magic]; exact encoded.bytes
    rw [shown', delivered]
    exact prefixed

end Sys2Proof.Safety
end

section
/-! The host's commands while BUSY and ABORT, and what a CSR write and a CSR read do at each offset
(45_host_commands.md R240 to R246). -/

namespace Sys2Proof.Safety

open Sys2Proof.Machine

section
variable {s : State} {v : Word}

/-! ### The commands -/

/-- While BUSY a CTRL write stores IRQ_EN only (45_host_commands.md R242). -/
theorem storeCtrl_of_busy (hb : s.state = .busy) (m : PassMode) (em : Bool) (dm : BitVec 2) (iq : Bool) :
    storeCtrl m em dm iq s = { s with irqEn := iq } :=
  if_pos hb

theorem exec_startDecode_of_busy (hb : s.state = .busy) (em : Bool) (dm : BitVec 2) (iq : Bool) :
    exec (.startDecode em dm iq) s = .next { s with irqEn := iq } := by
  rw [← storeCtrl_of_busy hb]
  exact if_pos hb

theorem exec_startEncode_of_busy (hb : s.state = .busy) (em : Bool) (dm : BitVec 2) (iq : Bool) :
    exec (.startEncode em dm iq) s = .next { s with irqEn := iq } := by
  rw [← storeCtrl_of_busy hb]
  exact if_pos hb

/-! ### CTRL by the bits of the word (45_host_commands.md R241) -/

/-- ABORT wins whatever the other bits are. -/
theorem decodeCtrl_of_abort (abort : v.getLsbD 1 = true) : decodeCtrl v = .ok .abort := if_pos abort

theorem decodeCtrl_of_startDecode (noAbort : v.getLsbD 1 = false) (start : v.getLsbD 0 = true)
    (mode : v.getLsbD 2 = false) :
    decodeCtrl v = .ok (.startDecode (v.getLsbD 3) (v.extractLsb' 4 2) (v.getLsbD 6)) := by
  rw [decodeCtrl, noAbort, start, mode]; rfl

theorem decodeCtrl_of_startEncode (noAbort : v.getLsbD 1 = false) (start : v.getLsbD 0 = true)
    (mode : v.getLsbD 2 = true) :
    decodeCtrl v = .ok (.startEncode (v.getLsbD 3) (v.extractLsb' 4 2) (v.getLsbD 6)) := by
  rw [decodeCtrl, noAbort, start, mode]; rfl

theorem csrWrite_ctrl_of_command {i : Instr} (h : decodeCtrl v = .ok i) (s : State) : csrWrite 0 v s = exec i s :=
  perform_ctrlCommand h s

/-- A CTRL word without a command stores its fields. -/
theorem csrWrite_ctrl_of_noCommand (noAbort : v.getLsbD 1 = false) (noStart : v.getLsbD 0 = false) (s : State) :
    csrWrite 0 v s
      = .next (storeCtrl (if v.getLsbD 2 then .encode else .decode) (v.getLsbD 3) (v.extractLsb' 4 2)
          (v.getLsbD 6) s) := by
  have plain : decodeCtrl v = .error .notCommand := by rw [decodeCtrl, noAbort, noStart]; rfl
  show writeCtrl v s = _
  rw [writeCtrl, plain]

/-- A legal value written to DEC_MARKER is the one it holds (10_state.md R39). -/
theorem writeDecMarker_code : ∀ (old : DecMarker) (dm : BitVec 2), dm ≠ 3 →
    BitVec.ofNat 2 (writeDecMarker old dm).code = dm := by
  intro old; cases old <;> decide

/-! ### The other offsets -/

theorem whenNotBusy_of_not_busy (hb : s.state ≠ .busy) (f : State → State) : whenNotBusy f s = f s := if_neg hb

theorem whenNotBusy_of_busy (hb : s.state = .busy) (f : State → State) : whenNotBusy f s = s := if_pos hb

/-- Only CTRL and the configuration registers can be written (45_host_commands.md R241). -/
theorem csrWrite_ignored {w : Fin 64} (ctrl : w ≠ 0) (width : w ≠ 2) (height : w ≠ 3) (format : w ≠ 4) (v : Word)
    (s : State) : csrWrite w v s = .next s := by
  unfold csrWrite
  split
  · next h => exact absurd (Fin.ext h) ctrl
  · next h => exact absurd (Fin.ext h) width
  · next h => exact absurd (Fin.ext h) height
  · next h => exact absurd (Fin.ext h) format
  · rfl

/-- A reserved offset reads 0 (10_state.md R51). -/
theorem csrValue_reserved {w : Fin 64} (reserved : 11 < w.val) (s : State) : csrValue w s = 0 := by
  obtain ⟨k, hk⟩ := Nat.exists_eq_add_of_le' reserved
  rw [csrValue, hk]
  rfl

/-- A CSR read that is listed next returns its value, which no event to come changes (20_memory.md R68). -/
theorem step_of_csrRead {w : Fin 64} {rest : List Event} (hev : s.events = .csrRead w :: rest) :
    step s = .next { s with events := rest, csrData := some (csrValue w s) } := by
  simp only [step, hev]
  rfl

end

/-! ### The statements -/

/-- Settles O43: the meaning of ABORT is this update of the state. -/
theorem abortEffect : Obligations.AbortEffect := fun _ => rfl

/-- Settles O44: while BUSY either START is the store of its fields, of which IRQ_EN alone is taken. -/
theorem startWhileBusyIgnored : Obligations.StartWhileBusyIgnored := fun _ em dm iq hb =>
  ⟨exec_startDecode_of_busy hb em dm iq, exec_startEncode_of_busy hb em dm iq⟩

/-- Settles O45: CTRL by its command bits, the configuration registers by BUSY, and no other offset takes a write. -/
theorem csrWriteEffect : Obligations.CsrWriteEffect := by
  refine fun s v =>
    ⟨fun abort => csrWrite_ctrl_of_command (decodeCtrl_of_abort abort) s,
      fun noAbort start mode => csrWrite_ctrl_of_command (decodeCtrl_of_startDecode noAbort start mode) s,
      fun noAbort start mode => csrWrite_ctrl_of_command (decodeCtrl_of_startEncode noAbort start mode) s,
      fun noAbort noStart hb => ?busyCtrl, fun noAbort noStart hb => ?ctrl, fun hb => ?config, fun hb => ?busyConfig,
      fun w ctrl width height format => csrWrite_ignored ctrl width height format v s⟩
  case busyCtrl => rw [csrWrite_ctrl_of_noCommand noAbort noStart, storeCtrl_of_busy hb]
  case ctrl =>
    rw [csrWrite_ctrl_of_noCommand noAbort noStart, storeCtrl_of_not_busy hb]
    refine ⟨_, rfl, rfl, fun keeps => ?_, writeDecMarker_code s.decMarker _⟩
    rw [keeps]
    exact writeDecMarker_three s.decMarker
  case config =>
    have stored (f : State → State) : (.next (whenNotBusy f s) : Result) = .next (f s) :=
      congrArg _ (whenNotBusy_of_not_busy hb f)
    exact ⟨stored _, stored _, stored _⟩
  case busyConfig =>
    have kept (f : State → State) : (.next (whenNotBusy f s) : Result) = .next s :=
      congrArg _ (whenNotBusy_of_busy hb f)
    exact ⟨kept _, kept _, kept _⟩

/-- Settles O46: the read returns the offset's register, the counters by halves, and 0 above MAGIC. -/
theorem csrReadMap : Obligations.CsrReadMap := by
  intro s w rest hev
  refine ⟨csrValue w s, step_of_csrRead hev, ?_, ?_, ?_, ?_, ?_, ?_, ?_, ?_, ?_, ?_, ?_, ?_,
    fun reserved => csrValue_reserved reserved s⟩ <;> rintro rfl
  · rfl
  · rfl
  · rfl
  · rfl
  · exact formatWord_toNat s
  · exact loWord_toNat s.pixCount
  · exact hiWord_toNat s.pixCount
  · exact loWord_toNat s.inCount
  · exact hiWord_toNat s.inCount
  · exact loWord_toNat s.outCount
  · exact hiWord_toNat s.outCount
  · rfl

end Sys2Proof.Safety
end

section
/-! The errors: the operands that no byte encodes, and how a core step raises an error and what it has done before
(60_exceptions.md R262 to R278). -/

namespace Sys2Proof.Safety

open Sys2Proof.Machine

/-! ### Operands that no byte encodes (60_exceptions.md R264, R265) -/

section
variable {s : State}

theorem exec_index_unencodable {k : Nat} (hk : 64 ≤ k) : exec (.index k) s = .fault .indexBounds :=
  dif_neg hk.not_gt

theorem exec_run_unencodable {n : Nat} (hn : n = 0 ∨ 63 ≤ n) : exec (.run n) s = .fault .reservedRun :=
  if_pos (by simp only [Config.maxRun]; omega)

/-- A chunk within its operands' ranges never stops the model. -/
theorem exec_chunk_next {i : Instr} (wf : i.wellFormed = true) (pos : i.position = .body) :
    ∃ t, exec i s = .next t := by
  cases i with
  | rgb | rgba | diff | luma => exact ⟨_, rfl⟩
  | index k => exact ⟨_, exec_index (of_decide_eq_true wf)⟩
  | run n =>
    obtain ⟨h1, h62⟩ := (Instr.wellFormed_run_iff n).mp wf
    rw [exec_run h1 h62]
    split <;> exact ⟨_, rfl⟩
  | header | endMarker | startDecode | startEncode | abort => cases pos

end

/-! ### The ways on raise no error (43_decode_engine.md R179, 44_encode_engine.md R202, R217, R218) -/

section
variable {s : State}

theorem error_of_nextChunk (h : (nextChunk s).state = .error) : s.state = .error := by
  rcases nextChunk_cases s with ⟨-, e⟩ | ⟨-, -, e⟩ | ⟨-, -, e⟩ <;> rw [e] at h
  · exact h
  · cases h
  · exact h

theorem error_of_nextPixel (h : (nextPixel s).state = .error) : s.state = .error := by
  rcases nextPixel_cases s with ⟨-, e⟩ | ⟨-, -, e⟩ | ⟨-, -, e⟩ <;> rw [e] at h
  · exact h
  · exact h
  · cases h

theorem error_of_emit {q : List Byte} (h : (emit q s).state = .error) : s.state = .error := by
  cases q with
  | nil => exact error_of_nextPixel h
  | cons b q => exact h

theorem error_of_takePixel {p : Pixel} (h : (takePixel p s).state = .error) : s.state = .error := by
  obtain ⟨q, _, _, _, e⟩ := takePixel_emits p s
  rw [e] at h
  exact (error_of_emit h :)

end

/-! ### How a core step raises an error (60_exceptions.md R274) -/

/-- `s` with the byte `b` taken, and kept in the buffer where the step that takes an element's deciding byte stores it:
the 14th header byte in HDRBUF, a tag in TAG (43_decode_engine.md R172, R173). -/
def byteChecked (b : Byte) (s : State) : State :=
  { byteTaken s with
    hdrBuf := if s.sub = .dHdr 13 then s.hdrBuf.set 13 b else s.hdrBuf
    tag := if s.sub = .dTag then b else s.tag }

/-- `Raises s c u`: the core's step in `s` has come to `u`, and raises `c` there. -/
inductive Raises (s : State) : ErrCause → State → Prop
  /-- EOI in the place of a byte. -/
  | shortRead (ho : offer s = none) (ht : s.inTok = some .eoi) : Raises s .shortRead (tokenTaken s)
  /-- FAIL. -/
  | writeFail (ho : offer s ≠ none) (ha : s.outAns = some .fail) : Raises s .writeFail { s with outAns := none }
  /-- The byte is refused: as a header's last, as the tag of a run too long, or as a byte of the marker. -/
  | badByte {b : Byte} {c : ErrCause} (ho : offer s = none) (ht : s.inTok = some (.byte b))
    (hc : c ∈ possibleErrors s.sub) : Raises s c (byteChecked b s)

section
variable {s t u : State} {c : ErrCause}

theorem byteChecked_dHdr (hs : s.sub = .dHdr 13) (b : Byte) :
    byteChecked b s = { byteTaken s with hdrBuf := s.hdrBuf.set 13 b } := by simp [byteChecked, byteTaken, hs]

theorem byteChecked_dTag (hs : s.sub = .dTag) (b : Byte) : byteChecked b s = { byteTaken s with tag := b } := by
  simp [byteChecked, byteTaken, hs]

theorem byteChecked_dMark {i : Fin 8} (hs : s.sub = .dMark i) (b : Byte) : byteChecked b s = byteTaken s := by
  simp [byteChecked, byteTaken, hs]

/-- A core step that ends in ERROR ends by `raise`, in one of these ways. -/
theorem CoreEffect.raises (he : CoreEffect s t) (hb : s.state = .busy) (herr : t.state = .error) :
    ∃ c u, Raises s c u ∧ t = raise c u := by
  have running : s.state ≠ .error := by simp [hb]
  cases he with
  | shortRead ho ht => exact ⟨_, _, .shortRead ho ht, rfl⟩
  | writeFail ho ha => exact ⟨_, _, .writeFail ho ha, rfl⟩
  | headerRejected hs ht hc =>
    rw [← byteChecked_dHdr hs]
    exact ⟨_, _, .badByte (by simp [offer, hs]) ht (hs ▸ List.mem_cons_of_mem _ hc), rfl⟩
  | overrun hs ht =>
    rw [← byteChecked_dTag hs]
    exact ⟨_, _, .badByte (by simp [offer, hs]) ht (by simp [possibleErrors, hs]), rfl⟩
  | markerBad hs ht =>
    rw [← byteChecked_dMark hs]
    exact ⟨_, _, .badByte (by simp [offer, hs]) ht (by simp [possibleErrors, hs]), rfl⟩
  | headerAccepted | chunkDone => exact absurd (error_of_nextChunk herr) running
  | headerOutDone => exact absurd (error_of_nextPixel herr) running
  | inputDone => exact absurd (error_of_takePixel herr) running
  | chunkByte => exact absurd (error_of_emit herr) running
  | markerOmitted | markerSeen | markerOutDone => cases herr
  | _ => exact absurd herr running

theorem raises_of_coreStep (hb : s.state = .busy) (h : coreStep s = .next t) (herr : t.state = .error) :
    ∃ c u, Raises s c u ∧ t = raise c u :=
  (coreEffect_of_coreStep h).raises hb herr

/-- Without a sub-state a core step raises nothing: it holds. -/
theorem sub_ne_none_of_error (hb : s.state = .busy) (h : coreStep s = .next t) (herr : t.state = .error) :
    s.sub ≠ .none := by
  intro hs
  have holds : coreStep s = .next s := by simp [coreStep, hb, hs]
  cases holds.symm.trans h
  exact absurd (hb.symm.trans herr) nofun

theorem Raises.possible (hr : Raises s c u) (hb : s.state = .busy) (hs : s.sub ≠ .none) :
    c ∈ possibleErrors s.sub := by
  cases hr with
  | shortRead ho =>
    cases hsub : s.sub with
    | none => exact absurd hsub hs
    | dHdr i => simp only [possibleErrors]; split <;> exact List.mem_cons_self
    | dTag | dPay | dMark | eIn => exact List.mem_cons_self
    | dOut | eHdr | eOut | eMark => simp [offer, hb, hsub] at ho
  | writeFail ho =>
    cases hsub : s.sub with
    | dOut | eHdr | eOut | eMark => exact List.mem_cons_self
    | none | dHdr | dTag | dPay | dMark | eIn => simp [offer, hsub] at ho
  | badByte _ _ hc => exact hc

/-! ### What the step has done before it raises the error (60_exceptions.md R262, R267) -/

theorem Raises.frame (hr : Raises s c u) : ∃ tok ans n hdr tag,
    u = { s with inTok := tok, outAns := ans, inCount := n, hdrBuf := hdr, tag := tag } := by
  cases hr <;> exact ⟨_, _, _, _, _, rfl⟩

/-- In an input sub-state the token is consumed. -/
theorem Raises.input (hr : Raises s c u) (ho : offer s = none) : u.inTok = none ∧ u.outAns = s.outAns := by
  cases hr with
  | shortRead | badByte => exact ⟨rfl, rfl⟩
  | writeFail offered => exact absurd ho offered

/-- A byte taken is counted. -/
theorem Raises.counted (hr : Raises s c u) (ho : offer s = none) {b : Byte} (ht : s.inTok = some (.byte b)) :
    u.inCount = s.inCount + 1 := by
  cases hr with
  | shortRead _ heoi => exact absurd (ht.symm.trans heoi) nofun
  | writeFail offered => exact absurd ho offered
  | badByte => rfl

/-- In an output sub-state the answer is consumed, and IN is as it was. -/
theorem Raises.output (hr : Raises s c u) (ho : offer s ≠ none) :
    u.inTok = s.inTok ∧ u.outAns = none ∧ u.inCount = s.inCount := by
  cases hr with
  | shortRead unoffered | badByte unoffered => exact absurd unoffered ho
  | writeFail => exact ⟨rfl, rfl, rfl⟩

/-- EOI goes into no buffer and is not counted. -/
theorem Raises.eoi (hr : Raises s c u) (ht : s.inTok = some .eoi) :
    u.inCount = s.inCount ∧ u.hdrBuf = s.hdrBuf ∧ u.tag = s.tag := by
  cases hr with
  | shortRead | writeFail => exact ⟨rfl, rfl, rfl⟩
  | badByte _ hbyte => exact absurd (ht.symm.trans hbyte) nofun

theorem Raises.inCount (hr : Raises s c u) : u.inCount = s.inCount ∨ u.inCount = s.inCount + 1 := by
  cases hr with
  | shortRead | writeFail => exact .inl rfl
  | badByte => exact .inr rfl

theorem Raises.buffers_kept (hr : Raises s c u) :
    (s.sub ≠ .dHdr 13 → u.hdrBuf = s.hdrBuf) ∧ (s.sub ≠ .dTag → u.tag = s.tag) := by
  cases hr with
  | shortRead | writeFail => exact ⟨fun _ => rfl, fun _ => rfl⟩
  | badByte => exact ⟨fun hs => if_neg hs, fun hs => if_neg hs⟩

theorem Raises.buffers_written (hr : Raises s c u) {b : Byte} (ht : s.inTok = some (.byte b)) :
    (s.sub = .dHdr 13 → u.hdrBuf = s.hdrBuf.set 13 b) ∧ (s.sub = .dTag → u.tag = b) := by
  cases hr with
  | shortRead _ heoi => exact absurd (ht.symm.trans heoi) nofun
  | writeFail ho => exact ⟨fun hs => absurd (by simp [offer, hs]) ho, fun hs => absurd (by simp [offer, hs]) ho⟩
  | badByte _ hbyte =>
    cases ht.symm.trans hbyte
    exact ⟨fun hs => if_pos hs, fun hs => if_pos hs⟩

end

/-! ### The statements -/

/-- Settles O16: both checks fail on these operands, and a decoded chunk is within its operands' ranges. -/
theorem unencodableOperandsStop : Obligations.UnencodableOperandsStop := by
  refine ⟨fun s k => exec_index_unencodable, fun s n => exec_run_unencodable, fun l rest i s h => ?_⟩
  obtain ⟨wf, pos, -⟩ := decodeChunk_readsBack h
  exact exec_chunk_next wf pos

/-- Settles O53: each way to raise an error is in its sub-state's row; a START of a decode pass becomes BUSY, and one of
an encode pass becomes BUSY or is refused for CHANNELS. -/
theorem errorsPerSubState : Obligations.ErrorsPerSubState := by
  refine ⟨fun s t hb h herr => ?core, fun s t em dm iq hb => ⟨fun h => ?decode, fun h herr => ?encode⟩⟩
  case core =>
    have running := sub_ne_none_of_error hb h herr
    obtain ⟨c, u, hr, rfl⟩ := raises_of_coreStep hb h herr
    exact hr.possible hb running
  case decode =>
    cases (exec_startDecode_of_not_busy hb em dm iq).symm.trans h
    nofun
  case encode =>
    have started := exec_startEncode_of_not_busy hb em dm iq
    by_cases hch : s.channels = 3 ∨ s.channels = 4
    · cases (started.trans (congrArg _ (startEncode_legal hch))).symm.trans h
      cases herr
    · cases (started.trans (congrArg _ (startEncode_refused hch))).symm.trans h
      exact ⟨rfl, rfl⟩

/-- Settles O54: what `raise` leaves unchanged, and what the step has done before it raises. -/
theorem errorsArePrecise : Obligations.ErrorsArePrecise := by
  intro s t hb h herr
  obtain ⟨c, u, hr, rfl⟩ := raises_of_coreStep hb h herr
  obtain ⟨tok, ans, n, hdr, tag, rfl⟩ := hr.frame
  obtain ⟨hdrKept, tagKept⟩ := hr.buffers_kept
  exact ⟨rfl, rfl, rfl, rfl, rfl, rfl, rfl, rfl, rfl, rfl, rfl, rfl, rfl, rfl, hr.inCount, rfl, hr.input,
    fun ho => hr.output (Option.isSome_iff_ne_none.mp ho), fun _ ho ht => hr.counted ho ht, hr.eoi, hdrKept, tagKept,
    fun _ => hr.buffers_written⟩

end Sys2Proof.Safety
end

section
/-! Hardware reset (70_reset_and_hazards.md R290). -/

namespace Sys2Proof.Machine

/-- Reset writes CTRL's reset value 0x28 (10_state.md R52). -/
theorem ctrlWord_hardReset (s : State) : ctrlWord (hardReset s) = 0x00000028 := rfl

theorem statusWord_hardReset (s : State) : statusWord (hardReset s) = 0 := rfl

theorem offer_hardReset (s : State) : offer (hardReset s) = none := rfl

theorem step_reset {s : State} {rest : List Event} (h : s.events = .reset :: rest) :
    step s = .next (hardReset { s with events := rest }) := by
  rw [step, h]; rfl

/-- Settles O57: the step is `hardReset`, whose registers are those of `State.reset`. -/
theorem hardwareReset : Obligations.HardwareReset := by
  intro s rest h
  exact ⟨_, step_reset h, ctrlWord_hardReset _, statusWord_hardReset _, rfl, rfl, rfl, rfl, rfl, rfl, rfl, rfl, rfl,
    offer_hardReset _, rfl, rfl, rfl, rfl⟩

end Sys2Proof.Machine
end

section
/-! Two states that differ only where the rest of the pass does not read (10_state.md R52, 70_reset_and_hazards.md
R291): the relation, and the operations that keep it whatever the unspecified registers hold. -/

namespace Sys2Proof.Safety

open Sys2Proof.Machine

/-- `s` with every register that is unspecified after reset at its value of `State.reset`: what is left of `s` is what
the spec specifies there. -/
def specified (s : State) : State :=
  { s with prev := State.reset.prev, cache := State.reset.cache, target := State.reset.target, run := State.reset.run,
           hdrBuf := State.reset.hdrBuf, tag := State.reset.tag, pay := State.reset.pay, pin := State.reset.pin }

/-- The two agree on everything that is specified after reset. -/
def SameSpecified (s t : State) : Prop := specified s = specified t

/-- Both take the first way on, or both the second. -/
theorem rel_ite {α : Type} {r : α → α → Prop} {c d : Prop} [Decidable c] [Decidable d] {a a' b b' : α} (hcd : c ↔ d)
    (ht : r a a') (he : r b b') : r (if c then a else b) (if d then a' else b') := by
  by_cases h : c
  · rwa [if_pos h, if_pos (hcd.mp h)]
  · rwa [if_neg h, if_neg (mt hcd.mpr h)]

section
variable {s t : State}

/-- A function that reads only what is specified after reset has one value. -/
theorem SameSpecified.read {α : Type} (h : SameSpecified s t) (f : State → α)
    (hf : ∀ u, f (specified u) = f u := by intro u; rfl) : f s = f t :=
  calc f s = f (specified s) := (hf s).symm
    _ = f (specified t) := congrArg f h
    _ = f t := hf t

/-- An operation that reads only what is specified after reset keeps the agreement. -/
theorem SameSpecified.update (h : SameSpecified s t) (f : State → State)
    (hf : ∀ u, specified (f (specified u)) = specified (f u) := by intro u; rfl) : SameSpecified (f s) (f t) :=
  h.read (fun u => specified (f u)) hf

theorem indistinct_iff : Indistinct s t ↔ SameSpecified s t ∧ LiveAgree s t := by
  refine and_congr_left fun _ => ⟨fun h => (congrArg specified h :), fun h => ?_⟩
  have copied := congrArg (fun u : State =>
    { u with prev := t.prev, cache := t.cache, target := t.target, run := t.run,
             hdrBuf := t.hdrBuf, tag := t.tag, pay := t.pay, pin := t.pin }) h
  exact copied

theorem Indistinct.specified (h : Indistinct s t) : SameSpecified s t := (indistinct_iff.mp h).1

theorem Indistinct.live (h : Indistinct s t) : LiveAgree s t := (indistinct_iff.mp h).2

/-- An update that leaves SUB and the unspecified registers alone. -/
theorem Indistinct.update (h : Indistinct s t) (f : State → State)
    (hf : ∀ u, Safety.specified (f (Safety.specified u)) = Safety.specified (f u) := by intro u; rfl)
    (hl : LiveAgree s t → LiveAgree (f s) (f t) := by exact id) : Indistinct (f s) (f t) :=
  indistinct_iff.mpr ⟨h.specified.update f hf, hl h.live⟩

/-- With SUB = NONE nothing more is to agree (10_state.md R52). -/
theorem indistinct_of_none (h : SameSpecified s t) (hs : s.sub = .none) : Indistinct s t :=
  indistinct_iff.mpr ⟨h, by simp [LiveAgree, hs]⟩

/-- The core goes on to a sub-state that reads only what the two agree on. -/
theorem SameSpecified.indistinct_withSub (h : SameSpecified s t) {x : Sub}
    (hl : LiveAgree (withSub x s) (withSub x t)) : Indistinct (withSub x s) (withSub x t) :=
  indistinct_iff.mpr ⟨h.update (withSub x), hl⟩

/-! ### The ends of a pass -/

theorem indistinct_raise (c : ErrCause) (h : SameSpecified s t) : Indistinct (raise c s) (raise c t) :=
  indistinct_of_none (h.update (raise c)) rfl

theorem indistinct_finish (h : SameSpecified s t) : Indistinct (finish s) (finish t) :=
  indistinct_of_none (h.update finish) rfl

theorem specified_finishBody (s : State) : specified (finishBody s) = finishBody (specified s) := by
  cases h : s.decMarker <;> simp [finishBody, finish, specified, h]

theorem indistinct_finishBody (h : SameSpecified s t) : Indistinct (finishBody s) (finishBody t) := by
  have same : SameSpecified (finishBody s) (finishBody t) :=
    h.update finishBody fun u => by rw [specified_finishBody, specified_finishBody]; rfl
  rcases finishBody_cases s with ⟨-, e⟩ | ⟨-, e⟩
  · exact indistinct_of_none same (by rw [e])
  · exact indistinct_iff.mpr ⟨same, by rw [e]; trivial⟩

theorem indistinct_finishEnc (h : SameSpecified s t) : Indistinct (finishEnc s) (finishEnc t) := by
  have marker : s.encMarker = t.encMarker := h.read State.encMarker
  refine rel_ite (by rw [marker]) ?_ ?_
  · exact indistinct_iff.mpr ⟨h.update fun u => { u with phase := .trailer, sub := .eMark 0 }, trivial⟩
  · exact indistinct_finish (h.update fun u => { u with phase := .trailer })

end

end Sys2Proof.Safety
end

section
/-! Buffers that agree as far as they are filled (10_state.md R35). -/

namespace Sys2Proof.Safety

open Sys2Proof.Machine

/-- The first `i` bytes of the two buffers are the same. -/
def AgreeBelow {n : Nat} (i : Nat) (v w : Vector Byte n) : Prop := ∀ m : Fin n, m.val < i → v.get m = w.get m

section
variable {n i : Nat} {v w : Vector Byte n}

theorem AgreeBelow.set (h : AgreeBelow i v w) (hi : i < n) (b : Byte) :
    AgreeBelow (i + 1) (v.set i b) (w.set i b) := by
  intro m hm
  rw [Vector.get_eq_getElem, Vector.get_eq_getElem, Vector.getElem_set, Vector.getElem_set]
  split
  · rfl
  · exact h m (by omega)

theorem AgreeBelow.mono {j : Nat} (h : AgreeBelow i v w) (hji : j ≤ i) : AgreeBelow j v w :=
  fun m hm => h m (hm.trans_le hji)

theorem AgreeBelow.eq (h : AgreeBelow n v w) : v = w := Vector.ext fun m hm => h ⟨m, hm⟩ hm

end

/-- A chunk reads no more of PAY than its payload (30_encoding.md R92). -/
theorem bufferedChunk_congr {k : PayKind} {p q : Vector Byte 4} (h : AgreeBelow k.len p q) (tag : Byte) :
    bufferedChunk k tag p = bufferedChunk k tag q := by
  cases k with
  | rgb =>
    simp only [bufferedChunk, PayKind.kind, chunkOf, h 0 (by decide), h 1 (by decide), h 2 (by decide)]
  | rgba => rw [h.eq]
  | luma => simp only [bufferedChunk, PayKind.kind, chunkOf, h 0 (by decide)]

/-- A pixel of 3 channels does not read PIN[3] (44_encode_engine.md R202). -/
theorem inputPixel_congr {ch : Byte} (hch : ch = 3 ∨ ch = 4) {p q : Vector Byte 4} (h : AgreeBelow ch.toNat p q) :
    inputPixel ch p = inputPixel ch q := by
  rcases hch with rfl | rfl
  · simp [inputPixel, h 0 (by decide), h 1 (by decide), h 2 (by decide)]
  · rw [AgreeBelow.eq h]

end Sys2Proof.Safety
end

section
/-! The decode engine reads no register that is unspecified after reset before it has written it
(70_reset_and_hazards.md R291): two passes that agree on what is still read take the same step. -/

namespace Sys2Proof.Safety

open Sys2Proof.Machine

/-- The two agree on what the body of a decode pass reads from one chunk to the next. -/
structure SameBody (s t : State) : Prop where
  specified : SameSpecified s t
  prev : s.prev = t.prev
  cache : s.cache = t.cache
  target : s.target = t.target

section
variable {s t : State}

/-! ### Between two chunks -/

theorem SameBody.indistinct_dTag (h : SameBody s t) : Indistinct (withSub .dTag s) (withSub .dTag t) :=
  h.specified.indistinct_withSub ⟨h.prev, h.cache, h.target⟩

theorem SameBody.indistinct_dOut (h : SameBody s t) (px : Pixel) (n : Nat) (j : Fin 4) :
    Indistinct (withSub (.dOut px n j) s) (withSub (.dOut px n j) t) :=
  h.specified.indistinct_withSub ⟨h.prev, h.cache, h.target⟩

theorem SameBody.indistinct_complete (h : SameBody s t) (px : Pixel) : Indistinct (complete px s) (complete px t) :=
  SameBody.indistinct_dOut (s := update px s) (t := update px t)
    { h with prev := rfl, cache := congrArg (cacheWrite · px) h.cache } px 1 0

theorem SameBody.indistinct_nextChunk (h : SameBody s t) : Indistinct (nextChunk s) (nextChunk t) := by
  have count : s.pixCount = t.pixCount := h.specified.read State.pixCount
  exact rel_ite (by rw [count, h.target]) (indistinct_finishBody h.specified) h.indistinct_dTag

/-! ### The elements -/

/-- A chunk reads PREV, the cache and the pixels missing (42_chunk_decode.md R142 to R147). -/
theorem SameBody.sameOutcome_chunk (h : SameBody s t) {i : Instr} (hi : i.position = .body) :
    SameOutcome (exec i s) (exec i t) := by
  cases i with
  | rgb r g b => rw [exec_rgb, exec_rgb, h.prev]; exact h.indistinct_complete _
  | rgba r g b a => exact h.indistinct_complete _
  | diff dr dg db => rw [exec_diff, exec_diff, h.prev]; exact h.indistinct_complete _
  | luma dg drg dbg => rw [exec_luma, exec_luma, h.prev]; exact h.indistinct_complete _
  | index k =>
    by_cases hk : k < 64
    · rw [exec_index hk, exec_index hk, h.cache]; exact h.indistinct_complete _
    · rw [exec_index_unencodable (not_lt.mp hk), exec_index_unencodable (not_lt.mp hk)]; rfl
  | run n =>
    have count : s.pixCount = t.pixCount := h.specified.read State.pixCount
    refine rel_ite (r := SameOutcome) Iff.rfl rfl (rel_ite (r := SameOutcome) (by rw [count, h.target]) ?_ ?_)
    · exact indistinct_raise .runOverrun h.specified
    · show Indistinct (withSub (.dOut s.prev n 0) s) (withSub (.dOut t.prev n 0) t)
      rw [h.prev]
      exact h.indistinct_dOut _ _ _
  | header | endMarker | startDecode | startEncode | abort => cases hi

/-- An accepted header writes TARGET (40_header.md R104). -/
theorem sameOutcome_execHeader (h : SameSpecified s t) (hprev : s.prev = t.prev) (hcache : s.cache = t.cache)
    (m wd ht : Word) (c cs : Byte) : SameOutcome (execHeader m wd ht c cs s) (execHeader m wd ht c cs t) := by
  have magic : s.magic = t.magic := h.read State.magic
  have accepted : SameBody (bodyBegun wd ht c cs s) (bodyBegun wd ht c cs t) :=
    { specified := h.update (bodyBegun wd ht c cs), prev := hprev, cache := hcache, target := rfl }
  refine rel_ite (r := SameOutcome) (by rw [magic]) (indistinct_raise _ h) ?_
  refine rel_ite (r := SameOutcome) Iff.rfl (indistinct_raise _ h) ?_
  exact rel_ite (r := SameOutcome) Iff.rfl (indistinct_raise _ h) accepted.indistinct_nextChunk

/-! ### The input sub-states -/

/-- D_HDR(i) reads the header bytes before `i` (43_decode_engine.md R172). -/
theorem sameOutcome_stepDHdr (h : SameSpecified s t) (hprev : s.prev = t.prev) (hcache : s.cache = t.cache)
    {i : Fin 14} (hbuf : AgreeBelow i s.hdrBuf t.hdrBuf) (k : Token) :
    SameOutcome (stepDHdr i k (tokenTaken s)) (stepDHdr i k (tokenTaken t)) := by
  cases k with
  | eoi => exact indistinct_raise .shortRead (h.update tokenTaken)
  | byte b =>
    have filled := hbuf.set i.isLt b
    have taken : SameSpecified { byteTaken s with hdrBuf := s.hdrBuf.set i.val b }
        { byteTaken t with hdrBuf := t.hdrBuf.set i.val b } := h.update byteTaken
    by_cases hi : i.val + 1 < 14
    · rw [stepDHdr_byte_of_lt hi, stepDHdr_byte_of_lt hi]
      exact taken.indistinct_withSub ⟨hprev, hcache, filled⟩
    · have last : i.val = 13 := by omega
      have whole := (filled.mono (j := 14) (by omega)).eq
      rw [stepDHdr_byte_last last, stepDHdr_byte_last last, whole]
      rw [whole] at taken
      exact sameOutcome_execHeader taken hprev hcache _ _ _ _ _

/-- D_TAG writes TAG before a chunk reads it (43_decode_engine.md R173). -/
theorem SameBody.sameOutcome_stepDTag (h : SameBody s t) (k : Token) :
    SameOutcome (stepDTag k (tokenTaken s)) (stepDTag k (tokenTaken t)) := by
  cases k with
  | eoi => exact indistinct_raise .shortRead (h.specified.update tokenTaken)
  | byte b =>
    have taken : SameBody { byteTaken s with tag := b } { byteTaken t with tag := b } :=
      { h with specified := h.specified.update byteTaken }
    have waits {k : PayKind} (hk : kind b = k.kind) :
        SameOutcome (stepDTag (.byte b) (tokenTaken s)) (stepDTag (.byte b) (tokenTaken t)) := by
      rw [stepDTag_byte_of_payload hk, stepDTag_byte_of_payload hk]
      exact taken.specified.indistinct_withSub ⟨h.prev, h.cache, h.target, rfl, nofun⟩
    have runs (hk : (kind b).payloadLen = 0) :
        SameOutcome (stepDTag (.byte b) (tokenTaken s)) (stepDTag (.byte b) (tokenTaken t)) := by
      rw [stepDTag_byte_of_noPayload hk, stepDTag_byte_of_noPayload hk]
      exact taken.sameOutcome_chunk (chunkOf_position _ _ _ _ _ _)
    cases hk : kind b with
    | rgb => exact waits (k := .rgb) hk
    | rgba => exact waits (k := .rgba) hk
    | luma => exact waits (k := .luma) hk
    | index | diff | run => exact runs (by rw [hk]; rfl)

/-- D_PAY(k, i) reads TAG and the payload bytes before `i` (43_decode_engine.md R174). -/
theorem SameBody.sameOutcome_stepDPay (h : SameBody s t) (htag : s.tag = t.tag) {i : Fin 4}
    (hbuf : AgreeBelow i s.pay t.pay) (k : PayKind) (tok : Token) :
    SameOutcome (stepDPay k i tok (tokenTaken s)) (stepDPay k i tok (tokenTaken t)) := by
  cases tok with
  | eoi => exact indistinct_raise .shortRead (h.specified.update tokenTaken)
  | byte b =>
    have filled := hbuf.set i.isLt b
    have taken : SameBody { byteTaken s with pay := s.pay.set i.val b } { byteTaken t with pay := t.pay.set i.val b } :=
      { h with specified := h.specified.update byteTaken }
    by_cases hi : i.val + 1 < k.len
    · have h4 : i.val + 1 < 4 := hi.trans_le k.len_le
      rw [stepDPay_byte_of_lt (j := ⟨i.val + 1, h4⟩) rfl hi, stepDPay_byte_of_lt (j := ⟨i.val + 1, h4⟩) rfl hi]
      exact taken.specified.indistinct_withSub ⟨h.prev, h.cache, h.target, htag, filled⟩
    · have chunk := bufferedChunk_congr (filled.mono (not_lt.mp hi)) t.tag
      rw [stepDPay_byte_last hi, stepDPay_byte_last hi, htag, chunk]
      exact taken.sameOutcome_chunk (chunkOf_position _ _ _ _ _ _)

/-- D_MARK reads none of them (43_decode_engine.md R176). -/
theorem sameOutcome_stepDMark (h : SameSpecified s t) (i : Fin 8) (k : Token) :
    SameOutcome (stepDMark i k (tokenTaken s)) (stepDMark i k (tokenTaken t)) := by
  cases k with
  | eoi =>
    have marker : s.decMarker = t.decMarker := h.read State.decMarker
    have taken : SameSpecified (tokenTaken s) (tokenTaken t) := h.update tokenTaken
    exact rel_ite (r := SameOutcome) (by simp only [tokenTaken, marker]) (indistinct_finish taken)
      (indistinct_raise _ taken)
  | byte b =>
    have taken : SameSpecified (byteTaken s) (byteTaken t) := h.update byteTaken
    by_cases hb : b = Config.markerByte i
    · by_cases hi : i.val + 1 < 8
      · rw [stepDMark_byte_of_lt hb hi, stepDMark_byte_of_lt hb hi]
        exact taken.indistinct_withSub trivial
      · rw [stepDMark_byte_last hb hi, stepDMark_byte_last hb hi]
        exact indistinct_finish (taken.update fun u => { u with markerSeen := true })
    · rw [stepDMark_byte_bad hb, stepDMark_byte_bad hb]
      exact indistinct_raise _ taken

/-! ### The output sub-state -/

/-- D_OUT reads TARGET only, its pixel being part of SUB (43_decode_engine.md R175). -/
theorem SameBody.indistinct_afterPixelByte (h : SameBody s t) (px : Pixel) (n : Nat) (j : Fin 4) :
    Indistinct (afterPixelByte px n j s) (afterPixelByte px n j t) := by
  have channels : s.channels = t.channels := h.specified.read State.channels
  have counted : SameBody (pixelsCounted 1 s) (pixelsCounted 1 t) :=
    { h with specified := h.specified.update (pixelsCounted 1) }
  by_cases inner : j.val + 1 < s.channels.toNat ∧ j.val + 1 < 4
  · obtain ⟨hlt, h4⟩ := inner
    rw [afterPixelByte_inner hlt h4, afterPixelByte_inner (channels ▸ hlt) h4]
    exact h.indistinct_dOut px n _
  · rw [show afterPixelByte px n j s = afterPixel px n s from dif_neg inner,
      show afterPixelByte px n j t = afterPixel px n t from dif_neg (channels ▸ inner)]
    exact rel_ite Iff.rfl (counted.indistinct_dOut px (n - 1) 0) counted.indistinct_nextChunk

end

end Sys2Proof.Safety
end

section
/-! The encode engine reads no register that is unspecified after reset before it has written it
(70_reset_and_hazards.md R291). -/

namespace Sys2Proof.Safety

open Sys2Proof.Machine

/-- The two agree on what an encode pass reads from one pixel to the next. -/
structure SameEncode (s t : State) : Prop extends SameBody s t where
  run : s.run = t.run

/-- `encode_pixel` has given the same chunks and left such states. -/
def SameEncoded (a b : List Instr × State) : Prop := a.1 = b.1 ∧ SameEncode a.2 b.2

section
variable {s t : State}

/-! ### Between two pixels -/

theorem SameEncode.indistinct_nextPixel (h : SameEncode s t) : Indistinct (nextPixel s) (nextPixel t) := by
  have count : s.pixCount = t.pixCount := h.specified.read State.pixCount
  have input : Indistinct (withSub (.eIn 0) s) (withSub (.eIn 0) t) :=
    h.specified.indistinct_withSub ⟨h.prev, h.cache, h.target, h.run, nofun⟩
  exact rel_ite (by rw [count, h.target]) (indistinct_finishEnc h.specified) input

theorem SameEncode.indistinct_emit (h : SameEncode s t) (q : List Byte) : Indistinct (emit q s) (emit q t) := by
  cases q with
  | nil => exact h.indistinct_nextPixel
  | cons b q => exact h.specified.indistinct_withSub ⟨h.prev, h.cache, h.target, h.run⟩

/-- `encode_pixel` reads PREV, the cache, RUN and TARGET (44_encode_engine.md R203). -/
theorem SameEncode.sameEncoded_encodePixel (h : SameEncode s t) (p : Pixel) :
    SameEncoded (encodePixel p s) (encodePixel p t) := by
  have count : s.pixCount = t.pixCount := h.specified.read State.pixCount
  have same : p = s.prev ↔ p = t.prev := by rw [h.prev]
  have flush : (s.run + 1 = 62 ∨ s.pixCount = s.target) ↔ (t.run + 1 = 62 ∨ t.pixCount = t.target) := by
    rw [h.run, count, h.target]
  refine rel_ite (r := SameEncoded) same (rel_ite (r := SameEncoded) flush ?_ ?_) ?_
  · exact ⟨by simp only [h.run], { h with run := rfl }⟩
  · exact ⟨rfl, { h with run := congrArg (· + 1) h.run }⟩
  · exact ⟨by simp only [h.run, h.prev, h.cache],
      { h with prev := rfl, cache := congrArg (cacheWrite · p) h.cache, run := rfl }⟩

theorem SameEncode.indistinct_takePixel (h : SameEncode s t) (p : Pixel) :
    Indistinct (takePixel p s) (takePixel p t) := by
  have counted : SameEncode (pixelsCounted 1 s) (pixelsCounted 1 t) :=
    { h with specified := h.specified.update (pixelsCounted 1) }
  obtain ⟨chunks, encoded⟩ := counted.sameEncoded_encodePixel p
  rw [takePixel_eq, takePixel_eq, chunks]
  exact encoded.indistinct_emit _

/-! ### The sub-states -/

/-- E_IN(i) reads the pixel's bytes before `i`, and the last step those of CH channels (44_encode_engine.md R202). -/
theorem SameEncode.sameOutcome_stepEIn (h : SameEncode s t) (hch : s.channels = 3 ∨ s.channels = 4) {i : Fin 4}
    (hbuf : AgreeBelow i s.pin t.pin) (k : Token) :
    SameOutcome (stepEIn i k (tokenTaken s)) (stepEIn i k (tokenTaken t)) := by
  cases k with
  | eoi => exact indistinct_raise .shortRead (h.specified.update tokenTaken)
  | byte b =>
    have filled := hbuf.set i.isLt b
    have channels : s.channels = t.channels := h.specified.read State.channels
    have taken : SameEncode { byteTaken s with pin := s.pin.set i.val b }
        { byteTaken t with pin := t.pin.set i.val b } :=
      { h with specified := h.specified.update byteTaken }
    by_cases hi : i.val + 1 < s.channels.toNat ∧ i.val + 1 < 4
    · obtain ⟨hlt, h4⟩ := hi
      rw [stepEIn_byte_inner (s := tokenTaken s) hlt h4, stepEIn_byte_inner (s := tokenTaken t) (channels ▸ hlt) h4]
      exact taken.specified.indistinct_withSub ⟨h.prev, h.cache, h.target, h.run, filled⟩
    · have whole : s.channels.toNat ≤ i.val + 1 := by
        have four : s.channels.toNat ≤ 4 := by rcases hch with hc | hc <;> simp [hc]
        omega
      have pixel := inputPixel_congr hch (filled.mono whole)
      rw [stepEIn_byte_last (s := tokenTaken s) hi, stepEIn_byte_last (s := tokenTaken t) (channels ▸ hi)]
      show Indistinct (takePixel (inputPixel s.channels (s.pin.set i.val b)) _)
        (takePixel (inputPixel t.channels (t.pin.set i.val b)) _)
      rw [pixel, channels]
      exact taken.indistinct_takePixel _

theorem SameEncode.indistinct_afterHeaderByte (h : SameEncode s t) (j : Fin 14) :
    Indistinct (afterHeaderByte j s) (afterHeaderByte j t) := by
  by_cases hj : j.val + 1 < 14
  · rw [afterHeaderByte_inner hj, afterHeaderByte_inner hj]
    exact h.specified.indistinct_withSub ⟨h.prev, h.cache, h.target, h.run⟩
  · have last : j.val = 13 := by omega
    rw [afterHeaderByte_last last, afterHeaderByte_last last]
    exact SameEncode.indistinct_nextPixel
      { h with specified := h.specified.update fun u => { u with phase := .body } }

theorem indistinct_afterMarkerByte (h : SameSpecified s t) (j : Fin 8) :
    Indistinct (afterMarkerByte j s) (afterMarkerByte j t) := by
  by_cases hj : j.val + 1 < 8
  · rw [afterMarkerByte_inner hj, afterMarkerByte_inner hj]
    exact h.indistinct_withSub trivial
  · have last : j.val = 7 := by omega
    rw [afterMarkerByte_last last, afterMarkerByte_last last]
    exact indistinct_finish h

end

end Sys2Proof.Safety
end

section
/-! No step reads a register that is unspecified after reset before it has written it (70_reset_and_hazards.md R291). -/

namespace Sys2Proof.Safety

open Sys2Proof.Machine

section
variable {s t : State}

/-! ### The core's own step -/

/-- The core takes a token (43_decode_engine.md R172 to R176, 44_encode_engine.md R202). -/
theorem Indistinct.sameOutcome_coreStep_token (h : Indistinct s t) (inv : Invariant s) (hb : s.state = .busy)
    (ho : offer s = none) {k : Token} (hk : s.inTok = some k) : SameOutcome (coreStep s) (coreStep t) := by
  have hb' : t.state = .busy := (h.specified.read State.state).symm.trans hb
  have hk' : t.inTok = some k := (h.specified.read State.inTok).symm.trans hk
  have sub : t.sub = s.sub := (h.specified.read State.sub).symm
  have live := h.live
  have hi := inv.sub
  unfold LiveAgree at live
  unfold SubInv at hi
  cases hs : s.sub <;> rw [hs] at sub <;> simp only [hs] at live hi
  case none => exact absurd hs (inv.busy.mp hb)
  case dHdr i =>
    obtain ⟨prev, cache, buf⟩ := live
    rw [coreStep_dHdr hb hs hk, coreStep_dHdr hb' sub hk']
    exact sameOutcome_stepDHdr h.specified prev cache buf k
  case dTag =>
    obtain ⟨prev, cache, target⟩ := live
    rw [coreStep_dTag hb hs hk, coreStep_dTag hb' sub hk']
    exact SameBody.sameOutcome_stepDTag ⟨h.specified, prev, cache, target⟩ k
  case dPay kd i =>
    obtain ⟨prev, cache, target, tag, buf⟩ := live
    rw [coreStep_dPay hb hs hk, coreStep_dPay hb' sub hk']
    exact SameBody.sameOutcome_stepDPay ⟨h.specified, prev, cache, target⟩ tag buf kd k
  case dMark i =>
    rw [coreStep_dMark hb hs hk, coreStep_dMark hb' sub hk']
    exact sameOutcome_stepDMark h.specified i k
  case eIn i =>
    obtain ⟨prev, cache, target, run, buf⟩ := live
    obtain ⟨pass, -⟩ := hi
    rw [coreStep_eIn hb hs hk, coreStep_eIn hb' sub hk']
    exact SameEncode.sameOutcome_stepEIn ⟨⟨h.specified, prev, cache, target⟩, run⟩ pass.channels buf k
  case dOut | eHdr | eOut | eMark => simp [offer, hb, hs] at ho

/-- The core takes an ACK (43_decode_engine.md R175, 44_encode_engine.md R201, R217, R228). -/
theorem Indistinct.sameOutcome_coreStep_ack (h : Indistinct s t) {b : Byte} (ho : offer s = some b)
    (ha : s.outAns = some .ack) : SameOutcome (coreStep s) (coreStep t) := by
  have hb := busy_of_offer ho
  have hb' : t.state = .busy := (h.specified.read State.state).symm.trans hb
  have ha' : t.outAns = some .ack := (h.specified.read State.outAns).symm.trans ha
  have sub : t.sub = s.sub := (h.specified.read State.sub).symm
  have counted : SameSpecified (byteCounted s) (byteCounted t) := h.specified.update byteCounted
  have live := h.live
  unfold LiveAgree at live
  cases hs : s.sub <;> rw [hs] at sub <;> simp only [hs] at live
  case dOut px n j =>
    obtain ⟨prev, cache, target⟩ := live
    rw [coreStep_dOut hb hs ha, coreStep_dOut hb' sub ha']
    exact SameBody.indistinct_afterPixelByte ⟨counted, prev, cache, target⟩ px n j
  case eHdr j =>
    obtain ⟨prev, cache, target, run⟩ := live
    rw [coreStep_eHdr hb hs ha, coreStep_eHdr hb' sub ha']
    exact SameEncode.indistinct_afterHeaderByte ⟨⟨counted, prev, cache, target⟩, run⟩ j
  case eOut c q =>
    obtain ⟨prev, cache, target, run⟩ := live
    rw [coreStep_eOut hb hs ha, coreStep_eOut hb' sub ha']
    exact SameEncode.indistinct_emit ⟨⟨counted, prev, cache, target⟩, run⟩ q
  case eMark j =>
    rw [coreStep_eMark hb hs ha, coreStep_eMark hb' sub ha']
    exact indistinct_afterMarkerByte counted j
  case none | dHdr | dTag | dPay | dMark | eIn => simp [offer, hb, hs] at ho

theorem Indistinct.sameOutcome_coreStep (h : Indistinct s t) (inv : Invariant s) :
    SameOutcome (coreStep s) (coreStep t) := by
  have state : t.state = s.state := (h.specified.read State.state).symm
  have offered : offer t = offer s := (h.specified.read offer).symm
  have token : t.inTok = s.inTok := (h.specified.read State.inTok).symm
  have answered : t.outAns = s.outAns := (h.specified.read State.outAns).symm
  by_cases hb : s.state = .busy
  · cases ho : offer s with
    | none =>
      cases hk : s.inTok with
      | none => rw [coreStep_no_token ho hk, coreStep_no_token (offered.trans ho) (token.trans hk)]; exact h
      | some k => exact h.sameOutcome_coreStep_token inv hb ho hk
    | some b =>
      cases ha : s.outAns with
      | none =>
        have ho' : offer s ≠ none := by simp [ho]
        rw [coreStep_no_answer ho' ha, coreStep_no_answer (offered.trans_ne ho') (answered.trans ha)]
        exact h
      | some a =>
        cases a with
        | ack => exact h.sameOutcome_coreStep_ack ho ha
        | fail =>
          rw [coreStep_fail ho ha, coreStep_fail (offered.trans ho) (answered.trans ha)]
          exact indistinct_raise _ (h.specified.update fun u => { u with outAns := none })
  · rw [coreStep_not_busy hb, coreStep_not_busy (state.trans_ne hb)]; exact h

/-! ### The host's actions -/

theorem Indistinct.sameOutcome_present (h : Indistinct s t) (k : Token) : SameOutcome (present k s) (present k t) := by
  have token : s.inTok = t.inTok := h.specified.read State.inTok
  unfold present
  rw [token]
  cases t.inTok with
  | none =>
    exact h.update fun u => { u with inTok := some k, inPass := presentedToPass u }
  | some _ => rfl

theorem Indistinct.sameOutcome_answer (h : Indistinct s t) (a : Answer) : SameOutcome (answer a s) (answer a t) := by
  have offered : offer s = offer t := h.specified.read offer
  have answered : s.outAns = t.outAns := h.specified.read State.outAns
  unfold answer
  rw [offered, answered]
  cases offer t with
  | none => rfl
  | some b =>
    cases t.outAns with
    | some _ => rfl
    | none =>
      cases a with
      | ack =>
        exact h.update fun u => { u with outAns := some .ack, outStream := u.outStream ++ [b] }
      | fail => exact h.update fun u => { u with outAns := some .fail }

theorem Indistinct.storeCtrl (h : Indistinct s t) (m : PassMode) (em : Bool) (dm : BitVec 2) (iq : Bool) :
    Indistinct (storeCtrl m em dm iq s) (storeCtrl m em dm iq t) := by
  have state : s.state = t.state := h.specified.read State.state
  refine rel_ite (by rw [state]) ?_ ?_
  · exact h.update fun u => { u with irqEn := iq }
  · exact h.update fun u =>
      { u with mode := m, encMarker := em, decMarker := writeDecMarker u.decMarker dm, irqEn := iq }

/-- START of a decode pass writes PREV and the cache, and no header byte is there yet (43_decode_engine.md R171). -/
theorem indistinct_startDecode (h : SameSpecified s t) : Indistinct (startDecode s) (startDecode t) :=
  indistinct_iff.mpr ⟨h.update startDecode, rfl, rfl, nofun⟩

/-- START of an encode pass writes all but the buffers (44_encode_engine.md R200). -/
theorem indistinct_startEncode (h : SameSpecified s t) : Indistinct (startEncode s) (startEncode t) := by
  have channels : s.channels = t.channels := h.read State.channels
  have width : s.width = t.width := h.read State.width
  have height : s.height = t.height := h.read State.height
  refine rel_ite (by rw [channels]) ?_ (indistinct_raise _ (h.update (beginPass .encode)))
  exact indistinct_iff.mpr ⟨h.update fun u =>
      { beginPass .encode (openInput u) with state := .busy, sub := .eHdr 0 }, rfl, rfl, by simp [width, height], rfl⟩

theorem Indistinct.sameOutcome_writeCtrl (h : Indistinct s t) (v : Word) :
    SameOutcome (writeCtrl v s) (writeCtrl v t) := by
  have busy : s.state = .busy ↔ t.state = .busy := by rw [h.specified.read State.state]
  rcases decodeCtrl_cases v with e | ⟨em, dm, iq, e⟩ | ⟨em, dm, iq, e⟩ | e <;> simp only [writeCtrl, e]
  · exact indistinct_of_none (h.specified.update abortPass) rfl
  · have stored := h.storeCtrl .decode em dm iq
    exact rel_ite (r := SameOutcome) busy stored (indistinct_startDecode stored.specified)
  · have stored := h.storeCtrl .encode em dm iq
    exact rel_ite (r := SameOutcome) busy stored (indistinct_startEncode stored.specified)
  · exact h.storeCtrl _ _ _ _

theorem Indistinct.whenNotBusy (h : Indistinct s t) {f : State → State} (hf : Indistinct (f s) (f t)) :
    Indistinct (whenNotBusy f s) (whenNotBusy f t) := by
  have state : s.state = t.state := h.specified.read State.state
  exact rel_ite (by rw [state]) h hf

theorem Indistinct.sameOutcome_csrWrite (h : Indistinct s t) (w : Fin 64) (v : Word) :
    SameOutcome (csrWrite w v s) (csrWrite w v t) := by
  unfold csrWrite
  split
  · exact h.sameOutcome_writeCtrl v
  · exact h.whenNotBusy (h.update fun u => { u with width := v })
  · exact h.whenNotBusy (h.update fun u => { u with height := v })
  · exact h.whenNotBusy (h.update fun u => { u with channels := v.extractLsb' 0 8, colorspace := v.extractLsb' 8 8 })
  · exact h

theorem Indistinct.sameOutcome_perform (h : Indistinct s t) (inv : Invariant s) (e : Event) :
    SameOutcome (perform e s) (perform e t) := by
  cases e with
  | core => exact h.sameOutcome_coreStep inv
  | present k => exact h.sameOutcome_present k
  | answer a => exact h.sameOutcome_answer a
  | csrRead w => exact h.update fun u => { u with csrData := some (csrValue w u) }
  | csrWrite w v => exact h.sameOutcome_csrWrite w v
  | reset => exact indistinct_of_none (h.specified.update hardReset) rfl

end

/-- Settles O60: the two have the same event first, and whatever it is, it reads only what they agree on. -/
theorem unspecifiedNeverRead : Obligations.UnspecifiedNeverRead := by
  intro s t inv h
  have events : s.events = t.events := h.specified.read State.events
  unfold step
  rw [← events]
  cases s.events with
  | nil => exact h.sameOutcome_coreStep inv
  | cons e rest =>
    have taken : Indistinct (withEvents rest s) (withEvents rest t) := h.update (withEvents rest)
    exact taken.sameOutcome_perform (inv.ports inv.inPass inv.answer inv.outCount) e

end Sys2Proof.Safety
end
